-- ==== Sys2Proof/Word.lean ====
section
/-! DEFINITION. The word types of the block: bytes of BMEM, 16-bit elements, 32-bit registers. -/

namespace Sys2Proof

/-- One byte of BMEM (`20_memory.md` R60). -/
abbrev Byte := BitVec 8

/-- One 16-bit element: a C16 word, a palette entry, an RLE16 symbol (`20_memory.md` R63). -/
abbrev Half := BitVec 16

/-- One host-visible register or command word: REG_WIDTH = 32 (`00_scope.md` R7). -/
abbrev Word := BitVec 32

/-- A 15-bit RGB555 colour without the transparency bit (`00_scope.md` R13, color15). -/
abbrev Color15 := BitVec 15

end Sys2Proof
end

