-- ==== Sys2Proof/Config.lean ====
section
/-! DEFINITION. What is fixed for the machine: the fixed parameters of `00_scope.md` R7 and the free values, which have no
body. MEM_SIZE, the OPEN parameter, is carried in State (log 4). -/

namespace Sys2Proof

/-- PAL_ENTRIES (R7). -/
abbrev Config.palEntries : Nat := 256

/-- PAL_FIRST_FREE (R7). -/
abbrev Config.palFirstFree : Nat := 2

/-- PAL_OVF_INDEX (R7). -/
abbrev Config.palOvfIndex : Nat := 255

/-- RLE_MIN_REPEAT (R7). -/
abbrev Config.rleMinRepeat : Nat := 3

/-- RLE8_LIT_MAX and RLE16_LIT_MAX (R7, `45_rle_codec.md` R221): `2^(w-1)` symbols. -/
abbrev Config.rleLitMax (w : Nat) : Nat := 2 ^ (w - 1)

/-- RLE8_REP_MAX and RLE16_REP_MAX (R7, `45_rle_codec.md` R221): `2^(w-1) + 2` symbols. -/
abbrev Config.rleRepMax (w : Nat) : Nat := 2 ^ (w - 1) + 2

/-- The size of the register window in bytes (`10_state.md` R22). -/
abbrev Config.windowBytes : Nat := 0x800

/-- The byte that BMEM holds at an address nothing has written since power-on: "unspecified at power-on (any value)"
(`70_reset_and_hazards.md` R340). FREE VALUE, no body (log 5). -/
opaque Config.powerOnByte : Nat → Byte

/-- The `n`-th free byte the machine draws: bytes of a destination region after CAPACITY, RLE_FORMAT or a reset during the
BUSY window (`40_command_control.md` R118, `70_reset_and_hazards.md` R349). FREE VALUE, no body (log 6). -/
opaque Config.freeByte : Nat → Byte

/-- The `n`-th free word the machine draws: a host read of a progress register while BUSY = 1
(`70_reset_and_hazards.md` R346). FREE VALUE, no body (log 6). -/
opaque Config.freeWord : Nat → Word

end Sys2Proof
end

