-- ==== Sys2Proof/Syntax.lean ====
section
/-! DEFINITION. The 18 operations of the opcode map, `30_encoding.md` R92. No operation has an operand field (R90, R94), so
no constructor has an argument. -/

namespace Sys2Proof

/-- One constructor per row of `spec/opcode_table.json`. -/
inductive Instr where
  /-- NOP, 0x00 (`40_command_control.md` R120). -/
  | nop
  /-- CVT_RGB555, 0x01 (`41_pixel_codec.md` R133). -/
  | cvtRgb555
  /-- CVT_RGB565, 0x02 (R135). -/
  | cvtRgb565
  /-- CVT_BGR565, 0x03 (R136). -/
  | cvtBgr565
  /-- CVT_RGB444, 0x04 (R138). -/
  | cvtRgb444
  /-- CVT_1BIT, 0x05 (R140). -/
  | cvt1bit
  /-- CVT_IDX8, 0x06 (R142). -/
  | cvtIdx8
  /-- PAL_RESET, 0x10 (`42_palette_builder.md` R163). -/
  | palReset
  /-- PAL_ASSIGN, 0x11 (R164). -/
  | palAssign
  /-- PAL_STORE, 0x12 (R165). -/
  | palStore
  /-- RASTER_ENCODE, 0x20 (`43_raster_encoder.md` R182). -/
  | rasterEncode
  /-- TILE_8, 0x30 (`44_tile_rearranger.md` R202). -/
  | tile8
  /-- TILE_16, 0x31 (R203). -/
  | tile16
  /-- TILE_1BIT, 0x32 (R205). -/
  | tile1bit
  /-- RLE8_ENC, 0x40 (`45_rle_codec.md` R224). -/
  | rle8Enc
  /-- RLE16_ENC, 0x41 (R225). -/
  | rle16Enc
  /-- RLE8_DEC, 0x42 (R227). -/
  | rle8Dec
  /-- RLE16_DEC, 0x43 (R228). -/
  | rle16Dec
  deriving DecidableEq, Repr

end Sys2Proof
end

