-- ==== Sys2Proof/WellFormed.lean ====
section
/-! DEFINITION. Well-formedness: of a command word (`30_encoding.md` R91, "legal") and of an instruction. -/

namespace Sys2Proof

/-- The opcodes of the map R92. -/
def usedOpcodes : List (BitVec 8) :=
  [0x00#8, 0x01#8, 0x02#8, 0x03#8, 0x04#8, 0x05#8, 0x06#8, 0x10#8, 0x11#8, 0x12#8, 0x20#8, 0x30#8, 0x31#8, 0x32#8,
    0x40#8, 0x41#8, 0x42#8, 0x43#8]

/-- RSVD, bits 31:8 of a command word, is 0 (R90). -/
def reservedBitsClear (c : Word) : Bool := c.extractLsb' 8 24 == 0#24

/-- OPCODE, bits 7:0 of a command word, is an opcode of R92. -/
def opcodeUsed (c : Word) : Bool := usedOpcodes.contains (c.extractLsb' 0 8)

/-- "A command word c is legal iff c[31:8] = 0 and c[7:0] is an opcode of rule R92" (R91). -/
def legalWord (c : Word) : Bool := reservedBitsClear c && opcodeUsed c

/-- No instruction has a field (R90: "There is no immediate, register-number or mode field"), so every term of Instr is
well formed. One arm per constructor, so that a constructor added later needs its check written. -/
def Instr.wellFormed : Instr → Bool
  | .nop | .cvtRgb555 | .cvtRgb565 | .cvtBgr565 | .cvtRgb444 | .cvt1bit | .cvtIdx8 => true
  | .palReset | .palAssign | .palStore => true
  | .rasterEncode => true
  | .tile8 | .tile16 | .tile1bit => true
  | .rle8Enc | .rle16Enc | .rle8Dec | .rle16Dec => true

end Sys2Proof
end

