-- ==== Sys2Proof/Decode.lean ====
section
/-! DEFINITION. The decoder, total on the 2^32 command words (`30_encoding.md` R95), and the encoder. -/

namespace Sys2Proof

/-- Why a word is ILLEGAL_CMD (R93); both reasons raise the same error. -/
inductive IllegalWord where
  /-- CMD[31:8] is not 0. -/
  | reservedBitsSet
  /-- OPCODE is a reserved opcode. -/
  | reservedOpcode
  deriving DecidableEq, Repr

/-- The opcode map R92, read from opcode to operation. -/
def decodeOpcode (op : BitVec 8) : Option Instr :=
  match op.toNat with
  | 0x00 => some .nop
  | 0x01 => some .cvtRgb555
  | 0x02 => some .cvtRgb565
  | 0x03 => some .cvtBgr565
  | 0x04 => some .cvtRgb444
  | 0x05 => some .cvt1bit
  | 0x06 => some .cvtIdx8
  | 0x10 => some .palReset
  | 0x11 => some .palAssign
  | 0x12 => some .palStore
  | 0x20 => some .rasterEncode
  | 0x30 => some .tile8
  | 0x31 => some .tile16
  | 0x32 => some .tile1bit
  | 0x40 => some .rle8Enc
  | 0x41 => some .rle16Enc
  | 0x42 => some .rle8Dec
  | 0x43 => some .rle16Dec
  | _ => none

/-- `decode(c)` of R95. -/
def decode (c : Word) : Except IllegalWord Instr :=
  if c.extractLsb' 8 24 ≠ 0#24 then .error .reservedBitsSet
  else
    match decodeOpcode (c.extractLsb' 0 8) with
    | some i => .ok i
    | none => .error .reservedOpcode

/-- The opcode map R92, read from operation to opcode. -/
def Instr.opcode : Instr → BitVec 8
  | .nop => 0x00#8
  | .cvtRgb555 => 0x01#8
  | .cvtRgb565 => 0x02#8
  | .cvtBgr565 => 0x03#8
  | .cvtRgb444 => 0x04#8
  | .cvt1bit => 0x05#8
  | .cvtIdx8 => 0x06#8
  | .palReset => 0x10#8
  | .palAssign => 0x11#8
  | .palStore => 0x12#8
  | .rasterEncode => 0x20#8
  | .tile8 => 0x30#8
  | .tile16 => 0x31#8
  | .tile1bit => 0x32#8
  | .rle8Enc => 0x40#8
  | .rle16Enc => 0x41#8
  | .rle8Dec => 0x42#8
  | .rle16Dec => 0x43#8

/-- The command word of an operation: RSVD = 0 in bits 31:8, OPCODE in bits 7:0 (R90). -/
def encode (i : Instr) : Word := 0#24 ++ i.opcode

/-- The instruction the decoder reads from the table's bits: a command is one 32-bit word (R96), bits above `nbits` are 0,
and no command is longer than 32 bits. -/
def decodeTableWord (nbits w : Nat) : Option Instr :=
  if 32 < nbits then none
  else
    match decode (BitVec.ofNat 32 (w % 2 ^ nbits)) with
    | .ok i => some i
    | .error _ => none

end Sys2Proof
end

