-- ==== Sys2Proof/Machine/State.lean ====
section
/-! DEFINITION. The state of the machine (`10_state.md` R41), plain data throughout, the reasons a step can stop, and the
state after reset. -/

namespace Sys2Proof.Machine

open Sys2Proof

/-- A pixel: four bytes R, G, B, A (`00_scope.md` R12). -/
structure Pixel where
  r : Byte
  g : Byte
  b : Byte
  a : Byte
  deriving DecidableEq, Repr

/-- `Region(base, len)`: the byte interval [base, base+len) (`00_scope.md` R10). -/
structure Region where
  base : Nat
  len : Nat
  deriving DecidableEq, Repr

/-- The error codes 1 to 8 of `60_exceptions.md` R300. -/
inductive ErrorCode where
  | illegalCmd
  | badFmt
  | badGeometry
  | badTile
  | range
  | overlap
  | capacity
  | rleFormat
  deriving DecidableEq, Repr

/-- The colour formats FMT16 selects (`10_state.md` R27); the value 3 is reserved and is none of them. -/
inductive ColorFormat where
  | rgb555
  | rgb565
  | bgr565
  deriving DecidableEq, Repr

/-- STATUS (`10_state.md` R26), one field per bit or code; the reserved bits hold no state (log 18). -/
structure Status where
  busy : Bool
  done : Bool
  err : Bool
  palOvf : Bool
  cmdOvr : Bool
  errCode : BitVec 4
  deriving DecidableEq, Repr

/-- ENC_CFG (`10_state.md` R27), one field per field of the register; the reserved bits hold no state (log 18). -/
structure EncCfg where
  fmt16 : BitVec 2
  partialTransp : Bool
  bswap16 : Bool
  enIdx8 : Bool
  enBit1 : Bool
  enC16 : Bool
  enAlpha : Bool
  enPk444 : Bool
  deriving DecidableEq, Repr

/-- The registers the host writes and operations only read: `10_state.md` R27-R31. -/
structure ConfigRegs where
  encCfg : EncCfg
  width : BitVec 16
  height : BitVec 16
  tile : BitVec 8
  srcBase : Word
  srcLen : Word
  dstBase : Word
  dstCap : Word
  idx8Base : Word
  bit1Base : Word
  c16Base : Word
  alphaBase : Word
  pk444Base : Word
  mapxBase : Word
  mapyBase : Word
  arg0 : Word
  deriving DecidableEq, Repr

/-- The palette builder's state: PAL[0..255], PAL_NEXT and PAL_OVF_CNT (`10_state.md` R34, R35, R37). -/
structure Palette where
  entry : Vector Half 256
  next : BitVec 9
  ovfCnt : Word
  deriving DecidableEq, Repr

/-- BMEM as the list of its written bytes. An unlisted address reads as NO value of the list (`Memory.read?` is none) and
the machine then reads the free power-on byte (log 5). Canonical form: addresses strictly rising (`Memory.wf`). -/
abbrev Memory := List Host.Cell

/-- The named registers of the window (`10_state.md` R22). -/
inductive RegName where
  | cmd | status | encCfg | width | height | tile
  | srcBase | srcLen | dstBase | dstCap
  | idx8Base | bit1Base | c16Base | alphaBase | pk444Base | mapxBase | mapyBase
  | arg0 | result | outLen | palNext | palOvfCnt
  | palEntry (k : Fin 256)
  deriving DecidableEq, Repr

/-- The width of a host access to the register window; only 32-bit accesses have a meaning (`10_state.md` R23). -/
inductive AccessWidth where
  | bits8
  | bits16
  | bits32
  | bits64
  deriving DecidableEq, Repr

/-- One action from outside the block (`60_exceptions.md` R315, `30_encoding.md` R97-R99). That the reset input and the
accesses of other agents stand in the host's own list, between its actions, is DESIGN CHOICE (log 23, log 14). -/
inductive HostAction where
  /-- A register-window write. -/
  | writeReg (offset : Fin Config.windowBytes) (width : AccessWidth) (value : Word)
  /-- A register-window read. -/
  | readReg (offset : Fin Config.windowBytes) (width : AccessWidth)
  /-- A BMEM byte write, by the host or another agent that shares BMEM (log 14). -/
  | writeMem (address : Nat) (value : Byte)
  /-- A BMEM byte read, by the host or another agent that shares BMEM (log 14). -/
  | readMem (address : Nat)
  /-- The polling loop `wait` of `30_encoding.md` R98: one read of STATUS, repeated until BUSY = 0. -/
  | wait
  /-- The reset input is asserted and released (`70_reset_and_hazards.md` R340, R349), as one action; no rule says who
  drives it or when: DESIGN CHOICE (log 23). -/
  | reset
  deriving DecidableEq, Repr

/-- The two agents that take steps (`00_scope.md` R14). -/
inductive Agent where
  | host
  | block
  deriving DecidableEq, Repr

/-- The state: the tuple of `10_state.md` R41, the parameter MEM_SIZE, and the model's own last four fields. -/
structure State where
  /-- CMD, the last accepted command word (R25). -/
  cmd : Word
  /-- STATUS (R26). -/
  status : Status
  /-- The registers the host configures (R27-R31). -/
  cfg : ConfigRegs
  /-- RESULT (R32). -/
  result : Word
  /-- OUT_LEN (R33). -/
  outLen : Word
  /-- PAL, PAL_NEXT, PAL_OVF_CNT (R34, R35, R37). -/
  palette : Palette
  /-- BMEM (R38). -/
  mem : Memory
  /-- The refusal mark (R41). -/
  refusalMark : Bool
  /-- MEM_SIZE (`00_scope.md` R7); no step changes it (log 4). -/
  memSize : Nat
  /-- Model: how many free values have been drawn (log 6). -/
  draws : Nat
  /-- Model: the value the last host read returned (log 10). -/
  busRead : Word
  /-- Model: the host's actions still to come, the next one first (log 3). -/
  program : List HostAction
  /-- Model: who moves next, the next one first (log 1). -/
  schedule : List Agent
  deriving DecidableEq, Repr

/-- The one stop the spec's address space asks for. -/
inductive Fault where
  /-- A host access to BMEM at an address at or beyond MEM_SIZE, which does not exist (`20_memory.md` R60). Raised by
  `hostReadMem` and `hostWriteMem`. SAFE (log 12). -/
  | noSuchAddress (address : Nat)
  deriving DecidableEq, Repr

/-- No instruction of this hardware is refused; the one reason is the host's own. -/
inductive Refusal where
  /-- An instruction that has no meaning yet. Raised by no arm of `exec`. SAFE. -/
  | notModelled (mnemonic : String)
  deriving DecidableEq, Repr

/-- The palette after `pal_reset()`: every entry 0, PAL_NEXT = 2, PAL_OVF_CNT = 0 (`42_palette_builder.md` R160). -/
def Palette.reset : Palette :=
  { entry := Vector.replicate 256 0#16, next := 2#9, ovfCnt := 0#32 }

/-- STATUS after reset: 0x00000000 (`70_reset_and_hazards.md` R340). -/
def Status.reset : Status :=
  { busy := false, done := false, err := false, palOvf := false, cmdOvr := false, errCode := 0#4 }

/-- The configured registers after reset: all 0 (R340). -/
def ConfigRegs.reset : ConfigRegs :=
  { encCfg :=
      { fmt16 := 0#2, partialTransp := false, bswap16 := false, enIdx8 := false, enBit1 := false, enC16 := false,
        enAlpha := false, enPk444 := false }
    width := 0#16, height := 0#16, tile := 0#8
    srcBase := 0#32, srcLen := 0#32, dstBase := 0#32, dstCap := 0#32
    idx8Base := 0#32, bit1Base := 0#32, c16Base := 0#32, alphaBase := 0#32, pk444Base := 0#32
    mapxBase := 0#32, mapyBase := 0#32, arg0 := 0#32 }

/-- The state after reset (R340) of a block whose BMEM has `memSize` bytes: MEM_SIZE is the OPEN parameter of
`00_scope.md` R7 ("A Lean model takes each OPEN one as an argument"). The last four fields are the model's own. -/
def State.resetOf (memSize : Nat) : State :=
  { cmd := 0#32
    status := Status.reset
    cfg := ConfigRegs.reset
    result := 0#32
    outLen := 0#32
    palette := Palette.reset
    mem := []
    refusalMark := false
    memSize := memSize
    draws := 0
    busRead := 0#32
    program := []
    schedule := [] }

/-- The state after reset at the one MEM_SIZE the host's interface, which takes no argument, is given: that of the spec's
own vectors. The number is DESIGN CHOICE (log 4). -/
def State.reset : State := State.resetOf 0x10000

end Sys2Proof.Machine
end

