-- ==== Sys2Proof/Machine/Flags.lean ====
section
/-! DEFINITION. STATUS, its flags and its codes (`10_state.md` R26, `60_exceptions.md` R300), and the word view of ENC_CFG
(R27). -/

namespace Sys2Proof.Machine

open Sys2Proof

/-- The ERRCODE value of an error (`60_exceptions.md` R300). -/
def ErrorCode.code : ErrorCode → BitVec 4
  | .illegalCmd => 1#4
  | .badFmt => 2#4
  | .badGeometry => 3#4
  | .badTile => 4#4
  | .range => 5#4
  | .overlap => 6#4
  | .capacity => 7#4
  | .rleFormat => 8#4

/-- One flag at its bit of a register. -/
def flagBit (b : Bool) (bit : Nat) : Word := if b then 1#32 <<< bit else 0#32

/-- STATUS as the host reads it (R26): BUSY 0, DONE 1, ERR 2, PAL_OVF 3, CMD_OVR 4, ERRCODE 11:8, the rest 0. -/
def Status.toWord (t : Status) : Word :=
  flagBit t.busy 0 ||| flagBit t.done 1 ||| flagBit t.err 2 ||| flagBit t.palOvf 3 ||| flagBit t.cmdOvr 4
    ||| (t.errCode.setWidth 32 <<< 8)

/-- STATUS from the 12 bits of a register value: what a test writes down as a start value. -/
def Status.ofWord (v : Word) : Status :=
  { busy := v.getLsbD 0, done := v.getLsbD 1, err := v.getLsbD 2, palOvf := v.getLsbD 3, cmdOvr := v.getLsbD 4,
    errCode := v.extractLsb' 8 4 }

/-- A host write to STATUS (R26): a 1 clears DONE, ERR with ERRCODE, PAL_OVF or CMD_OVR; BUSY and ERRCODE are RO; a 0
leaves its bit unchanged. -/
def Status.writeOneToClear (v : Word) (t : Status) : Status :=
  { busy := t.busy
    done := t.done && !v.getLsbD 1
    err := t.err && !v.getLsbD 2
    palOvf := t.palOvf && !v.getLsbD 3
    cmdOvr := t.cmdOvr && !v.getLsbD 4
    errCode := if v.getLsbD 2 then 0#4 else t.errCode }

/-- The STATUS writes of acceptance (`40_command_control.md` R110). -/
def Status.accepted (t : Status) : Status :=
  { t with busy := true, done := false, err := false, errCode := 0#4 }

/-- The STATUS writes of `complete` (R117). -/
def Status.completed (t : Status) : Status :=
  { t with busy := false, done := true }

/-- The STATUS writes of `raise Error(code)` (R118, and DONE = 0 of `60_exceptions.md` R304; log 9). -/
def Status.failed (e : ErrorCode) (t : Status) : Status :=
  { t with busy := false, done := false, err := true, errCode := e.code }

/-- The sticky palette-overflow warning (`42_palette_builder.md` R162): set by an overflow, else kept. -/
def Status.noteOverflow (overflow : Bool) (t : Status) : Status :=
  { t with palOvf := t.palOvf || overflow }

/-- PAL_OVF <- 0, of `pal_reset()` (R160). -/
def Status.clearOverflow (t : Status) : Status :=
  { t with palOvf := false }

/-- CMD_OVR <- 1, of a dropped CMD write (`40_command_control.md` R112). -/
def Status.noteDropped (t : Status) : Status :=
  { t with cmdOvr := true }

/-- ENC_CFG as the host reads it (R27). -/
def EncCfg.toWord (e : EncCfg) : Word :=
  e.fmt16.setWidth 32 ||| flagBit e.partialTransp 2 ||| flagBit e.bswap16 3 ||| flagBit e.enIdx8 8 ||| flagBit e.enBit1 9
    ||| flagBit e.enC16 10 ||| flagBit e.enAlpha 11 ||| flagBit e.enPk444 12

/-- ENC_CFG as a host write stores it (R27): the reserved bits are ignored. -/
def EncCfg.ofWord (v : Word) : EncCfg :=
  { fmt16 := v.extractLsb' 0 2, partialTransp := v.getLsbD 2, bswap16 := v.getLsbD 3, enIdx8 := v.getLsbD 8,
    enBit1 := v.getLsbD 9, enC16 := v.getLsbD 10, enAlpha := v.getLsbD 11, enPk444 := v.getLsbD 12 }

/-- The format FMT16 selects (R27): none for the reserved value 3. -/
def ColorFormat.ofBits (f : BitVec 2) : Option ColorFormat :=
  match f.toNat with
  | 0 => some .rgb555
  | 1 => some .rgb565
  | 2 => some .bgr565
  | _ => none

end Sys2Proof.Machine
end

