-- ==== Sys2Proof/Machine/Ops.lean ====
section
/-! DEFINITION. The shared operations over memory and registers: BMEM access, regions and their checks, completion, raising
an error (this hardware's exception entry) and the host's return from it. -/

namespace Sys2Proof.Machine

open Sys2Proof

/-! ## BMEM -/

/-- The written byte at an address; none where nothing has been written. -/
def Memory.read? : Memory → Nat → Option Byte
  | [], _ => none
  | c :: m, a => if c.1 = a then some c.2 else Memory.read? m a

/-- Bytes laid out at consecutive addresses. -/
def cellsFrom : Nat → List Byte → Memory
  | _, [] => []
  | a, b :: bs => (a, b) :: cellsFrom (a + 1) bs

/-- `MemWrite` of consecutive bytes from `base` on (`00_scope.md` R10), keeping the canonical form. -/
def Memory.store (base : Nat) (bs : List Byte) (m : Memory) : Memory :=
  m.filter (fun c => c.1 < base) ++ cellsFrom base bs ++ m.filter (fun c => base + bs.length ≤ c.1)

/-- The canonical form: addresses strictly rising. An unlisted address has no value of the list, so no entry can equal it. -/
def Memory.wf (m : Memory) : Bool := decide (List.Pairwise (fun c d : Host.Cell => c.1 < d.1) m)

/-- `MemRead(a, 1)`: the written byte, else the free power-on byte (log 5). -/
def State.byteAt (s : State) (a : Nat) : Byte := (s.mem.read? a).getD (Config.powerOnByte a)

/-- `MemRead(a, 2)`, little-endian (`20_memory.md` R63). -/
def State.halfAt (s : State) (a : Nat) : Half := s.byteAt (a + 1) ++ s.byteAt a

/-- The bytes of a 16-bit element in address order, little-endian (R63). -/
def littleEndian (v : Half) : List Byte := [v.extractLsb' 0 8, v.extractLsb' 8 8]

/-- The bytes of a 16-bit element in address order, big-endian: the C16 plane under BSWAP16 (R63). -/
def bigEndian (v : Half) : List Byte := [v.extractLsb' 8 8, v.extractLsb' 0 8]

/-- `n` bytes from `base` on. -/
def State.bytesAt (s : State) (base n : Nat) : List Byte := (List.range n).map fun q => s.byteAt (base + q)

/-- `n` little-endian 16-bit elements from `base` on. -/
def State.halvesAt (s : State) (base n : Nat) : List Half := (List.range n).map fun q => s.halfAt (base + 2 * q)

/-- The state with consecutive bytes written to BMEM. -/
def State.storeBytes (s : State) (base : Nat) (bs : List Byte) : State := { s with mem := s.mem.store base bs }

/-! ## Regions -/

/-- "admitted iff len = 0, or base + len ≤ MEM_SIZE, computed without wrap-around" (`20_memory.md` R68). -/
def Region.admitted (r : Region) (memSize : Nat) : Bool := r.len == 0 || decide (r.base + r.len ≤ memSize)

/-- "overlap iff l1 > 0 ∧ l2 > 0 ∧ b1 < b2 + l2 ∧ b2 < b1 + l1" (R69). -/
def Region.overlaps (p q : Region) : Bool :=
  decide (0 < p.len) && decide (0 < q.len) && decide (p.base < q.base + q.len) && decide (q.base < p.base + p.len)

/-- The address lies in the region. -/
def Region.contains (r : Region) (a : Nat) : Bool := decide (r.base ≤ a) && decide (a < r.base + r.len)

/-- `range_ok` of `40_command_control.md` R115. -/
def rangeOk (rs : List Region) (memSize : Nat) : Bool := rs.all fun r => r.admitted memSize

/-- `overlap_ok` of R115: no two of the regions overlap. -/
def overlapOk : List Region → Bool
  | [] => true
  | r :: rs => rs.all (fun q => !r.overlaps q) && overlapOk rs

/-- Every byte of the region that BMEM has takes a free value (R118, `70_reset_and_hazards.md` R349; log 6, log 13). -/
def State.havoc (r : Region) (s : State) : State :=
  let n := min r.len (s.memSize - r.base)
  { s with
    mem := s.mem.store r.base ((List.range n).map fun i => Config.freeByte (s.draws + i))
    draws := s.draws + n }

/-! ## The end of an operation -/

/-- `complete` (`40_command_control.md` R117). -/
def State.complete (s : State) : State := { s with status := s.status.completed }

/-- `raise Error(code)` (R118, `60_exceptions.md` R304): this hardware's ONE exception entry. Nothing is saved: there is "no
saved program counter, vector, handler address, mode change or stack". -/
def State.raiseError (e : ErrorCode) (s : State) : State := { s with status := s.status.failed e }

/-- The host's return from an error, first way (`60_exceptions.md` R305): writing 1 to STATUS bit 2; in general any host
write to STATUS while BUSY = 0 (`10_state.md` R26). -/
def State.writeStatus (v : Word) (s : State) : State := { s with status := s.status.writeOneToClear v }

/-- The host's return from an error, second way (R305): the acceptance of a command (`40_command_control.md` R110). The
bytes of the destination regions, which R40 of `10_state.md` lets hold any value until completion, stay in State as they
were: DESIGN CHOICE (log 22). -/
def State.accept (c : Word) (s : State) : State := { s with cmd := c, status := s.status.accepted }

/-- A CMD write while BUSY = 1 (R112). -/
def State.dropCommand (s : State) : State := { s with status := s.status.noteDropped }

/-- A refused host action sets the refusal mark (`70_reset_and_hazards.md` R345; log 7). -/
def State.refuse (s : State) : State := { s with refusalMark := true }

/-- RESULT <- v (`10_state.md` R32). -/
def State.setResult (v : Word) (s : State) : State := { s with result := v }

/-- OUT_LEN <- n (R33). -/
def State.setOutLen (n : Nat) (s : State) : State := { s with outLen := BitVec.ofNat 32 n }

/-! ## The checks before an operation -/

/-- The first failing check, in order (`40_command_control.md` R114): each check is whether it fails, with its error. -/
def firstFailing : List (Bool × ErrorCode) → Option ErrorCode
  | [] => none
  | (fails, e) :: rest => if fails then some e else firstFailing rest

/-- Checks 5 and 6 of R114. -/
def memoryChecks (rs : List Region) (s : State) : List (Bool × ErrorCode) :=
  [(!rangeOk rs s.memSize, .range), (!overlapOk rs, .overlap)]

/-- An operation: its checks, then its body (R114). A failing check raises its error and nothing else happens. -/
def runChecked (checks : List (Bool × ErrorCode)) (body : State → State) (s : State) :
    Host.Outcome State Fault Refusal :=
  match firstFailing checks with
  | some e => .next (s.raiseError e)
  | none => .next (body s)

end Sys2Proof.Machine
end

