-- ==== Sys2Proof/Machine/Operands.lean ====
section
/-! DEFINITION. The operands of the operations, all of them named registers (`30_encoding.md` R94): the pixel, the geometry,
the geometry and tile checks, and the regions of every operation (`40_command_control.md` R116). -/

namespace Sys2Proof.Machine

open Sys2Proof

/-- The pixel of a little-endian 32-bit value: R, G, B, A from the low byte up (`10_state.md` R31). -/
def Pixel.ofWord (p : Word) : Pixel :=
  { r := p.extractLsb' 0 8, g := p.extractLsb' 8 8, b := p.extractLsb' 16 8, a := p.extractLsb' 24 8 }

/-- The pixel operand of the single-pixel operations (`41_pixel_codec.md` R130). -/
def State.pixelOperand (s : State) : Pixel := Pixel.ofWord s.cfg.arg0

/-- The colour operand of PAL_ASSIGN, ARG0[14:0] (`10_state.md` R31). -/
def State.colorOperand (s : State) : Color15 := s.cfg.arg0.extractLsb' 0 15

/-- W (`00_scope.md` R12). -/
def State.w (s : State) : Nat := s.cfg.width.toNat

/-- H. -/
def State.h (s : State) : Nat := s.cfg.height.toNat

/-- T, the tile side (`10_state.md` R29). -/
def State.t (s : State) : Nat := s.cfg.tile.toNat

/-- N = W * H. -/
def State.n (s : State) : Nat := s.w * s.h

/-- BW = ceil(W/8), the bytes of a row of the BIT1 plane (`20_memory.md` R72). -/
def State.bw (s : State) : Nat := (s.w + 7) / 8

/-- NT = (W/T)·(H/T), the number of tiles (`40_command_control.md` R116). -/
def State.nt (s : State) : Nat := (s.w / s.t) * (s.h / s.t)

/-- The source raster's pixel (x, y): four bytes at SRC_BASE + 4*(y*W + x) (`20_memory.md` R62). -/
def State.pixelAt (s : State) (x y : Nat) : Pixel :=
  let a := s.cfg.srcBase.toNat + 4 * (y * s.w + x)
  { r := s.byteAt a, g := s.byteAt (a + 1), b := s.byteAt (a + 2), a := s.byteAt (a + 3) }

/-- The pixel at scan index k = (H-1-y)*W + x (`43_raster_encoder.md` R180): scan row k / W from the bottom, column
k mod W. -/
def State.scanPixel (s : State) (k : Nat) : Pixel := s.pixelAt (k % s.w) (s.h - 1 - k / s.w)

/-- The geometry check of `40_command_control.md` R121 fails. -/
def State.badGeometry (s : State) : Bool := s.w == 0 || s.h == 0

/-- The format check of RASTER_ENCODE fails (`43_raster_encoder.md` R182). -/
def State.badFmt (s : State) : Bool := s.cfg.encCfg.enC16 && (ColorFormat.ofBits s.cfg.encCfg.fmt16).isNone

/-- The tile check of TILE_8 and TILE_16 fails (`44_tile_rearranger.md` R200). -/
def State.badTile (s : State) : Bool := s.t == 0 || s.t % 2 != 0 || s.w % s.t != 0 || s.h % s.t != 0

/-- The tile check of TILE_1BIT fails (R200). -/
def State.badTile1bit (s : State) : Bool := s.badTile || s.t % 8 != 0

/-- A region that takes part only when its plane is enabled (`40_command_control.md` R116). -/
def regionIf (enabled : Bool) (base : Word) (len : Nat) : List Region :=
  if enabled then [{ base := base.toNat, len := len }] else []

/-- The regions an operation reads (R116). -/
def sourceRegions (i : Instr) (s : State) : List Region :=
  match i with
  | .nop | .cvtRgb555 | .cvtRgb565 | .cvtBgr565 | .cvtRgb444 | .cvt1bit | .cvtIdx8 | .palReset | .palAssign | .palStore => []
  | .rasterEncode => [{ base := s.cfg.srcBase.toNat, len := 4 * s.n }]
  | .tile8 => [{ base := s.cfg.srcBase.toNat, len := s.n }]
  | .tile16 => [{ base := s.cfg.srcBase.toNat, len := 2 * s.n }]
  | .tile1bit => [{ base := s.cfg.srcBase.toNat, len := s.h * s.w / 8 }]
  | .rle8Enc | .rle8Dec => [{ base := s.cfg.srcBase.toNat, len := s.cfg.srcLen.toNat }]
  | .rle16Enc | .rle16Dec => [{ base := s.cfg.srcBase.toNat, len := 2 * s.cfg.srcLen.toNat }]

/-- The regions an operation writes (R116). -/
def destRegions (i : Instr) (s : State) : List Region :=
  match i with
  | .nop | .cvtRgb555 | .cvtRgb565 | .cvtBgr565 | .cvtRgb444 | .cvt1bit | .cvtIdx8 | .palReset | .palAssign => []
  | .palStore => [{ base := s.cfg.dstBase.toNat, len := 512 }]
  | .rasterEncode =>
    regionIf s.cfg.encCfg.enIdx8 s.cfg.idx8Base s.n ++ regionIf s.cfg.encCfg.enBit1 s.cfg.bit1Base (s.h * s.bw)
      ++ regionIf s.cfg.encCfg.enC16 s.cfg.c16Base (2 * s.n) ++ regionIf s.cfg.encCfg.enAlpha s.cfg.alphaBase s.n
      ++ regionIf s.cfg.encCfg.enPk444 s.cfg.pk444Base (3 * ((s.n + 1) / 2))
  | .tile8 => [{ base := s.cfg.dstBase.toNat, len := s.n }]
  | .tile16 => [{ base := s.cfg.dstBase.toNat, len := 2 * s.n }]
  | .tile1bit =>
    [{ base := s.cfg.dstBase.toNat, len := s.h * s.w / 8 }, { base := s.cfg.mapxBase.toNat, len := s.nt },
      { base := s.cfg.mapyBase.toNat, len := s.nt }]
  | .rle8Enc | .rle8Dec | .rle16Enc | .rle16Dec => [{ base := s.cfg.dstBase.toNat, len := s.cfg.dstCap.toNat }]

/-- Every region of an operation, in the order of R116. -/
def regions (i : Instr) (s : State) : List Region := sourceRegions i s ++ destRegions i s

end Sys2Proof.Machine
end

