-- ==== Sys2Proof/Machine/Control.lean ====
section
/-! DEFINITION. Command control: NOP (`40_command_control.md` R120). -/

namespace Sys2Proof.Machine

/-- NOP (R120): `complete`. -/
def execNop (s : State) : Host.Outcome State Fault Refusal := .next s.complete

end Sys2Proof.Machine
end

