-- ==== Sys2Proof/Machine/Palette.lean ====
section
/-! DEFINITION. The palette builder (`42_palette_builder.md`): lookup, binding, overflow, and PAL_RESET, PAL_ASSIGN,
PAL_STORE. -/

namespace Sys2Proof.Machine

open Sys2Proof

/-- What an assignment gives: the index, the palette after it, and whether it overflowed. -/
structure Assigned where
  index : Byte
  palette : Palette
  overflow : Bool
  deriving DecidableEq, Repr

/-- PAL[k] (`10_state.md` R34); there is no entry past 255. -/
def Palette.get (p : Palette) (k : Nat) : Half := p.entry[k]?.getD 0#16

/-- The lookup of R161: the first k in 2 .. PAL_NEXT-1 with PAL[k] = c15. -/
def Palette.lookup (c : Color15) (p : Palette) : Option Nat :=
  (List.range' Config.palFirstFree (p.next.toNat - Config.palFirstFree)).find? fun k => p.get k == c.setWidth 16

/-- The binding of R162: PAL[PAL_NEXT] <- c15 with bit 15 = 0, PAL_NEXT <- PAL_NEXT + 1. -/
def Palette.bind (c : Color15) (p : Palette) : Palette :=
  { p with entry := p.entry.setIfInBounds p.next.toNat (c.setWidth 16), next := p.next + 1#9 }

/-- The overflow of R162: PAL_OVF_CNT <- (PAL_OVF_CNT + 1) mod 2^32. -/
def Palette.countOverflow (p : Palette) : Palette := { p with ovfCnt := p.ovfCnt + 1#32 }

/-- `assign(c15)` (R161, R162). -/
def Palette.assign (c : Color15) (p : Palette) : Assigned :=
  if c = 0#15 then { index := 1#8, palette := p, overflow := false }
  else
    match p.lookup c with
    | some k => { index := BitVec.ofNat 8 k, palette := p, overflow := false }
    | none =>
      if p.next.toNat ≤ Config.palOvfIndex then
        { index := BitVec.ofNat 8 p.next.toNat, palette := p.bind c, overflow := false }
      else { index := BitVec.ofNat 8 Config.palOvfIndex, palette := p.countOverflow, overflow := true }

/-- The writes of an operation that makes one assignment: RESULT, the palette, and PAL_OVF on overflow (R164, `41_pixel_codec.md`
R142). -/
def State.applyAssigned (r : Assigned) (s : State) : State :=
  { s with result := r.index.setWidth 32, palette := r.palette, status := s.status.noteOverflow r.overflow }

/-- `pal_reset()` (R160). -/
def State.palReset (s : State) : State := { s with palette := Palette.reset, status := s.status.clearOverflow }

/-- The 512 bytes of the palette file (`20_memory.md` R76). -/
def Palette.file (p : Palette) : List Byte :=
  (List.range Config.palEntries).flatMap fun k => littleEndian (p.get k)

/-- PAL_RESET (R163). -/
def execPalReset (s : State) : Host.Outcome State Fault Refusal := .next s.palReset.complete

/-- PAL_ASSIGN (R164). -/
def execPalAssign (s : State) : Host.Outcome State Fault Refusal :=
  .next (s.applyAssigned (s.palette.assign s.colorOperand)).complete

/-- The body of PAL_STORE (R165), after its checks. -/
def palStoreBody (s : State) : State :=
  ((s.storeBytes s.cfg.dstBase.toNat s.palette.file).setOutLen Config.palEntries).complete

/-- PAL_STORE (R165). -/
def execPalStore (s : State) : Host.Outcome State Fault Refusal :=
  runChecked (memoryChecks (regions .palStore s) s) palStoreBody s

end Sys2Proof.Machine
end

