-- ==== Sys2Proof/Machine/PixelCodec.lean ====
section
/-! DEFINITION. The pixel codec (`41_pixel_codec.md`): the transforms, and the six CVT operations. -/

namespace Sys2Proof.Machine

open Sys2Proof

/-- `transparent(a, PT)` (R131). -/
def transparent (a : Byte) (pt : Bool) : Bool := a == 0#8 || (pt && a != 255#8)

/-- `color15(r, g, b)` (R132). -/
def Pixel.color15 (p : Pixel) : Color15 :=
  ((p.r >>> 3).setWidth 15 <<< 10) ||| ((p.g >>> 3).setWidth 15 <<< 5) ||| (p.b >>> 3).setWidth 15

/-- `rgb555(r, g, b, a, PT)` (R132): bit 15 is "not transparent". -/
def Pixel.rgb555 (p : Pixel) (pt : Bool) : Half :=
  ((if transparent p.a pt then 0#16 else 1#16) <<< 15) ||| p.color15.setWidth 16

/-- `rgb565(r, g, b)` (R134). -/
def Pixel.rgb565 (p : Pixel) : Half :=
  ((p.r >>> 3).setWidth 16 <<< 11) ||| ((p.g >>> 2).setWidth 16 <<< 5) ||| (p.b >>> 3).setWidth 16

/-- `bgr565(r, g, b)` (R134). -/
def Pixel.bgr565 (p : Pixel) : Half :=
  ((p.b >>> 3).setWidth 16 <<< 11) ||| ((p.g >>> 2).setWidth 16 <<< 5) ||| (p.r >>> 3).setWidth 16

/-- `rgb444(r, g, b)` (R137), 12 bits. -/
def Pixel.rgb444 (p : Pixel) : BitVec 12 :=
  ((p.r >>> 4).setWidth 12 <<< 8) ||| ((p.g >>> 4).setWidth 12 <<< 4) ||| (p.b >>> 4).setWidth 12

/-- `bit1(a)` (R139): set iff alpha is not 0, whatever PARTIAL_TRANSP. -/
def bit1 (a : Byte) : Bool := a != 0#8

/-- `idx8(r, g, b, a, PT)` (R141): a transparent pixel gives 0 and does not touch the palette. -/
def Pixel.idx8 (x : Pixel) (pt : Bool) (p : Palette) : Assigned :=
  if transparent x.a pt then { index := 0#8, palette := p, overflow := false } else p.assign x.color15

/-- `c16(r, g, b, a, PT, FMT16)` (R143). -/
def Pixel.c16 (p : Pixel) (pt : Bool) : ColorFormat → Half
  | .rgb555 => p.rgb555 pt
  | .rgb565 => p.rgb565
  | .bgr565 => p.bgr565

/-- `dec555`, `dec565` and `decB565` of R144, the reference decoders: (R, G, B) channels. No operation uses them. -/
def dec555 (w : Half) : BitVec 5 × BitVec 5 × BitVec 5 := (w.extractLsb' 10 5, w.extractLsb' 5 5, w.extractLsb' 0 5)

/-- See `dec555`. -/
def dec565 (w : Half) : BitVec 5 × BitVec 6 × BitVec 5 := (w.extractLsb' 11 5, w.extractLsb' 5 6, w.extractLsb' 0 5)

/-- See `dec555`. -/
def decB565 (w : Half) : BitVec 5 × BitVec 6 × BitVec 5 := (w.extractLsb' 0 5, w.extractLsb' 5 6, w.extractLsb' 11 5)

/-- PT (`41_pixel_codec.md` R130). -/
def State.pt (s : State) : Bool := s.cfg.encCfg.partialTransp

/-- CVT_RGB555 (R133). -/
def execCvtRgb555 (s : State) : Host.Outcome State Fault Refusal :=
  .next (s.setResult ((s.pixelOperand.rgb555 s.pt).setWidth 32)).complete

/-- CVT_RGB565 (R135). -/
def execCvtRgb565 (s : State) : Host.Outcome State Fault Refusal :=
  .next (s.setResult (s.pixelOperand.rgb565.setWidth 32)).complete

/-- CVT_BGR565 (R136). -/
def execCvtBgr565 (s : State) : Host.Outcome State Fault Refusal :=
  .next (s.setResult (s.pixelOperand.bgr565.setWidth 32)).complete

/-- CVT_RGB444 (R138). -/
def execCvtRgb444 (s : State) : Host.Outcome State Fault Refusal :=
  .next (s.setResult (s.pixelOperand.rgb444.setWidth 32)).complete

/-- CVT_1BIT (R140). -/
def execCvt1bit (s : State) : Host.Outcome State Fault Refusal :=
  .next (s.setResult (if bit1 s.pixelOperand.a then 1#32 else 0#32)).complete

/-- CVT_IDX8 (R142). -/
def execCvtIdx8 (s : State) : Host.Outcome State Fault Refusal :=
  .next (s.applyAssigned (s.pixelOperand.idx8 s.pt s.palette)).complete

end Sys2Proof.Machine
end

