-- ==== Sys2Proof/Machine/Raster.lean ====
section
/-! DEFINITION. The raster encoder (`43_raster_encoder.md`): the planes of `20_memory.md` R71-R75 and RASTER_ENCODE. Each
plane is written as the list of its bytes in address order; the regions of the operation do not overlap (R69), so the order
of the byte writes cannot be seen (log 15). `px k` is the pixel at scan index k. -/

namespace Sys2Proof.Machine

open Sys2Proof

/-- Step 2 of R181 along the scan: the indices of the pixels, the palette after them, and whether any assignment
overflowed. -/
def idx8Scan (pt : Bool) : List Pixel → Palette → List Byte × Palette × Bool
  | [], p => ([], p, false)
  | x :: xs, p =>
    let first := x.idx8 pt p
    let rest := idx8Scan pt xs first.palette
    (first.index :: rest.1, rest.2.1, first.overflow || rest.2.2)

/-- Eight 1-bit values as a byte, the first in the MSB (R72). -/
def packMsbFirst (f : Nat → Bool) : Byte :=
  BitVec.ofBool (f 0) ++ BitVec.ofBool (f 1) ++ BitVec.ofBool (f 2) ++ BitVec.ofBool (f 3)
    ++ BitVec.ofBool (f 4) ++ BitVec.ofBool (f 5) ++ BitVec.ofBool (f 6) ++ BitVec.ofBool (f 7)

/-- The BIT1 plane (R72): H rows of BW bytes; byte i is byte i mod BW of scan row i / BW; pad bits are 0. -/
def bit1Plane (w h bw : Nat) (px : Nat → Pixel) : List Byte :=
  (List.range (h * bw)).map fun i =>
    packMsbFirst fun bb =>
      let x := 8 * (i % bw) + bb
      decide (x < w) && bit1 (px (i / bw * w + x)).a

/-- The C16 plane (R73): N words in scan order, little-endian, or big-endian under BSWAP16 (R63). -/
def c16Plane (n : Nat) (px : Nat → Pixel) (pt bswap : Bool) (fmt : ColorFormat) : List Byte :=
  (List.range n).flatMap fun k =>
    let v := (px k).c16 pt fmt
    if bswap then bigEndian v else littleEndian v

/-- The ALPHA plane (R74): the raw alphas in scan order. -/
def alphaPlane (n : Nat) (px : Nat → Pixel) : List Byte := (List.range n).map fun k => (px k).a

/-- The three bytes of a pair of RGB444 values (R75). -/
def packPair (v0 v1 : BitVec 12) : List Byte :=
  [v0.extractLsb' 0 8, v1.extractLsb' 0 4 ++ v0.extractLsb' 8 4, v1.extractLsb' 4 8]

/-- The PK444 plane (R75): pair m holds scan indices 2m and 2m+1, with v1 = 0 where 2m+1 = N. -/
def pk444Plane (n : Nat) (px : Nat → Pixel) : List Byte :=
  (List.range ((n + 1) / 2)).flatMap fun m =>
    packPair (px (2 * m)).rgb444 (if 2 * m + 1 < n then (px (2 * m + 1)).rgb444 else 0#12)

/-- A plane is written only when it is enabled (R181). -/
def Memory.storePlane (enabled : Bool) (base : Word) (bs : List Byte) (m : Memory) : Memory :=
  if enabled then m.store base.toNat bs else m

/-- The scan of RASTER_ENCODE over the source raster from a reset palette (R182). -/
def State.scan (s : State) : List Byte × Palette × Bool :=
  idx8Scan s.pt ((List.range s.n).map s.scanPixel) Palette.reset

/-- BMEM after the pass: the enabled planes (R181). FMT16 = 3 writes no C16 plane; with EN_C16 = 1 it raises BAD_FMT before
the body (R143). -/
def State.encodePlanes (s : State) : Memory :=
  let e := s.cfg.encCfg
  let c16 := match ColorFormat.ofBits e.fmt16 with
    | some fmt => c16Plane s.n s.scanPixel s.pt e.bswap16 fmt
    | none => []
  s.mem
    |>.storePlane e.enIdx8 s.cfg.idx8Base s.scan.1
    |>.storePlane e.enBit1 s.cfg.bit1Base (bit1Plane s.w s.h s.bw s.scanPixel)
    |>.storePlane e.enC16 s.cfg.c16Base c16
    |>.storePlane e.enAlpha s.cfg.alphaBase (alphaPlane s.n s.scanPixel)
    |>.storePlane e.enPk444 s.cfg.pk444Base (pk444Plane s.n s.scanPixel)

/-- The body of RASTER_ENCODE (R182), after its checks. -/
def rasterEncodeBody (s : State) : State :=
  let t := s.palReset
  ({ t with mem := s.encodePlanes, palette := s.scan.2.1, status := t.status.noteOverflow s.scan.2.2 }.setOutLen s.n).complete

/-- RASTER_ENCODE (R182). -/
def execRasterEncode (s : State) : Host.Outcome State Fault Refusal :=
  runChecked ([(s.badFmt, .badFmt), (s.badGeometry, .badGeometry)] ++ memoryChecks (regions .rasterEncode s) s)
    rasterEncodeBody s

end Sys2Proof.Machine
end

