-- ==== Sys2Proof/Machine/Rle.lean ====
section
/-! DEFINITION. The RLE codec (`45_rle_codec.md`), one algorithm for symbols of `w` bits (R221), and its four operations. -/

namespace Sys2Proof.Machine

open Sys2Proof

/-! ## Records (R220) -/

/-- The header of a literal record of `n` symbols: top bit 0, count field n - 1. -/
def literalHeader (w n : Nat) : BitVec w := BitVec.ofNat w (n - 1)

/-- The header of a repeat record of `n` symbols: FLAG | (n - RLE_MIN_REPEAT). -/
def repeatHeader (w n : Nat) : BitVec w := BitVec.ofNat w (2 ^ (w - 1)) ||| BitVec.ofNat w (n - Config.rleMinRepeat)

/-- h & FLAG is not 0: a repeat record. -/
def isRepeatHeader {w : Nat} (h : BitVec w) : Bool := h.msb

/-- h & CMASK, the count field. -/
def countField {w : Nat} (h : BitVec w) : Nat := h.toNat % 2 ^ (w - 1)

/-! ## Encoder (R222, R223) -/

/-- How many symbols at the front equal `v`, counting at most `cap`. -/
def leadingEqual {w : Nat} (v : BitVec w) : Nat → List (BitVec w) → Nat
  | 0, _ => 0
  | _ + 1, [] => 0
  | cap + 1, x :: xs => if x = v then leadingEqual v cap xs + 1 else 0

/-- `runlen(in, i)` at the front of what remains (R222), at most REP_MAX. -/
def runLength {w : Nat} : List (BitVec w) → Nat
  | [] => 0
  | x :: xs => leadingEqual x (Config.rleRepMax w) (x :: xs)

/-- The length j - i of the literal loop of R223: symbols from the front until LIT_MAX or a run of 3. -/
def literalLength {w : Nat} : Nat → List (BitVec w) → Nat
  | 0, _ => 0
  | _ + 1, [] => 0
  | room + 1, x :: xs => if runLength (x :: xs) < Config.rleMinRepeat then literalLength room xs + 1 else 0

/-- The encoder's loop (R223), `fuel` bounding its records; each record takes at least one symbol. -/
def rleEncodeLoop {w : Nat} : Nat → List (BitVec w) → List (BitVec w)
  | 0, _ => []
  | _ + 1, [] => []
  | fuel + 1, x :: xs =>
    let r := runLength (x :: xs)
    if Config.rleMinRepeat ≤ r then
      repeatHeader w r :: x :: rleEncodeLoop fuel ((x :: xs).drop r)
    else
      let n := literalLength (Config.rleLitMax w) (x :: xs)
      literalHeader w n :: ((x :: xs).take n ++ rleEncodeLoop fuel ((x :: xs).drop n))

/-- `enc_w` (R223). -/
def rleEncode {w : Nat} (inp : List (BitVec w)) : List (BitVec w) := rleEncodeLoop inp.length inp

/-! ## Decoder (R226) -/

/-- The decoder's loop (R226): `used` symbols are out already, `cap` is the capacity in symbols; `fuel` bounds the records,
each of which takes at least one symbol, so it never runs out first. -/
def rleDecodeLoop {w : Nat} (cap : Nat) : Nat → Nat → List (BitVec w) → Except ErrorCode (List (BitVec w))
  | _, _, [] => .ok []
  | 0, _, _ :: _ => .error .rleFormat
  | fuel + 1, used, h :: rest =>
    if isRepeatHeader h then
      let n := countField h + Config.rleMinRepeat
      match rest with
      | [] => .error .rleFormat
      | v :: rest' =>
        if cap < used + n then .error .capacity
        else (rleDecodeLoop cap fuel (used + n) rest').map (List.replicate n v ++ ·)
    else
      let n := countField h + 1
      if rest.length < n then .error .rleFormat
      else if cap < used + n then .error .capacity
      else (rleDecodeLoop cap fuel (used + n) (rest.drop n)).map (rest.take n ++ ·)

/-- `dec_w(in, cap)` (R226). -/
def rleDecode {w : Nat} (cap : Nat) (inp : List (BitVec w)) : Except ErrorCode (List (BitVec w)) :=
  rleDecodeLoop cap inp.length 0 inp

/-! ## The operations -/

/-- DST_BASE as a byte address. -/
def State.dst (s : State) : Nat := s.cfg.dstBase.toNat

/-- DST_CAP, in bytes. -/
def State.cap (s : State) : Nat := s.cfg.dstCap.toNat

/-- The source of the 8-bit operations: SRC_LEN bytes. -/
def State.rleSource8 (s : State) : List Byte := s.bytesAt s.cfg.srcBase.toNat s.cfg.srcLen.toNat

/-- The source of the 16-bit operations: SRC_LEN words. -/
def State.rleSource16 (s : State) : List Half := s.halvesAt s.cfg.srcBase.toNat s.cfg.srcLen.toNat

/-- An error of an RLE body: the destination region holds any value, everything else as `raise Error(code)` leaves it
(`40_command_control.md` R118, `60_exceptions.md` R304). -/
def State.rleFail (e : ErrorCode) (s : State) : State :=
  (s.havoc { base := s.dst, len := s.cap }).raiseError e

/-- The successful end of an 8-bit operation: the symbols at DST_BASE, their count in OUT_LEN. -/
def State.rleFinish8 (out : List Byte) (s : State) : State :=
  ((s.storeBytes s.dst out).setOutLen out.length).complete

/-- The successful end of a 16-bit operation: the words, little-endian, at DST_BASE, their count in OUT_LEN. -/
def State.rleFinish16 (out : List Half) (s : State) : State :=
  ((s.storeBytes s.dst (out.flatMap littleEndian)).setOutLen out.length).complete

/-- The body of RLE8_ENC (R224). -/
def rle8EncBody (s : State) : State :=
  let out := rleEncode s.rleSource8
  if s.cap < out.length then s.rleFail .capacity else s.rleFinish8 out

/-- RLE8_ENC (R224). -/
def execRle8Enc (s : State) : Host.Outcome State Fault Refusal :=
  runChecked (memoryChecks (regions .rle8Enc s) s) rle8EncBody s

/-- The body of RLE16_ENC (R225). -/
def rle16EncBody (s : State) : State :=
  let out := rleEncode s.rleSource16
  if s.cap < 2 * out.length then s.rleFail .capacity else s.rleFinish16 out

/-- RLE16_ENC (R225). -/
def execRle16Enc (s : State) : Host.Outcome State Fault Refusal :=
  runChecked (memoryChecks (regions .rle16Enc s) s) rle16EncBody s

/-- The body of RLE8_DEC (R227). -/
def rle8DecBody (s : State) : State :=
  match rleDecode s.cap s.rleSource8 with
  | .ok out => s.rleFinish8 out
  | .error e => s.rleFail e

/-- RLE8_DEC (R227). -/
def execRle8Dec (s : State) : Host.Outcome State Fault Refusal :=
  runChecked (memoryChecks (regions .rle8Dec s) s) rle8DecBody s

/-- The body of RLE16_DEC (R228): the capacity is DST_CAP / 2 words, rounded down. -/
def rle16DecBody (s : State) : State :=
  match rleDecode (s.cap / 2) s.rleSource16 with
  | .ok out => s.rleFinish16 out
  | .error e => s.rleFail e

/-- RLE16_DEC (R228). -/
def execRle16Dec (s : State) : Host.Outcome State Fault Refusal :=
  runChecked (memoryChecks (regions .rle16Dec s) s) rle16DecBody s

end Sys2Proof.Machine
end

