-- ==== Sys2Proof/Machine/Tile.lean ====
section
/-! DEFINITION. The tile rearranger (`44_tile_rearranger.md`): TILE_8, TILE_16, TILE_1BIT and the trim extents. -/

namespace Sys2Proof.Machine

open Sys2Proof

/-- The source position of output position `o` in rows of `rowLen` elements cut into tiles of `th` rows of `tw` elements.
R201 counts o = ((tr*TW + tc)*T + i)*T + j; read back, o gives tr, tc, i, j, and the source is at
((tr*T + i) * W) + (tc*T + j). TILE_1BIT uses the same map with BW and TB in the column terms (R205, R207). -/
def tileSource (rowLen th tw o : Nat) : Nat :=
  let tile := o / (th * tw)
  let i := o % (th * tw) / tw
  let j := o % tw
  let across := rowLen / tw
  (tile / across * th + i) * rowLen + (tile % across * tw + j)

/-- The output position of source position `s` (R208), in the same terms. -/
def tileDest (rowLen th tw s : Nat) : Nat :=
  let row := s / rowLen
  let col := s % rowLen
  ((row / th * (rowLen / tw) + col / tw) * th + row % th) * tw + col % tw

/-- The checks of a tile operation, in the order of `40_command_control.md` R114. -/
def tileChecks (i : Instr) (badTile : Bool) (s : State) : List (Bool × ErrorCode) :=
  [(s.badGeometry, .badGeometry), (badTile, .badTile)] ++ memoryChecks (regions i s) s

/-- The bytes TILE_8 writes (R202). -/
def State.tiledBytes (s : State) : List Byte :=
  (List.range s.n).map fun o => s.byteAt (s.cfg.srcBase.toNat + tileSource s.w s.t s.t o)

/-- The words TILE_16 writes (R203). -/
def State.tiledHalves (s : State) : List Half :=
  (List.range s.n).map fun o => s.halfAt (s.cfg.srcBase.toNat + 2 * tileSource s.w s.t s.t o)

/-- The body of TILE_8, after its checks. -/
def tile8Body (s : State) : State :=
  ((s.storeBytes s.cfg.dstBase.toNat s.tiledBytes).setOutLen s.n).complete

/-- TILE_8 (R202). -/
def execTile8 (s : State) : Host.Outcome State Fault Refusal :=
  runChecked (tileChecks .tile8 s.badTile s) tile8Body s

/-- The body of TILE_16, after its checks. -/
def tile16Body (s : State) : State :=
  ((s.storeBytes s.cfg.dstBase.toNat (s.tiledHalves.flatMap littleEndian)).setOutLen s.n).complete

/-- TILE_16 (R203). -/
def execTile16 (s : State) : Host.Outcome State Fault Refusal :=
  runChecked (tileChecks .tile16 s.badTile s) tile16Body s

/-- The bytes TILE_1BIT writes to DST (R205): rows of W/8 bytes, tiles of T rows of T/8 bytes. -/
def State.tiled1bit (s : State) : List Byte :=
  (List.range (s.h * (s.w / 8))).map fun o => s.byteAt (s.cfg.srcBase.toNat + tileSource (s.w / 8) s.t (s.t / 8) o)

/-- The pixel at row i, column c of tile t of the 1-bit source is set: bit 7 - (c mod 8) of its byte, the MSB first
(R205, R206). -/
def State.litAt (s : State) (t i c : Nat) : Bool :=
  let tr := t / (s.w / s.t)
  let tc := t % (s.w / s.t)
  (s.byteAt (s.cfg.srcBase.toNat + ((tr * s.t + i) * (s.w / 8) + (tc * (s.t / 8) + c / 8)))).getLsbD (7 - c % 8)

/-- The largest k < n with p k, or 0 where there is none (R206). -/
def lastWhere (p : Nat → Bool) : Nat → Nat
  | 0 => 0
  | n + 1 => if p n then n else lastWhere p n

/-- `last_pixel_x` of tile t: the largest column with a set pixel in any row (R206). -/
def State.lastPixelX (s : State) (t : Nat) : Nat :=
  lastWhere (fun c => (List.range s.t).any fun i => s.litAt t i c) s.t

/-- `last_pixel_y` of tile t: the largest row with any set pixel (R206). -/
def State.lastPixelY (s : State) (t : Nat) : Nat :=
  lastWhere (fun i => (List.range s.t).any fun c => s.litAt t i c) s.t

/-- A trim map: one byte per tile in tile-major order (`20_memory.md` R77). -/
def State.trimMap (s : State) (extent : Nat → Nat) : List Byte :=
  (List.range s.nt).map fun t => BitVec.ofNat 8 (extent t)

/-- The body of TILE_1BIT (R205), after its checks. -/
def tile1bitBody (s : State) : State :=
  let m := ((s.mem.store s.cfg.dstBase.toNat s.tiled1bit).store s.cfg.mapxBase.toNat (s.trimMap s.lastPixelX)).store
    s.cfg.mapyBase.toNat (s.trimMap s.lastPixelY)
  ({ s with mem := m }.setOutLen (s.h * (s.w / 8))).complete

/-- TILE_1BIT (R205). -/
def execTile1bit (s : State) : Host.Outcome State Fault Refusal :=
  runChecked (tileChecks .tile1bit s.badTile1bit s) tile1bitBody s

end Sys2Proof.Machine
end

