-- ==== Sys2Proof/Machine/Dispatch.lean ====
section
/-! DEFINITION. The block's execution of a decoded operation: one arm per constructor. -/

namespace Sys2Proof.Machine

/-- The execution of an operation (`40_command_control.md` R113, R114 from check 2 on). -/
def exec (i : Instr) (s : State) : Host.Outcome State Fault Refusal :=
  match i with
  | .nop => Sys2Proof.Machine.execNop s
  | .cvtRgb555 => Sys2Proof.Machine.execCvtRgb555 s
  | .cvtRgb565 => Sys2Proof.Machine.execCvtRgb565 s
  | .cvtBgr565 => Sys2Proof.Machine.execCvtBgr565 s
  | .cvtRgb444 => Sys2Proof.Machine.execCvtRgb444 s
  | .cvt1bit => Sys2Proof.Machine.execCvt1bit s
  | .cvtIdx8 => Sys2Proof.Machine.execCvtIdx8 s
  | .palReset => Sys2Proof.Machine.execPalReset s
  | .palAssign => Sys2Proof.Machine.execPalAssign s
  | .palStore => Sys2Proof.Machine.execPalStore s
  | .rasterEncode => Sys2Proof.Machine.execRasterEncode s
  | .tile8 => Sys2Proof.Machine.execTile8 s
  | .tile16 => Sys2Proof.Machine.execTile16 s
  | .tile1bit => Sys2Proof.Machine.execTile1bit s
  | .rle8Enc => Sys2Proof.Machine.execRle8Enc s
  | .rle16Enc => Sys2Proof.Machine.execRle16Enc s
  | .rle8Dec => Sys2Proof.Machine.execRle8Dec s
  | .rle16Dec => Sys2Proof.Machine.execRle16Dec s

end Sys2Proof.Machine
end

