-- ==== Sys2Proof/Machine/HostBus.lean ====
section
/-! DEFINITION. The register window and BMEM as the host reaches them (`10_state.md` R22-R31, `70_reset_and_hazards.md`
R343-R347), and the reset input (R340, R349). -/

namespace Sys2Proof.Machine

open Sys2Proof

/-! ## The register map -/

/-- The offset of a register in the window (`10_state.md` R22). -/
def RegName.offset : RegName → Fin Config.windowBytes
  | .cmd => 0x000
  | .status => 0x004
  | .encCfg => 0x008
  | .width => 0x00C
  | .height => 0x010
  | .tile => 0x014
  | .srcBase => 0x018
  | .srcLen => 0x01C
  | .dstBase => 0x020
  | .dstCap => 0x024
  | .idx8Base => 0x028
  | .bit1Base => 0x02C
  | .c16Base => 0x030
  | .alphaBase => 0x034
  | .pk444Base => 0x038
  | .mapxBase => 0x03C
  | .mapyBase => 0x040
  | .arg0 => 0x044
  | .result => 0x048
  | .outLen => 0x04C
  | .palNext => 0x050
  | .palOvfCnt => 0x054
  | .palEntry k => ⟨0x400 + 4 * k.val, by have := k.isLt; simp only [Config.windowBytes]; omega⟩

/-- The registers below the palette entries, in the order of R22. -/
def namedRegisters : List RegName :=
  [.cmd, .status, .encCfg, .width, .height, .tile, .srcBase, .srcLen, .dstBase, .dstCap, .idx8Base, .bit1Base, .c16Base,
    .alphaBase, .pk444Base, .mapxBase, .mapyBase, .arg0, .result, .outLen, .palNext, .palOvfCnt]

/-- The register at an offset that is a multiple of 4; none where the offset is unmapped (R22, R24). -/
def RegName.atOffset (off : Fin Config.windowBytes) : Option RegName :=
  if 0x400 ≤ off.val then some (.palEntry (Fin.ofNat 256 ((off.val - 0x400) / 4)))
  else namedRegisters.find? fun r => r.offset == off

/-- "32-bit accesses at offsets that are multiples of 4" (R23). -/
def accessOk (off : Fin Config.windowBytes) (width : AccessWidth) : Bool := width == .bits32 && off.val % 4 == 0

/-- The value a register holds, as a 32-bit read returns it. -/
def RegName.read (r : RegName) (s : State) : Word :=
  match r with
  | .cmd => s.cmd
  | .status => s.status.toWord
  | .encCfg => s.cfg.encCfg.toWord
  | .width => s.cfg.width.setWidth 32
  | .height => s.cfg.height.setWidth 32
  | .tile => s.cfg.tile.setWidth 32
  | .srcBase => s.cfg.srcBase
  | .srcLen => s.cfg.srcLen
  | .dstBase => s.cfg.dstBase
  | .dstCap => s.cfg.dstCap
  | .idx8Base => s.cfg.idx8Base
  | .bit1Base => s.cfg.bit1Base
  | .c16Base => s.cfg.c16Base
  | .alphaBase => s.cfg.alphaBase
  | .pk444Base => s.cfg.pk444Base
  | .mapxBase => s.cfg.mapxBase
  | .mapyBase => s.cfg.mapyBase
  | .arg0 => s.cfg.arg0
  | .result => s.result
  | .outLen => s.outLen
  | .palNext => s.palette.next.setWidth 32
  | .palOvfCnt => s.palette.ovfCnt
  | .palEntry k => s.palette.entry[k].setWidth 32

/-- The state with other configured registers. -/
def State.withCfg (s : State) (c : ConfigRegs) : State := { s with cfg := c }

/-- A 32-bit host write to a register while BUSY = 0. CMD issues a command (`40_command_control.md` R110), STATUS is W1C
(R26), reserved bits are ignored, and a write to an RO register has no effect (R24). -/
def RegName.write (r : RegName) (v : Word) (s : State) : State :=
  match r with
  | .cmd => s.accept v
  | .status => s.writeStatus v
  | .encCfg => s.withCfg { s.cfg with encCfg := EncCfg.ofWord v }
  | .width => s.withCfg { s.cfg with width := v.extractLsb' 0 16 }
  | .height => s.withCfg { s.cfg with height := v.extractLsb' 0 16 }
  | .tile => s.withCfg { s.cfg with tile := v.extractLsb' 0 8 }
  | .srcBase => s.withCfg { s.cfg with srcBase := v }
  | .srcLen => s.withCfg { s.cfg with srcLen := v }
  | .dstBase => s.withCfg { s.cfg with dstBase := v }
  | .dstCap => s.withCfg { s.cfg with dstCap := v }
  | .idx8Base => s.withCfg { s.cfg with idx8Base := v }
  | .bit1Base => s.withCfg { s.cfg with bit1Base := v }
  | .c16Base => s.withCfg { s.cfg with c16Base := v }
  | .alphaBase => s.withCfg { s.cfg with alphaBase := v }
  | .pk444Base => s.withCfg { s.cfg with pk444Base := v }
  | .mapxBase => s.withCfg { s.cfg with mapxBase := v }
  | .mapyBase => s.withCfg { s.cfg with mapyBase := v }
  | .arg0 => s.withCfg { s.cfg with arg0 := v }
  | .result | .outLen | .palNext | .palOvfCnt | .palEntry _ => s

/-- The registers a host read of which "returns any value" while BUSY = 1 (`70_reset_and_hazards.md` R346). -/
def RegName.freeWhileBusy : RegName → Bool
  | .result | .outLen | .palNext | .palOvfCnt | .palEntry _ => true
  | .cmd | .status | .encCfg | .width | .height | .tile => false
  | .srcBase | .srcLen | .dstBase | .dstCap => false
  | .idx8Base | .bit1Base | .c16Base | .alphaBase | .pk444Base | .mapxBase | .mapyBase | .arg0 => false

/-! ## Host accesses -/

/-- The value a host read returns, on the bus (log 10). -/
def State.returns (s : State) (v : Word) : State := { s with busRead := v }

/-- A host read returns a free value (R346; log 6). -/
def State.returnsFree (s : State) : State := { s with busRead := Config.freeWord s.draws, draws := s.draws + 1 }

/-- A host write to the register window: R23, R24, R110, R112, R343, R345, R347. -/
def hostWriteReg (off : Fin Config.windowBytes) (width : AccessWidth) (v : Word) (s : State) : State :=
  if !accessOk off width then s.refuse
  else
    match RegName.atOffset off with
    | none => s
    | some r =>
      if s.status.busy then (if r = .cmd then s.dropCommand else s.refuse)
      else r.write v s

/-- A host read of the register window: R23, R24, R346. -/
def hostReadReg (off : Fin Config.windowBytes) (width : AccessWidth) (s : State) : State :=
  if !accessOk off width then s.refuse
  else
    match RegName.atOffset off with
    | none => s.returns 0#32
    | some r => if s.status.busy && r.freeWhileBusy then s.returnsFree else s.returns (r.read s)

/-- The regions of the running operation; none when no command runs or its word is illegal (R116, R344). -/
def runningRegions (s : State) : List Region :=
  if s.status.busy then
    match decode s.cmd with
    | .ok i => regions i s
    | .error _ => []
  else []

/-- The destination regions of the running operation (R116, R349). -/
def runningDestRegions (s : State) : List Region :=
  if s.status.busy then
    match decode s.cmd with
    | .ok i => destRegions i s
    | .error _ => []
  else []

/-- The address is a byte of a region of the running operation (R344). -/
def touchesRunning (a : Nat) (s : State) : Bool := (runningRegions s).any fun r => r.contains a

/-- A BMEM byte write from outside the block: R60, R344, R345. -/
def hostWriteMem (a : Nat) (b : Byte) (s : State) : Host.Outcome State Fault Refusal :=
  if s.memSize ≤ a then .fault (.noSuchAddress a)
  else if touchesRunning a s then .next s.refuse
  else .next (s.storeBytes a [b])

/-- A BMEM byte read from outside the block: R60, R344, R345. -/
def hostReadMem (a : Nat) (s : State) : Host.Outcome State Fault Refusal :=
  if s.memSize ≤ a then .fault (.noSuchAddress a)
  else if touchesRunning a s then .next s.refuse
  else .next (s.returns ((s.byteAt a).setWidth 32))

/-- One read of STATUS by the `wait` loop; the loop goes on while BUSY = 1 (`30_encoding.md` R98). -/
def hostWait (s : State) : State :=
  let t := s.returns s.status.toWord
  if s.status.busy then { t with program := .wait :: t.program } else t

/-- The reset input (R340, R341, R349): registers and palette take their reset values, BMEM is unchanged except that the
destination regions of an operation in flight hold any value. The refusal mark, the parameter and the model's own fields
stay (log 8). -/
def hostReset (s : State) : State :=
  let t := (runningDestRegions s).foldl (fun u r => u.havoc r) s
  { t with
    cmd := 0#32, status := Status.reset, cfg := ConfigRegs.reset, result := 0#32, outLen := 0#32
    palette := Palette.reset }

/-- One action from outside the block. -/
def hostAct (act : HostAction) (s : State) : Host.Outcome State Fault Refusal :=
  match act with
  | .writeReg off width v => .next (hostWriteReg off width v s)
  | .readReg off width => .next (hostReadReg off width s)
  | .writeMem a b => hostWriteMem a b s
  | .readMem a => hostReadMem a s
  | .wait => .next (hostWait s)
  | .reset => .next (hostReset s)

end Sys2Proof.Machine
end

