-- ==== Sys2Proof/Machine/HostProgram.lean ====
section
/-! DEFINITION. The host's assembly lines and their bus transactions (`30_encoding.md` R97-R99). -/

namespace Sys2Proof.Machine

open Sys2Proof

/-- The STATUS bits a host clears by writing 1 (`10_state.md` R26). -/
inductive StatusFlag where
  | done
  | err
  | palOvf
  | cmdOvr
  deriving DecidableEq, Repr

/-- One line of a host program (R97) or one pseudo-instruction (R98). -/
inductive HostLine where
  /-- `wr REG, v`. -/
  | wr (r : RegName) (v : Word)
  /-- `rd REG`. -/
  | rd (r : RegName)
  /-- `cmd MNEMONIC`. -/
  | cmd (i : Instr)
  /-- `mw a, b0 b1 ...`. -/
  | mw (a : Nat) (bytes : List Byte)
  /-- `mr a, n`. -/
  | mr (a n : Nat)
  /-- `w1c F`. -/
  | w1c (f : StatusFlag)
  /-- `wait`. -/
  | wait
  /-- `run MNEMONIC`. -/
  | run (i : Instr)
  /-- `wr16 a, v`. -/
  | wr16 (a : Nat) (v : Half)
  /-- `check`. -/
  | check
  deriving DecidableEq, Repr

/-- The bit of STATUS a flag stands at (`10_state.md` R26). -/
def StatusFlag.bit : StatusFlag → Nat
  | .done => 1
  | .err => 2
  | .palOvf => 3
  | .cmdOvr => 4

/-- A 32-bit register write as a bus transaction. -/
def busWrite (r : RegName) (v : Word) : HostAction := .writeReg r.offset .bits32 v

/-- A 32-bit register read as a bus transaction. -/
def busRead (r : RegName) : HostAction := .readReg r.offset .bits32

/-- BMEM writes of consecutive bytes. -/
def memWrites : Nat → List Byte → List HostAction
  | _, [] => []
  | a, b :: bs => .writeMem a b :: memWrites (a + 1) bs

/-- The bus transactions of a line (R97, R98, R99). -/
def HostLine.assemble : HostLine → List HostAction
  | .wr r v => [busWrite r v]
  | .rd r => [busRead r]
  | .cmd i => [busWrite .cmd (encode i)]
  | .mw a bytes => memWrites a bytes
  | .mr a n => (List.range n).map fun q => .readMem (a + q)
  | .w1c f => [busWrite .status (1#32 <<< f.bit)]
  | .wait => [.wait]
  | .run i => [busWrite .cmd (encode i), .wait]
  | .wr16 a v => memWrites a (littleEndian v)
  | .check => [busRead .status]

/-- A host program as its bus transactions (R99). -/
def assembleProgram (lines : List HostLine) : List HostAction := lines.flatMap HostLine.assemble

/-- "the program is in error if STATUS.ERR = 1" (R98, `check`): the verdict on the value the STATUS read returned. -/
def checkFails (s : State) : Bool := s.busRead.getLsbD 2

end Sys2Proof.Machine
end

