-- ==== Sys2Proof/Machine/Agents.lean ====
section
/-! DEFINITION. The steps of the two agents (`00_scope.md` R14): which agent moves, the block's step, the host's step, and
how a command word reaches the block. -/

namespace Sys2Proof.Machine

open Sys2Proof

/-- The agent that moves next: the head of the schedule; when the schedule is used up, the block if it has a step and the
host otherwise (`60_exceptions.md` R317; log 1). -/
def State.mover (s : State) : Agent :=
  match s.schedule with
  | a :: _ => a
  | [] => if s.status.busy then .block else .host

/-- The state whose schedule has moved on by one. -/
def State.scheduleOn (s : State) : State := { s with schedule := s.schedule.tail }

/-- The block's step (`40_command_control.md` R113): none while BUSY = 0, which leaves the state as it is (log 2); else it
decodes CMD (check 1 of R114) and executes. -/
def blockStep (s : State) : Host.Outcome State Fault Refusal :=
  if !s.status.busy then .next s
  else
    match decode s.cmd with
    | .ok i => exec i s
    | .error _ => .next (s.raiseError .illegalCmd)

/-- The host's step: its next action; nothing where it has none left (log 2). -/
def hostStep (s : State) : Host.Outcome State Fault Refusal :=
  match s.program with
  | [] => .next s
  | act :: rest => hostAct act { s with program := rest }

/-- One step of the agent that moves. -/
def agentStep (s : State) : Host.Outcome State Fault Refusal :=
  match s.mover with
  | .block => blockStep s.scheduleOn
  | .host => hostStep s.scheduleOn

/-- A command word placed where the block's next step takes it: accepted as by R110, with the block to move next (log 3).
`nbits` bits of `w`, the bits above them 0. -/
def State.placeCommand (s : State) (nbits w : Nat) : State :=
  { s.accept (BitVec.ofNat 32 (w % 2 ^ nbits)) with schedule := .block :: s.schedule }

end Sys2Proof.Machine
end

