-- ==== Sys2Proof/Machine/Step.lean ====
section
/-! DEFINITION. One step of the machine, and where it takes its next instruction from. -/

namespace Sys2Proof.Machine

/-- One step: the agent the schedule names moves (log 1). -/
def step (s : State) : Host.Outcome State Fault Refusal := agentStep s

/-- The state whose very next step executes the command word `w` (log 3). -/
def State.withFetchWord (s : State) (nbits w : Nat) : State := s.placeCommand nbits w

end Sys2Proof.Machine
end

