-- ==== Sys2Proof/Safety.lean ====
section
/-! DEFINITION. What the claims are about: the invariant of the machine, and the ends of a host run (`60_exceptions.md`
R316). -/

namespace Sys2Proof.Machine

open Sys2Proof

/-- The palette's invariant: PAL_NEXT in 2 .. 256 (`10_state.md` R35) and (b) to (e) of R36, with bit 15 of every entry 0
(R34). -/
structure Palette.Inv (p : Palette) : Prop where
  nextLow : 2 ≤ p.next.toNat
  nextHigh : p.next.toNat ≤ 256
  bit15 : ∀ k, (p.get k).getLsbD 15 = false
  entry0 : p.get 0 = 0#16
  entry1 : p.get 1 = 0#16
  bound : ∀ k, 2 ≤ k → k < p.next.toNat → p.get k ≠ 0#16
  distinct : ∀ j k, 2 ≤ j → j < k → k < p.next.toNat → p.get j ≠ p.get k
  unbound : ∀ k, p.next.toNat ≤ k → p.get k = 0#16

/-- STATUS as a run leaves it: DONE and ERR are clear while BUSY, never both set, and ERRCODE is 0 exactly when ERR = 0, else
a code of `60_exceptions.md` R300. -/
structure Status.Inv (t : Status) : Prop where
  busyClear : t.busy = true → t.done = false ∧ t.err = false
  notBoth : ¬(t.done = true ∧ t.err = true)
  noCode : t.err = false → t.errCode = 0#4
  someCode : t.err = true → 1 ≤ t.errCode.toNat ∧ t.errCode.toNat ≤ 8

/-- The invariant every step keeps: BMEM in canonical form and inside MEM_SIZE, 1 ≤ MEM_SIZE ≤ 2^32 (`00_scope.md` R7), the
palette's and STATUS's invariants, and the overflow warning not lost from the counter (`10_state.md` R37). -/
structure Inv (s : State) : Prop where
  memWf : s.mem.wf = true
  memInside : ∀ c ∈ s.mem, c.1 < s.memSize
  sizeLow : 1 ≤ s.memSize
  sizeHigh : s.memSize ≤ 2 ^ 32
  palette : s.palette.Inv
  status : s.status.Inv

/-- The block as the host's interface takes it, for any MEM_SIZE (`00_scope.md` R7): `Sys2Proof.core` is the one with
0x10000 bytes (log 4). -/
def coreOf (memSize : Nat) : Host.Core := { Sys2Proof.core with reset := State.resetOf memSize }

/-- The run is over: "the host program has executed its last action and STATUS.BUSY = 0" (R316). -/
def State.runOver (s : State) : Bool := s.program.isEmpty && !s.status.busy

/-- The run is refused: the refusal mark is set (R316). -/
def State.refused (s : State) : Bool := s.refusalMark

/-- A step from `s` to `t` ended an operation with ERR = 1. -/
def endsInError (s t : State) : Bool := s.status.busy && !t.status.busy && t.status.err

/-- The run of `k` steps from `s` is in error: some operation of it ended with ERR = 1 (R316). -/
def runInError : Nat → State → Bool
  | 0, _ => false
  | k + 1, s =>
    match step s with
    | .next t => endsInError s t || runInError k t
    | .fault _ => false
    | .refused _ => false

/-- The result of a run: "the final register file, palette and BMEM" (R316); a register is read as the host reads it. -/
def State.sameResult (s t : State) : Prop :=
  (∀ r : RegName, r.read s = r.read t) ∧ s.palette = t.palette ∧ ∀ a, a < s.memSize → s.byteAt a = t.byteAt a

end Sys2Proof.Machine
end

