-- ==== Sys2Proof/Certificates/Slice0/Obligations.lean ====
section
/-! DEFINITION. The statements for the provers, from the numbered rules of `spec/`. Addresses, layouts and conditions are
written out from the spec's own formulas over the registers, not taken from the definitions the meanings use. -/

namespace Sys2Proof.Claims

open Sys2Proof Sys2Proof.Machine

/-! ## Words the statements use -/

/-- STATUS after `complete` (`40_command_control.md` R117). -/
abbrev done (t : Status) : Status := { t with busy := false, done := true }

/-- STATUS after `raise Error(code)` (R118, `60_exceptions.md` R304). -/
abbrev failed (code : BitVec 4) (t : Status) : Status :=
  { t with busy := false, done := false, err := true, errCode := code }

/-- The operation ended with the error `code` and wrote STATUS alone (R118). -/
abbrev raises (i : Instr) (s : State) (code : BitVec 4) : Prop :=
  exec i s = .next { s with status := failed code s.status }

/-- The block has a step and it moves next (R113). -/
abbrev BlockRuns (s : State) : Prop := s.mover = .block ∧ s.status.busy = true

/-- The host moves next, its next action is `act`, and then come `rest`. -/
abbrev HostDoes (s : State) (act : HostAction) (rest : List HostAction) : Prop :=
  s.mover = .host ∧ s.program = act :: rest

/-- The state with the schedule and the host's program gone on by one. -/
abbrev goneOn (s : State) (rest : List HostAction) : State := { s with program := rest, schedule := s.schedule.tail }

/-- A region is admitted (`20_memory.md` R68). -/
abbrev Admitted (memSize : Nat) (r : Region) : Prop := r.len = 0 ∨ r.base + r.len ≤ memSize

/-- Two regions overlap (R69). -/
abbrev Overlap (p q : Region) : Prop :=
  0 < p.len ∧ 0 < q.len ∧ p.base < q.base + q.len ∧ q.base < p.base + p.len

/-- Every region is admitted (`40_command_control.md` R115, range_ok). -/
abbrev RangeOk (rs : List Region) (s : State) : Prop := ∀ r ∈ rs, Admitted s.memSize r

/-- No two regions overlap (R115, overlap_ok). -/
abbrev OverlapOk (rs : List Region) : Prop := List.Pairwise (fun p q => ¬Overlap p q) rs

/-- The address lies outside the region. -/
abbrev Outside (r : Region) (a : Nat) : Prop := a < r.base ∨ r.base + r.len ≤ a

/-- Every address outside the regions reads in `t` as in `s`. -/
abbrev UnchangedOutside (rs : List Region) (s t : State) : Prop :=
  ∀ a, (∀ r ∈ rs, Outside r a) → t.byteAt a = s.byteAt a

/-- From `s` to `t` an operation completed and changed OUT_LEN, STATUS and the bytes of `written`, nothing else. -/
abbrev Finished (s t : State) (outLen : Nat) (written : List Region) : Prop :=
  t = { s with mem := t.mem, outLen := BitVec.ofNat 32 outLen, status := done s.status } ∧ UnchangedOutside written s t

/-- From `s` to `t` an RLE body raised `code`: STATUS changed, and the bytes of Region(DST_BASE, DST_CAP), which hold any value
(R118); the model counts the free values it drew. -/
abbrev RleFailed (s t : State) (code : BitVec 4) : Prop :=
  t = { s with mem := t.mem, draws := t.draws, status := failed code s.status } ∧
    UnchangedOutside [⟨s.cfg.dstBase.toNat, s.cfg.dstCap.toNat⟩] s t

/-- The reserved opcodes of `30_encoding.md` R93. -/
abbrev ReservedOpcode (n : Nat) : Prop :=
  (0x07 ≤ n ∧ n ≤ 0x0F) ∨ (0x13 ≤ n ∧ n ≤ 0x1F) ∨ (0x21 ≤ n ∧ n ≤ 0x2F) ∨ (0x33 ≤ n ∧ n ≤ 0x3F) ∨ (0x44 ≤ n ∧ n ≤ 0xFF)

/-! ## Pixels, field by field -/

/-- `transparent(a, PT)` (`41_pixel_codec.md` R131). -/
abbrev IsTransparent (a : Byte) (pt : Bool) : Prop := a = 0#8 ∨ (pt = true ∧ a ≠ 255#8)

/-- color15 (R132): red in 14:10, green in 9:5, blue in 4:0. -/
abbrev color15 (p : Pixel) : Color15 := p.r.extractLsb' 3 5 ++ p.g.extractLsb' 3 5 ++ p.b.extractLsb' 3 5

/-- The RGB555 word (R132): bit 15 is "not transparent". -/
abbrev word555 (p : Pixel) (pt : Bool) : Half :=
  (if IsTransparent p.a pt then 0#1 else 1#1) ++ p.r.extractLsb' 3 5 ++ p.g.extractLsb' 3 5 ++ p.b.extractLsb' 3 5

/-- The RGB565 word (R134). -/
abbrev word565 (p : Pixel) : Half := p.r.extractLsb' 3 5 ++ p.g.extractLsb' 2 6 ++ p.b.extractLsb' 3 5

/-- The BGR565 word (R134). -/
abbrev wordB565 (p : Pixel) : Half := p.b.extractLsb' 3 5 ++ p.g.extractLsb' 2 6 ++ p.r.extractLsb' 3 5

/-- The RGB444 value (R137). -/
abbrev value444 (p : Pixel) : BitVec 12 := p.r.extractLsb' 4 4 ++ p.g.extractLsb' 4 4 ++ p.b.extractLsb' 4 4

/-- The pixel in ARG0 (`10_state.md` R31). -/
abbrev argPixel (s : State) : Pixel :=
  ⟨s.cfg.arg0.extractLsb' 0 8, s.cfg.arg0.extractLsb' 8 8, s.cfg.arg0.extractLsb' 16 8, s.cfg.arg0.extractLsb' 24 8⟩

/-- The state after a single-pixel operation that touches no palette: RESULT and STATUS. -/
abbrev withResult (s : State) (v : Word) : State := { s with result := v, status := done s.status }

/-- Pixel (x, y) of the source raster (`20_memory.md` R62). -/
abbrev sourcePixel (s : State) (x y : Nat) : Pixel :=
  ⟨s.byteAt (s.cfg.srcBase.toNat + 4 * (y * s.w + x)), s.byteAt (s.cfg.srcBase.toNat + 4 * (y * s.w + x) + 1),
    s.byteAt (s.cfg.srcBase.toNat + 4 * (y * s.w + x) + 2), s.byteAt (s.cfg.srcBase.toNat + 4 * (y * s.w + x) + 3)⟩

/-- The scan index of pixel (x, y) (`43_raster_encoder.md` R180). -/
abbrev scanIndex (s : State) (x y : Nat) : Nat := (s.h - 1 - y) * s.w + x

/-- The pixel at scan index k (R180). -/
abbrev scanned (s : State) (k : Nat) : Pixel := sourcePixel s (k % s.w) (s.h - 1 - k / s.w)

/-- A pixel as a 32-bit operand (`10_state.md` R31). -/
abbrev pixelWord (p : Pixel) : Word := p.a ++ p.b ++ p.g ++ p.r

/-! ## Runs of single operations -/

/-- Run `i` once per operand, each time with that operand in ARG0: the RESULTs in order, and the state at the end. -/
def runOn (i : Instr) : List Word → State → List Word × State
  | [], s => ([], s)
  | v :: vs, s =>
    match exec i { s with cfg := { s.cfg with arg0 := v } } with
    | .next t => let rest := runOn i vs t; (t.result :: rest.1, rest.2)
    | _ => ([], s)

/-- The distinct non-zero colours of a sequence in the order of their first appearance (`42_palette_builder.md` R168). -/
def firstSeen (cs : List Color15) : List Color15 :=
  cs.foldl (fun seen c => if c = 0#15 ∨ c ∈ seen then seen else seen ++ [c]) []

/-- The index a colour has after a pal_reset and the first-seen order `seen` (R166, R167). -/
def expectedIndex (seen : List Color15) (c : Color15) : Nat :=
  if c = 0#15 then 1 else if seen.idxOf c < 254 then seen.idxOf c + 2 else 255

/-- The colour is one of those that find no unbound index (R167: the colours numbered 255 and up). -/
abbrev Excess (seen : List Color15) (c : Color15) : Prop := c ≠ 0#15 ∧ 254 ≤ seen.idxOf c

/-! ## The regions of the operations, `40_command_control.md` R116 -/

/-- The enabled planes of RASTER_ENCODE. -/
abbrev rasterPlanes (s : State) : List Region :=
  (if s.cfg.encCfg.enIdx8 then [⟨s.cfg.idx8Base.toNat, s.w * s.h⟩] else [])
    ++ (if s.cfg.encCfg.enBit1 then [⟨s.cfg.bit1Base.toNat, s.h * ((s.w + 7) / 8)⟩] else [])
    ++ (if s.cfg.encCfg.enC16 then [⟨s.cfg.c16Base.toNat, 2 * (s.w * s.h)⟩] else [])
    ++ (if s.cfg.encCfg.enAlpha then [⟨s.cfg.alphaBase.toNat, s.w * s.h⟩] else [])
    ++ (if s.cfg.encCfg.enPk444 then [⟨s.cfg.pk444Base.toNat, 3 * ((s.w * s.h + 1) / 2)⟩] else [])

/-- The regions of RASTER_ENCODE. -/
abbrev rasterRegions (s : State) : List Region := ⟨s.cfg.srcBase.toNat, 4 * (s.w * s.h)⟩ :: rasterPlanes s

/-- The regions of TILE_8 (k = 1) and TILE_16 (k = 2). -/
abbrev tileRegions (k : Nat) (s : State) : List Region :=
  [⟨s.cfg.srcBase.toNat, k * (s.w * s.h)⟩, ⟨s.cfg.dstBase.toNat, k * (s.w * s.h)⟩]

/-- The regions of TILE_1BIT. -/
abbrev tile1bitRegions (s : State) : List Region :=
  [⟨s.cfg.srcBase.toNat, s.h * s.w / 8⟩, ⟨s.cfg.dstBase.toNat, s.h * s.w / 8⟩,
    ⟨s.cfg.mapxBase.toNat, (s.w / s.t) * (s.h / s.t)⟩, ⟨s.cfg.mapyBase.toNat, (s.w / s.t) * (s.h / s.t)⟩]

/-- The regions of the RLE operations, k bytes per source element. -/
abbrev rleRegions (k : Nat) (s : State) : List Region :=
  [⟨s.cfg.srcBase.toNat, k * s.cfg.srcLen.toNat⟩, ⟨s.cfg.dstBase.toNat, s.cfg.dstCap.toNat⟩]

/-- The format check of RASTER_ENCODE fails (`43_raster_encoder.md` R182). -/
abbrev FmtBad (s : State) : Prop := s.cfg.encCfg.enC16 = true ∧ s.cfg.encCfg.fmt16 = 3#2

/-- The geometry check fails (`40_command_control.md` R121). -/
abbrev GeometryBad (s : State) : Prop := s.w = 0 ∨ s.h = 0

/-- The tile check of TILE_8 and TILE_16 fails (`44_tile_rearranger.md` R200). -/
abbrev TileBad (s : State) : Prop := s.t = 0 ∨ s.t % 2 ≠ 0 ∨ s.w % s.t ≠ 0 ∨ s.h % s.t ≠ 0

/-- The tile check of TILE_1BIT fails (R200). -/
abbrev Tile1bitBad (s : State) : Prop := TileBad s ∨ s.t % 8 ≠ 0

/-- RASTER_ENCODE passes its checks. -/
abbrev RasterReady (s : State) : Prop :=
  ¬FmtBad s ∧ ¬GeometryBad s ∧ RangeOk (rasterRegions s) s ∧ OverlapOk (rasterRegions s)

/-- TILE_8 (k = 1) or TILE_16 (k = 2) passes its checks. -/
abbrev TileReady (k : Nat) (s : State) : Prop :=
  ¬GeometryBad s ∧ ¬TileBad s ∧ RangeOk (tileRegions k s) s ∧ OverlapOk (tileRegions k s)

/-- TILE_1BIT passes its checks. -/
abbrev Tile1bitReady (s : State) : Prop :=
  ¬GeometryBad s ∧ ¬Tile1bitBad s ∧ RangeOk (tile1bitRegions s) s ∧ OverlapOk (tile1bitRegions s)

/-- An RLE operation of k bytes per source element passes its checks. -/
abbrev RleReady (k : Nat) (s : State) : Prop := RangeOk (rleRegions k s) s ∧ OverlapOk (rleRegions k s)

/-- Pixel (row i, column c) of tile (tr, tc) of the 1-bit source is set: the MSB of a byte is its first pixel
(`44_tile_rearranger.md` R205, R206). -/
abbrev Lit (s : State) (tr tc i c : Nat) : Prop :=
  (s.byteAt (s.cfg.srcBase.toNat + (tr * s.t + i) * (s.w / 8) + tc * (s.t / 8) + c / 8)).getLsbD (7 - c % 8) = true

/-- `v` is the largest k < n with P k, and 0 where there is none (R206). -/
abbrev IsLast (n : Nat) (P : Nat → Prop) (v : Nat) : Prop :=
  (∀ k, k < n → P k → k ≤ v) ∧ ((∃ k, k < n ∧ P k) → v < n ∧ P v) ∧ ((∀ k, k < n → ¬P k) → v = 0)

/-- The run length at the front of a non-empty sequence (`45_rle_codec.md` R222). -/
abbrev IsRunLength {w : Nat} (l : List (BitVec w)) (r : Nat) : Prop :=
  (1 ≤ r ∧ r ≤ 2 ^ (w - 1) + 2 ∧ r ≤ l.length ∧ ∀ q, q < r → l[q]? = l[0]?) ∧
    ∀ r', 1 ≤ r' → r' ≤ 2 ^ (w - 1) + 2 → r' ≤ l.length → (∀ q, q < r' → l[q]? = l[0]?) → r' ≤ r

/-- The bits of STATUS as numbered in `10_state.md` R26. -/
abbrev statusBit (s : State) (k : Nat) : Bool := (RegName.status.read s).getLsbD k

/-- The RW registers a host write stores, with the mask of their defined bits (`10_state.md` R22, R27-R31). -/
def storedMask : RegName → Option Word
  | .encCfg => some 0x00001F0F#32
  | .width | .height => some 0x0000FFFF#32
  | .tile => some 0x000000FF#32
  | .srcBase | .srcLen | .dstBase | .dstCap => some 0xFFFFFFFF#32
  | .idx8Base | .bit1Base | .c16Base | .alphaBase | .pk444Base | .mapxBase | .mapyBase => some 0xFFFFFFFF#32
  | .arg0 => some 0xFFFFFFFF#32
  | .cmd | .status | .result | .outLen | .palNext | .palOvfCnt | .palEntry _ => none

/-- The RO registers (R22). -/
abbrev ReadOnly (r : RegName) : Prop :=
  r = .result ∨ r = .outLen ∨ r = .palNext ∨ r = .palOvfCnt ∨ ∃ k, r = .palEntry k

/-- The address lies in a region of the running operation (R116, `70_reset_and_hazards.md` R344). -/
abbrev InRunningRegion (s : State) (a : Nat) : Prop :=
  ∃ i, decode s.cmd = .ok i ∧ ∃ r ∈ regions i s, r.base ≤ a ∧ a < r.base + r.len

/-- The address lies in a destination region of the running operation (R116, R349). -/
abbrev InRunningDest (s : State) (a : Nat) : Prop :=
  ∃ i, decode s.cmd = .ok i ∧ ∃ r ∈ destRegions i s, r.base ≤ a ∧ a < r.base + r.len

end Sys2Proof.Claims

open Sys2Proof Sys2Proof.Machine Sys2Proof.Claims

/-! ## Encoding -/

/-- `30_encoding.md` R92, R95: the words of the opcode map decode to their operations, by the decoder and by the table's bit
numbering. -/
def Obligations.CommandWordsDecodeAsTabulated : Prop :=
  decode 0x00000000#32 = .ok .nop ∧ decode 0x00000001#32 = .ok .cvtRgb555 ∧ decode 0x00000012#32 = .ok .palStore ∧
    decode 0x00000020#32 = .ok .rasterEncode ∧ decode 0x00000032#32 = .ok .tile1bit ∧
    decode 0x00000043#32 = .ok .rle16Dec ∧ decodeTableWord 32 0x00000006 = some .cvtIdx8 ∧
    decodeTableWord 32 0x00000031 = some .tile16 ∧ decodeTableWord 32 0x00000107 = none

/-- R92: "The match is on the whole word": decoding an encoded operation gives it back, and a word that decodes to an
operation is that operation's one word. -/
def Obligations.DecodingMatchesTheWholeWord : Prop :=
  (∀ i : Instr, decode (encode i) = .ok i) ∧ ∀ (c : Word) (i : Instr), decode c = .ok i → c = encode i

/-- R91, R93: a word is rejected exactly when a reserved bit is set or its opcode is reserved; it is accepted like any other,
and its execution raises ILLEGAL_CMD with no other effect. -/
def Obligations.IllegalWordsRaiseIllegalCmd : Prop :=
  (∀ c : Word, (∃ why, decode c = .error why) ↔ c.toNat / 256 ≠ 0 ∨ ReservedOpcode (c.toNat % 256)) ∧
    (∀ c : Word, legalWord c = true ↔ ¬(c.toNat / 256 ≠ 0 ∨ ReservedOpcode (c.toNat % 256))) ∧
    (∀ (s : State) (c : Word) (rest : List HostAction), HostDoes s (.writeReg 0x000 .bits32 c) rest →
      s.status.busy = false → legalWord c = false →
        step s = .next { goneOn s rest with
          cmd := c, status := { s.status with busy := true, done := false, err := false, errCode := 0#4 } }) ∧
    ∀ s : State, BlockRuns s → legalWord s.cmd = false →
      step s = .next { s with schedule := s.schedule.tail, status := failed 1#4 s.status }

/-! ## The command lifecycle -/

/-- `40_command_control.md` R113: the block's step executes the operation its command word decodes to, on the state as it
stands; and a word placed by `withFetchWord` is executed by the very next step. -/
def Obligations.StepExecutesTheDecodedCommand : Prop :=
  (∀ (s : State) (i : Instr), BlockRuns s → decode s.cmd = .ok i →
    step s = exec i { s with schedule := s.schedule.tail }) ∧
    ∀ (s : State) (i : Instr), step (s.withFetchWord 32 (encode i).toNat) =
      exec i { s with cmd := encode i, status := { s.status with busy := true, done := false, err := false, errCode := 0#4 } }

/-- R110: acceptance of a CMD write while BUSY = 0; R112: a CMD write while BUSY = 1 is dropped and sets CMD_OVR. That
BMEM's destination regions keep their bytes in the BUSY window is the model's choice (log 22). -/
def Obligations.CommandWritesAreAcceptedOrDropped : Prop :=
  ∀ (s : State) (c : Word) (rest : List HostAction), HostDoes s (.writeReg 0x000 .bits32 c) rest →
    (s.status.busy = false →
      step s = .next { goneOn s rest with
        cmd := c
        status :=
          { busy := true, done := false, err := false, palOvf := s.status.palOvf, cmdOvr := s.status.cmdOvr
            errCode := 0#4 } }) ∧
      (s.status.busy = true → step s = .next { goneOn s rest with status := { s.status with cmdOvr := true } })

/-- R119: every accepted command completes in exactly one block step: the step of a busy block answers a state with BUSY = 0
that is done or in error. -/
def Obligations.EveryCommandEndsInOneBlockStep : Prop :=
  ∀ s : State, BlockRuns s →
    ∃ t, step s = .next t ∧ t.status.busy = false ∧ (t.status.done = true ∨ t.status.err = true)

/-- R113, `70_reset_and_hazards.md` R342: with BUSY = 0 the block has no step. A turn of the block, or of a host with no action
left, changes nothing but the schedule (log 2). -/
def Obligations.IdleBlockNeverActs : Prop :=
  ∀ s : State, s.status.busy = false → s.mover = .block ∨ s.program = [] →
    step s = .next { s with schedule := s.schedule.tail }

/-- R120: NOP completes and changes nothing but STATUS; its one word is 0; while BUSY = 1 it is dropped. That the
running operation's destination bytes stay as they were then is the model's choice (log 22). -/
def Obligations.NopOnlyCompletes : Prop :=
  (∀ c : Word, decode c = .ok .nop ↔ c = 0x00000000#32) ∧
    (∀ s : State, exec .nop s = .next { s with status := done s.status }) ∧
    ∀ s : State, s.status.busy = true →
      hostWriteReg 0x000 .bits32 0x00000000#32 s = { s with status := { s.status with cmdOvr := true } }

/-- R122, `10_state.md` R32, R33, R39: no operation, completed or in error, changes CMD, a configured register, MEM_SIZE, CMD_OVR, the
refusal mark or a field of the host's side; RESULT is written only by the single-pixel operations and PAL_ASSIGN; OUT_LEN only by a
multi-element operation, and not by one that ends in error. -/
def Obligations.OperationsWriteOnlyTheirRegisters : Prop :=
  ∀ (i : Instr) (s t : State), exec i s = .next t →
    (t.cmd = s.cmd ∧ t.cfg = s.cfg ∧ t.memSize = s.memSize ∧ t.refusalMark = s.refusalMark ∧
      t.status.cmdOvr = s.status.cmdOvr ∧ t.busRead = s.busRead ∧ t.program = s.program ∧ t.schedule = s.schedule) ∧
      (i ∉ [.cvtRgb555, .cvtRgb565, .cvtBgr565, .cvtRgb444, .cvt1bit, .cvtIdx8, .palAssign] → t.result = s.result) ∧
      (i ∈ [.nop, .cvtRgb555, .cvtRgb565, .cvtBgr565, .cvtRgb444, .cvt1bit, .cvtIdx8, .palReset, .palAssign] ∨
        t.status.done = false → t.outLen = s.outLen)

/-- R117, R118, R122: an operation changes no byte of BMEM outside its destination regions of R116, whatever its end. -/
def Obligations.OperationsWriteOnlyTheirDestinations : Prop :=
  ∀ (i : Instr) (s t : State), exec i s = .next t →
    UnchangedOutside
      (match i with
        | .palStore => [⟨s.cfg.dstBase.toNat, 512⟩]
        | .rasterEncode => rasterPlanes s
        | .tile8 => [⟨s.cfg.dstBase.toNat, s.w * s.h⟩]
        | .tile16 => [⟨s.cfg.dstBase.toNat, 2 * (s.w * s.h)⟩]
        | .tile1bit =>
          [⟨s.cfg.dstBase.toNat, s.h * s.w / 8⟩, ⟨s.cfg.mapxBase.toNat, (s.w / s.t) * (s.h / s.t)⟩,
            ⟨s.cfg.mapyBase.toNat, (s.w / s.t) * (s.h / s.t)⟩]
        | .rle8Enc | .rle8Dec | .rle16Enc | .rle16Dec => [⟨s.cfg.dstBase.toNat, s.cfg.dstCap.toNat⟩]
        | _ => []) s t

/-- `10_state.md` R39: "no operation reads a flag as an input": with other flags in STATUS an operation does the same, but for the
flags themselves. -/
def Obligations.NoOperationReadsAFlag : Prop :=
  ∀ (i : Instr) (s t : State) (u : Status), exec i s = .next t →
    ∃ v : Status, exec i { s with status := u } = .next { t with status := v } ∧
      v.busy = t.status.busy ∧ v.done = t.status.done ∧ (t.status.done = false → v.err = t.status.err ∧ v.errCode = t.status.errCode)

/-! ## The pixel codec -/

/-- `41_pixel_codec.md` R133 with R131, R132: CVT_RGB555, for every ARG0 and every PARTIAL_TRANSP. -/
def Obligations.CvtRgb555GivesTheRgb555Word : Prop :=
  decode 0x00000001#32 = .ok .cvtRgb555 ∧
    ∀ s : State, exec .cvtRgb555 s =
      .next (withResult s ((word555 (argPixel s) s.cfg.encCfg.partialTransp).setWidth 32))

/-- R135, R136 with R134: CVT_RGB565 and CVT_BGR565; alpha is ignored. The bit places are R134's general knowledge
(log 19). -/
def Obligations.Cvt565GivesTheFiveSixFiveWords : Prop :=
  decode 0x00000002#32 = .ok .cvtRgb565 ∧ decode 0x00000003#32 = .ok .cvtBgr565 ∧
    ∀ s : State, exec .cvtRgb565 s = .next (withResult s ((word565 (argPixel s)).setWidth 32)) ∧
      exec .cvtBgr565 s = .next (withResult s ((wordB565 (argPixel s)).setWidth 32))

/-- R138 with R137: CVT_RGB444; R140 with R139: CVT_1BIT, which reads alpha alone. -/
def Obligations.Cvt444AndCvtOneBitGiveTheirValues : Prop :=
  decode 0x00000004#32 = .ok .cvtRgb444 ∧ decode 0x00000005#32 = .ok .cvt1bit ∧
    ∀ s : State, exec .cvtRgb444 s = .next (withResult s ((value444 (argPixel s)).setWidth 32)) ∧
      exec .cvt1bit s = .next (withResult s (if s.cfg.arg0.extractLsb' 24 8 = 0#8 then 0#32 else 1#32))

/-- R144: the reference decoders recover the truncated channels from the words the commands give. The 5/6/5 bit places
are R134's general knowledge (log 19). -/
def Obligations.SixteenBitWordsDecodeBack : Prop :=
  ∀ s : State, ∃ t u v, exec .cvtRgb555 s = .next t ∧ exec .cvtRgb565 s = .next u ∧ exec .cvtBgr565 s = .next v ∧
    dec555 (t.result.setWidth 16) =
      ((argPixel s).r.extractLsb' 3 5, (argPixel s).g.extractLsb' 3 5, (argPixel s).b.extractLsb' 3 5) ∧
    (t.result.getLsbD 15 = true ↔ ¬IsTransparent (argPixel s).a s.cfg.encCfg.partialTransp) ∧
    dec565 (u.result.setWidth 16) =
      ((argPixel s).r.extractLsb' 3 5, (argPixel s).g.extractLsb' 2 6, (argPixel s).b.extractLsb' 3 5) ∧
    decB565 (v.result.setWidth 16) =
      ((argPixel s).r.extractLsb' 3 5, (argPixel s).g.extractLsb' 2 6, (argPixel s).b.extractLsb' 3 5)

/-- R141, R142: CVT_IDX8 gives 0 and leaves the palette alone for a transparent pixel, and else does what PAL_ASSIGN does with the
pixel's color15. -/
def Obligations.CvtIdx8AssignsOpaquePixels : Prop :=
  decode 0x00000006#32 = .ok .cvtIdx8 ∧
    ∀ s : State,
      (IsTransparent (argPixel s).a s.cfg.encCfg.partialTransp → exec .cvtIdx8 s = .next (withResult s 0#32)) ∧
        (¬IsTransparent (argPixel s).a s.cfg.encCfg.partialTransp →
          ∃ t, exec .palAssign { s with cfg := { s.cfg with arg0 := (color15 (argPixel s)).setWidth 32 } } = .next t ∧
            exec .cvtIdx8 s = .next { t with cfg := s.cfg })

/-! ## The palette builder -/

/-- `42_palette_builder.md` R163 with R160: PAL_RESET. -/
def Obligations.PalResetUnbindsEverything : Prop :=
  decode 0x00000010#32 = .ok .palReset ∧
    ∀ s : State, ∃ t, exec .palReset s = .next t ∧
      t = { s with palette := t.palette, status := { done s.status with palOvf := false } } ∧
      (∀ k : Fin 256, t.palette.entry[k] = 0#16) ∧ t.palette.next = 2#9 ∧ t.palette.ovfCnt = 0#32

/-- R164 with R161: black resolves to index 1, and a bound colour to the first index that holds it; nothing is bound or
counted. -/
def Obligations.PalAssignFindsBoundColours : Prop :=
  decode 0x00000011#32 = .ok .palAssign ∧
    ∀ s : State,
      (s.cfg.arg0.extractLsb' 0 15 = 0#15 → exec .palAssign s = .next (withResult s 1#32)) ∧
        ∀ k : Nat, s.cfg.arg0.extractLsb' 0 15 ≠ 0#15 → 2 ≤ k → k < s.palette.next.toNat →
          s.palette.get k = (s.cfg.arg0.extractLsb' 0 15).setWidth 16 →
          (∀ j, 2 ≤ j → j < k → s.palette.get j ≠ (s.cfg.arg0.extractLsb' 0 15).setWidth 16) →
            exec .palAssign s = .next (withResult s (BitVec.ofNat 32 k))

/-- R162: a new colour binds the lowest unbound index PAL_NEXT while there is one; with PAL_NEXT = 256 the result is 255, the overflow is
counted modulo 2^32, PAL_OVF is set and no entry changes. -/
def Obligations.PalAssignBindsOrOverflows : Prop :=
  (∀ s : State, s.cfg.arg0.extractLsb' 0 15 ≠ 0#15 → s.palette.next.toNat ≤ 255 →
    (∀ j, 2 ≤ j → j < s.palette.next.toNat → s.palette.get j ≠ (s.cfg.arg0.extractLsb' 0 15).setWidth 16) →
      ∃ t, exec .palAssign s = .next t ∧
        t = { withResult s (BitVec.ofNat 32 s.palette.next.toNat) with palette := t.palette } ∧
        t.palette.get s.palette.next.toNat = (s.cfg.arg0.extractLsb' 0 15).setWidth 16 ∧
        (∀ j, j ≠ s.palette.next.toNat → t.palette.get j = s.palette.get j) ∧
        t.palette.next.toNat = s.palette.next.toNat + 1 ∧ t.palette.ovfCnt = s.palette.ovfCnt) ∧
    ∀ s : State, s.cfg.arg0.extractLsb' 0 15 ≠ 0#15 → s.palette.next = 256#9 →
      (∀ j, 2 ≤ j → j < 256 → s.palette.get j ≠ (s.cfg.arg0.extractLsb' 0 15).setWidth 16) →
        exec .palAssign s = .next { withResult s 255#32 with
          palette := { s.palette with ovfCnt := BitVec.ofNat 32 (s.palette.ovfCnt.toNat + 1) }
          status := { done s.status with palOvf := true } }

/-- `10_state.md` R36 (a), R169: a bound index keeps its colour, and PAL_NEXT never falls, under every operation but PAL_RESET and
RASTER_ENCODE; only CVT_IDX8, PAL_ASSIGN, PAL_RESET and RASTER_ENCODE change the palette at all. -/
def Obligations.BoundColoursKeepTheirIndex : Prop :=
  ∀ (i : Instr) (s t : State), exec i s = .next t →
    (i ≠ .palReset → i ≠ .rasterEncode → s.palette.Inv →
      s.palette.next.toNat ≤ t.palette.next.toNat ∧ ∀ k, k < s.palette.next.toNat → t.palette.get k = s.palette.get k) ∧
      (i ∉ [.cvtIdx8, .palAssign, .palReset, .rasterEncode] → t.palette = s.palette)

/-- R166, R168: after a pal_reset, the index each presented colour receives depends only on the first-seen order of the distinct
non-zero colours: the i-th receives i+1 while i ≤ 254, every later one 255, and black 1. The numbers are
R166's and R167's, which the spec marks as its own inference. -/
def Obligations.IndicesFollowFirstSeenOrder : Prop :=
  ∀ (cs : List Color15) (s : State), s.palette = Palette.reset →
    (runOn .palAssign (cs.map fun c => c.setWidth 32) s).1 =
      cs.map fun c => BitVec.ofNat 32 (expectedIndex (firstSeen cs) c)

/-- R167: after a pal_reset, PAL_OVF_CNT is the number of presentations of colours past the 254th (modulo 2^32), PAL_OVF is set iff
there was one (or it was set before), and the palette holds the first 254 colours in first-seen order. An inference of the
spec's own. -/
def Obligations.OverflowsAreCountedOncePerPresentation : Prop :=
  ∀ (cs : List Color15) (s : State), s.palette = Palette.reset →
    let t := (runOn .palAssign (cs.map fun c => c.setWidth 32) s).2
    t.palette.ovfCnt = BitVec.ofNat 32 (cs.countP fun c => decide (Excess (firstSeen cs) c)) ∧
      (t.status.palOvf = true ↔ s.status.palOvf = true ∨ ∃ c ∈ cs, Excess (firstSeen cs) c) ∧
      t.palette.next.toNat = 2 + min 254 (firstSeen cs).length ∧
      ∀ (j : Nat) (hj : j < (firstSeen cs).length), j < 254 → t.palette.get (j + 2) = (firstSeen cs)[j].setWidth 16

/-- R165, `20_memory.md` R76: PAL_STORE writes the palette file, or raises RANGE. -/
def Obligations.PalStoreWritesThePaletteFile : Prop :=
  decode 0x00000012#32 = .ok .palStore ∧
    (∀ s : State, s.cfg.dstBase.toNat + 512 ≤ s.memSize →
      ∃ t, exec .palStore s = .next t ∧ Finished s t 256 [⟨s.cfg.dstBase.toNat, 512⟩] ∧
        ∀ k : Fin 256, t.byteAt (s.cfg.dstBase.toNat + 2 * k) = s.palette.entry[k].extractLsb' 0 8 ∧
          t.byteAt (s.cfg.dstBase.toNat + 2 * k + 1) = s.palette.entry[k].extractLsb' 8 8) ∧
    ∀ s : State, s.memSize < s.cfg.dstBase.toNat + 512 → raises .palStore s 5#4

/-! ## The raster encoder -/

/-- `43_raster_encoder.md` R182, `40_command_control.md` R114: the checks of RASTER_ENCODE, in order; a failing one writes STATUS
alone, so the palette is not reset. -/
def Obligations.RasterEncodeChecksInOrder : Prop :=
  decode 0x00000020#32 = .ok .rasterEncode ∧ ∀ s : State,
    (FmtBad s → raises .rasterEncode s 2#4) ∧
      (¬FmtBad s → GeometryBad s → raises .rasterEncode s 3#4) ∧
      (¬FmtBad s → ¬GeometryBad s → ¬RangeOk (rasterRegions s) s → raises .rasterEncode s 5#4) ∧
      (¬FmtBad s → ¬GeometryBad s → RangeOk (rasterRegions s) s → ¬OverlapOk (rasterRegions s) →
        raises .rasterEncode s 6#4)

/-- R182, R184, R185: with its checks passed RASTER_ENCODE completes; it writes OUT_LEN = N, the palette, DONE and PAL_OVF, and no
byte outside the enabled planes, the source raster in particular. -/
def Obligations.RasterEncodeWritesOnlyItsPlanes : Prop :=
  ∀ s : State, RasterReady s →
    ∃ t, exec .rasterEncode s = .next t ∧
      t = { s with
        mem := t.mem, palette := t.palette, outLen := BitVec.ofNat 32 (s.w * s.h)
        status := { done s.status with palOvf := t.status.palOvf } } ∧
      UnchangedOutside (rasterPlanes s) s t ∧
      ∀ a, s.cfg.srcBase.toNat ≤ a → a < s.cfg.srcBase.toNat + 4 * (s.w * s.h) → t.byteAt a = s.byteAt a

/-- R63, R73, R74, R180, `41_pixel_codec.md` R143: at the scan index of pixel (x, y) the ALPHA plane holds its raw alpha, and the C16
plane its word in the selected format, in the byte order BSWAP16 selects. The 5/6/5 bit places are R134's general
knowledge (log 19). -/
def Obligations.ScanOrderPlanesHoldAlphaAndColour : Prop :=
  ∀ s : State, RasterReady s →
    ∃ t, exec .rasterEncode s = .next t ∧ ∀ x y, x < s.w → y < s.h →
      (s.cfg.encCfg.enAlpha = true →
        t.byteAt (s.cfg.alphaBase.toNat + scanIndex s x y) = (sourcePixel s x y).a) ∧
      (s.cfg.encCfg.enC16 = true →
        let p := sourcePixel s x y
        let v := if s.cfg.encCfg.fmt16 = 0#2 then word555 p s.cfg.encCfg.partialTransp
          else if s.cfg.encCfg.fmt16 = 1#2 then word565 p else wordB565 p
        let a := s.cfg.c16Base.toNat + 2 * scanIndex s x y
        if s.cfg.encCfg.bswap16 then t.byteAt a = v.extractLsb' 8 8 ∧ t.byteAt (a + 1) = v.extractLsb' 0 8
        else t.byteAt a = v.extractLsb' 0 8 ∧ t.byteAt (a + 1) = v.extractLsb' 8 8)

/-- R72: the BIT1 plane: pixel (x, y) is bit 7 - (x mod 8) of byte x/8 of scan row H-1-y, set iff its alpha is not 0; the pad bits of
a row's last byte are 0. -/
def Obligations.OneBitPlanePacksRowsMsbFirst : Prop :=
  ∀ s : State, RasterReady s → s.cfg.encCfg.enBit1 = true →
    ∃ t, exec .rasterEncode s = .next t ∧ ∀ x y, y < s.h → x < 8 * ((s.w + 7) / 8) →
      ((t.byteAt (s.cfg.bit1Base.toNat + (s.h - 1 - y) * ((s.w + 7) / 8) + x / 8)).getLsbD (7 - x % 8) = true ↔
        x < s.w ∧ (sourcePixel s x y).a ≠ 0#8)

/-- R75: the PK444 plane: pair m holds v0 | v1 << 12 in three little-endian bytes, v1 = 0 where 2m+1 = N. -/
def Obligations.PackedPlaneHoldsPixelPairs : Prop :=
  ∀ s : State, RasterReady s → s.cfg.encCfg.enPk444 = true →
    ∃ t, exec .rasterEncode s = .next t ∧ ∀ m, m < (s.w * s.h + 1) / 2 →
      let v0 := value444 (scanned s (2 * m))
      let v1 := if 2 * m + 1 < s.w * s.h then value444 (scanned s (2 * m + 1)) else 0#12
      let a := s.cfg.pk444Base.toNat + 3 * m
      t.byteAt (a + 2) ++ t.byteAt (a + 1) ++ t.byteAt a = v1 ++ v0

/-- R71, R181, R183: the IDX8 plane, the palette and PAL_OVF are what PAL_RESET and then one CVT_IDX8 per pixel, in scan order, give. -/
def Obligations.IndexPlaneIsTheScanOfCvtIdx8 : Prop :=
  ∀ s : State, RasterReady s →
    ∃ t r, exec .rasterEncode s = .next t ∧ exec .palReset s = .next r ∧
      let run := runOn .cvtIdx8 ((List.range (s.w * s.h)).map fun k => pixelWord (scanned s k)) r
      t.palette = run.2.palette ∧ t.status.palOvf = run.2.status.palOvf ∧
        (s.cfg.encCfg.enIdx8 = true → ∀ (k : Nat) (_ : k < s.w * s.h) (_ : k < run.1.length),
          t.byteAt (s.cfg.idx8Base.toNat + k) = run.1[k].setWidth 8) ∧ run.1.length = s.w * s.h

/-- R187: after RASTER_ENCODE with EN_IDX8 = 1, an index byte 0 means a transparent pixel; any other is a bound index or 255, and unless
it is 255 after an overflow PAL holds the pixel's color15 there. -/
def Obligations.IndexPlaneAgreesWithThePalette : Prop :=
  ∀ s : State, RasterReady s → s.cfg.encCfg.enIdx8 = true →
    ∃ t, exec .rasterEncode s = .next t ∧ ∀ x y, x < s.w → y < s.h →
      let i := t.byteAt (s.cfg.idx8Base.toNat + scanIndex s x y)
      let p := sourcePixel s x y
      (i = 0#8 ↔ IsTransparent p.a s.cfg.encCfg.partialTransp) ∧
        (i ≠ 0#8 → (i.toNat < t.palette.next.toNat ∨ i = 255#8) ∧
          (i ≠ 255#8 ∨ t.status.palOvf = false → t.palette.get i.toNat = (color15 p).setWidth 16))

/-! ## The tile rearranger -/

/-- `44_tile_rearranger.md` R200, `40_command_control.md` R114, R121: the checks of the tile operations, in order. -/
def Obligations.TileChecksInOrder : Prop :=
  (∀ (s : State) (i : Instr) (k : Nat), (i = .tile8 ∧ k = 1) ∨ (i = .tile16 ∧ k = 2) →
    (GeometryBad s → raises i s 3#4) ∧
      (¬GeometryBad s → TileBad s → raises i s 4#4) ∧
      (¬GeometryBad s → ¬TileBad s → ¬RangeOk (tileRegions k s) s → raises i s 5#4) ∧
      (¬GeometryBad s → ¬TileBad s → RangeOk (tileRegions k s) s → ¬OverlapOk (tileRegions k s) → raises i s 6#4)) ∧
    ∀ s : State,
      (GeometryBad s → raises .tile1bit s 3#4) ∧
        (¬GeometryBad s → Tile1bitBad s → raises .tile1bit s 4#4) ∧
        (¬GeometryBad s → ¬Tile1bitBad s → ¬RangeOk (tile1bitRegions s) s → raises .tile1bit s 5#4) ∧
        (¬GeometryBad s → ¬Tile1bitBad s → RangeOk (tile1bitRegions s) s → ¬OverlapOk (tile1bitRegions s) →
          raises .tile1bit s 6#4)

/-- R201, R202: TILE_8 copies element (i, j) of tile (tr, tc) by the address formula, and writes the destination alone. -/
def Obligations.TileEightFollowsTheAddressFormula : Prop :=
  decode 0x00000030#32 = .ok .tile8 ∧ ∀ s : State, TileReady 1 s →
    ∃ t, exec .tile8 s = .next t ∧ Finished s t (s.w * s.h) [⟨s.cfg.dstBase.toNat, s.w * s.h⟩] ∧
      ∀ tr tc i j, tr < s.h / s.t → tc < s.w / s.t → i < s.t → j < s.t →
        t.byteAt (s.cfg.dstBase.toNat + (((tr * (s.w / s.t) + tc) * s.t + i) * s.t + j)) =
          s.byteAt (s.cfg.srcBase.toNat + ((tr * s.t + i) * s.w + (tc * s.t + j)))

/-- R203: TILE_16 moves little-endian words whole, by the same formula. -/
def Obligations.TileSixteenMovesWholeWords : Prop :=
  decode 0x00000031#32 = .ok .tile16 ∧ ∀ s : State, TileReady 2 s →
    ∃ t, exec .tile16 s = .next t ∧ Finished s t (s.w * s.h) [⟨s.cfg.dstBase.toNat, 2 * (s.w * s.h)⟩] ∧
      ∀ tr tc i j, tr < s.h / s.t → tc < s.w / s.t → i < s.t → j < s.t →
        let o := s.cfg.dstBase.toNat + 2 * (((tr * (s.w / s.t) + tc) * s.t + i) * s.t + j)
        let a := s.cfg.srcBase.toNat + 2 * ((tr * s.t + i) * s.w + (tc * s.t + j))
        t.byteAt o = s.byteAt a ∧ t.byteAt (o + 1) = s.byteAt (a + 1)

/-- R204, R205: TILE_1BIT copies byte j of row i of tile (tr, tc), and writes the destination and the two maps alone. -/
def Obligations.TileOneBitCopiesPackedRows : Prop :=
  decode 0x00000032#32 = .ok .tile1bit ∧ ∀ s : State, Tile1bitReady s →
    ∃ t, exec .tile1bit s = .next t ∧
      Finished s t (s.h * (s.w / 8))
        [⟨s.cfg.dstBase.toNat, s.h * (s.w / 8)⟩, ⟨s.cfg.mapxBase.toNat, (s.w / s.t) * (s.h / s.t)⟩,
          ⟨s.cfg.mapyBase.toNat, (s.w / s.t) * (s.h / s.t)⟩] ∧
      ∀ tr tc i j, tr < s.h / s.t → tc < s.w / s.t → i < s.t → j < s.t / 8 →
        t.byteAt (s.cfg.dstBase.toNat + (((tr * (s.w / s.t) + tc) * s.t + i) * (s.t / 8) + j)) =
          s.byteAt (s.cfg.srcBase.toNat + (tr * s.t + i) * (s.w / 8) + tc * (s.t / 8) + j)

/-- R206, `20_memory.md` R77: the trim maps hold, per tile, the largest column and the largest row with a set pixel, 0 for an empty
tile. -/
def Obligations.TrimMapsHoldTheLastLitPixel : Prop :=
  ∀ s : State, Tile1bitReady s →
    ∃ t, exec .tile1bit s = .next t ∧ ∀ tr tc, tr < s.h / s.t → tc < s.w / s.t →
      IsLast s.t (fun c => ∃ i, i < s.t ∧ Lit s tr tc i c)
          (t.byteAt (s.cfg.mapxBase.toNat + (tr * (s.w / s.t) + tc))).toNat ∧
        IsLast s.t (fun i => ∃ c, c < s.t ∧ Lit s tr tc i c)
          (t.byteAt (s.cfg.mapyBase.toNat + (tr * (s.w / s.t) + tc))).toNat

/-- R207: for legal W, H and T the position map of TILE_8 and TILE_16 is a bijection of 0 .. N-1, and that of TILE_1BIT one of
0 .. H·BW-1. -/
def Obligations.TilingIsABijection : Prop :=
  (∀ s : State, ¬GeometryBad s → ¬TileBad s →
    Set.BijOn (tileSource s.w s.t s.t) (Set.Iio (s.w * s.h)) (Set.Iio (s.w * s.h))) ∧
    ∀ s : State, ¬GeometryBad s → ¬Tile1bitBad s →
      Set.BijOn (tileSource (s.w / 8) s.t (s.t / 8)) (Set.Iio (s.h * (s.w / 8))) (Set.Iio (s.h * (s.w / 8)))

/-- R208: the source is recovered from the tiled buffer by the inverse formula. -/
def Obligations.UntilingRecoversTheSource : Prop :=
  ∀ s : State, TileReady 1 s → ∃ t, exec .tile8 s = .next t ∧ ∀ p, p < s.w * s.h →
    let row := p / s.w
    let col := p % s.w
    t.byteAt (s.cfg.dstBase.toNat +
        ((((row / s.t) * (s.w / s.t) + col / s.t) * s.t + row % s.t) * s.t + col % s.t)) =
      s.byteAt (s.cfg.srcBase.toNat + p)

/-! ## The RLE codec -/

/-- `45_rle_codec.md` R222, R223: the run length is the largest the rule admits, and the encoder's loop, record by record: a run of 3 or
more gives a repeat record of the whole run; else a literal record that ends at LIT_MAX symbols, at the end of the input or before a
run of 3. -/
def Obligations.EncoderIsGreedy : Prop :=
  ∀ (w : Nat) (l : List (BitVec w)), w = 8 ∨ w = 16 →
    (l ≠ [] → IsRunLength l (runLength l)) ∧
      (l = [] → rleEncode l = []) ∧
      (∀ v rest, l = v :: rest → 3 ≤ runLength l →
        rleEncode l = (BitVec.ofNat w (2 ^ (w - 1)) ||| BitVec.ofNat w (runLength l - 3)) :: v ::
          rleEncode (l.drop (runLength l))) ∧
      (l ≠ [] → runLength l < 3 →
        ∃ n, 1 ≤ n ∧ n ≤ 2 ^ (w - 1) ∧ n ≤ l.length ∧ (∀ j, j < n → runLength (l.drop j) < 3) ∧
          (n = 2 ^ (w - 1) ∨ n = l.length ∨ 3 ≤ runLength (l.drop n)) ∧
          rleEncode l = BitVec.ofNat w (n - 1) :: (l.take n ++ rleEncode (l.drop n)))

/-- R226 with R220: the decoder, record by record: the marker is the header's top bit, RLE_FORMAT is checked before CAPACITY within a
record, and the first error in stream order wins. -/
def Obligations.DecoderReadsOneRecordAtATime : Prop :=
  ∀ (w cap : Nat), w = 8 ∨ w = 16 →
    rleDecode cap ([] : List (BitVec w)) = .ok [] ∧
      ∀ (h : BitVec w) (rest : List (BitVec w)),
        (h.toNat < 2 ^ (w - 1) →
          rleDecode cap (h :: rest) =
            if rest.length < h.toNat + 1 then .error .rleFormat
            else if cap < h.toNat + 1 then .error .capacity
            else (rleDecode (cap - (h.toNat + 1)) (rest.drop (h.toNat + 1))).map (rest.take (h.toNat + 1) ++ ·)) ∧
        (2 ^ (w - 1) ≤ h.toNat → rest = [] → rleDecode cap (h :: rest) = .error .rleFormat) ∧
        (2 ^ (w - 1) ≤ h.toNat → ∀ v more, rest = v :: more →
          rleDecode cap (h :: rest) =
            if cap < h.toNat - 2 ^ (w - 1) + 3 then .error .capacity
            else (rleDecode (cap - (h.toNat - 2 ^ (w - 1) + 3)) more).map
              (List.replicate (h.toNat - 2 ^ (w - 1) + 3) v ++ ·))

/-- R229, R232: the round trip: every sequence comes back from its encoding when the capacity holds it, and else the decoder says
CAPACITY, never RLE_FORMAT. -/
def Obligations.DecodingInvertsEncoding : Prop :=
  ∀ (w cap : Nat) (l : List (BitVec w)), w = 8 ∨ w = 16 →
    rleDecode cap (rleEncode l) = if l.length ≤ cap then .ok l else .error .capacity

/-- R230: the expansion bound. -/
def Obligations.EncodingExpandsByAtMostTheBound : Prop :=
  ∀ (w : Nat) (l : List (BitVec w)), w = 8 ∨ w = 16 →
    (l = [] → (rleEncode l).length = 0) ∧
      (1 ≤ l.length → (rleEncode l).length ≤ l.length + l.length / 2 ^ (w - 1) + 1)

/-- R231 (d): an all-same input of 3 to REP_MAX symbols gives one record of two symbols. -/
def Obligations.UniformInputGivesOneRecord : Prop :=
  ∀ (w n : Nat) (v : BitVec w), w = 8 ∨ w = 16 → 3 ≤ n → n ≤ 2 ^ (w - 1) + 2 →
    rleEncode (List.replicate n v) = [BitVec.ofNat w (2 ^ (w - 1) + (n - 3)), v]

/-- R224: RLE8_ENC writes the encoded bytes and their count, or raises CAPACITY. -/
def Obligations.RleEightEncodeWritesTheStream : Prop :=
  decode 0x00000040#32 = .ok .rle8Enc ∧ ∀ s : State, RleReady 1 s →
    let out := rleEncode ((List.range s.cfg.srcLen.toNat).map fun q => s.byteAt (s.cfg.srcBase.toNat + q))
    (out.length ≤ s.cfg.dstCap.toNat →
      ∃ t, exec .rle8Enc s = .next t ∧ Finished s t out.length [⟨s.cfg.dstBase.toNat, out.length⟩] ∧
        ∀ (q : Nat) (h : q < out.length), t.byteAt (s.cfg.dstBase.toNat + q) = out[q]) ∧
      (s.cfg.dstCap.toNat < out.length → ∃ t, exec .rle8Enc s = .next t ∧ RleFailed s t 7#4)

/-- R225: RLE16_ENC, with OUT_LEN in words and DST_CAP in bytes. -/
def Obligations.RleSixteenEncodeWritesTheStream : Prop :=
  decode 0x00000041#32 = .ok .rle16Enc ∧ ∀ s : State, RleReady 2 s →
    let out := rleEncode ((List.range s.cfg.srcLen.toNat).map fun q =>
      s.byteAt (s.cfg.srcBase.toNat + 2 * q + 1) ++ s.byteAt (s.cfg.srcBase.toNat + 2 * q))
    (2 * out.length ≤ s.cfg.dstCap.toNat →
      ∃ t, exec .rle16Enc s = .next t ∧ Finished s t out.length [⟨s.cfg.dstBase.toNat, 2 * out.length⟩] ∧
        ∀ (q : Nat) (h : q < out.length), t.byteAt (s.cfg.dstBase.toNat + 2 * q) = out[q].extractLsb' 0 8 ∧
          t.byteAt (s.cfg.dstBase.toNat + 2 * q + 1) = out[q].extractLsb' 8 8) ∧
      (s.cfg.dstCap.toNat < 2 * out.length → ∃ t, exec .rle16Enc s = .next t ∧ RleFailed s t 7#4)

/-- R227: RLE8_DEC writes the decoded bytes and their count, or raises what the decoder raises. -/
def Obligations.RleEightDecodeWritesTheSymbols : Prop :=
  decode 0x00000042#32 = .ok .rle8Dec ∧ ∀ s : State, RleReady 1 s →
    let r := rleDecode s.cfg.dstCap.toNat
      ((List.range s.cfg.srcLen.toNat).map fun q => s.byteAt (s.cfg.srcBase.toNat + q))
    (∀ out, r = .ok out →
      ∃ t, exec .rle8Dec s = .next t ∧ Finished s t out.length [⟨s.cfg.dstBase.toNat, out.length⟩] ∧
        ∀ (q : Nat) (h : q < out.length), t.byteAt (s.cfg.dstBase.toNat + q) = out[q]) ∧
      (r = .error .rleFormat → ∃ t, exec .rle8Dec s = .next t ∧ RleFailed s t 8#4) ∧
      (r = .error .capacity → ∃ t, exec .rle8Dec s = .next t ∧ RleFailed s t 7#4)

/-- R228: RLE16_DEC, with a capacity of DST_CAP / 2 words, rounded down. -/
def Obligations.RleSixteenDecodeWritesTheSymbols : Prop :=
  decode 0x00000043#32 = .ok .rle16Dec ∧ ∀ s : State, RleReady 2 s →
    let r := rleDecode (s.cfg.dstCap.toNat / 2) ((List.range s.cfg.srcLen.toNat).map fun q =>
      s.byteAt (s.cfg.srcBase.toNat + 2 * q + 1) ++ s.byteAt (s.cfg.srcBase.toNat + 2 * q))
    (∀ out, r = .ok out →
      ∃ t, exec .rle16Dec s = .next t ∧ Finished s t out.length [⟨s.cfg.dstBase.toNat, 2 * out.length⟩] ∧
        ∀ (q : Nat) (h : q < out.length), t.byteAt (s.cfg.dstBase.toNat + 2 * q) = out[q].extractLsb' 0 8 ∧
          t.byteAt (s.cfg.dstBase.toNat + 2 * q + 1) = out[q].extractLsb' 8 8) ∧
      (r = .error .rleFormat → ∃ t, exec .rle16Dec s = .next t ∧ RleFailed s t 8#4) ∧
      (r = .error .capacity → ∃ t, exec .rle16Dec s = .next t ∧ RleFailed s t 7#4)

/-- R114, `20_memory.md` R68, R69: the memory checks of the RLE operations, in order. -/
def Obligations.RleChecksInOrder : Prop :=
  ∀ (s : State) (i : Instr) (k : Nat),
    (i = .rle8Enc ∧ k = 1) ∨ (i = .rle8Dec ∧ k = 1) ∨ (i = .rle16Enc ∧ k = 2) ∨ (i = .rle16Dec ∧ k = 2) →
      (¬RangeOk (rleRegions k s) s → raises i s 5#4) ∧
        (RangeOk (rleRegions k s) s → ¬OverlapOk (rleRegions k s) → raises i s 6#4)

/-- R229 on the machine: the bytes RLE8_ENC leaves decode, by RLE8_DEC into another region that holds them, to the source's bytes. -/
def Obligations.CompressedBuffersDecompress : Prop :=
  ∀ (s t : State) (c : ConfigRegs), RleReady 1 s → exec .rle8Enc s = .next t → t.status.done = true →
    c.srcBase = s.cfg.dstBase → c.srcLen = t.outLen → s.cfg.srcLen.toNat ≤ c.dstCap.toNat →
    RleReady 1 { t with cfg := c } →
      ∃ u, exec .rle8Dec { t with cfg := c } = .next u ∧ u.status.done = true ∧ u.outLen = s.cfg.srcLen ∧
        ∀ q, q < s.cfg.srcLen.toNat → u.byteAt (c.dstBase.toNat + q) = s.byteAt (s.cfg.srcBase.toNat + q)

/-! ## The host's side -/

/-- `10_state.md` R22, R24, R27-R31: while idle, a 32-bit write to an RW register stores its defined bits, reads back so, and changes no
other register (reserved bits read 0); a write to an RO register or an unmapped offset has no effect; a read of an unmapped offset
returns 0. That a read while BUSY = 1 leaves the running operation's destination bytes as they were is the model's choice
(log 22). -/
def Obligations.RegisterWritesFollowTheRegisterMap : Prop :=
  (∀ (s : State) (r : RegName) (v mask : Word) (rest : List HostAction), storedMask r = some mask →
    HostDoes s (.writeReg r.offset .bits32 v) rest → s.status.busy = false →
      ∃ t, step s = .next t ∧ t = { goneOn s rest with cfg := t.cfg } ∧ r.read t = v &&& mask ∧
        ∀ r' : RegName, r' ≠ r → r'.read t = r'.read s) ∧
    (∀ (s : State) (r : RegName) (v : Word) (rest : List HostAction), ReadOnly r →
      HostDoes s (.writeReg r.offset .bits32 v) rest → s.status.busy = false → step s = .next (goneOn s rest)) ∧
    (∀ (s : State) (off : Fin 0x800) (v : Word) (rest : List HostAction), off.val % 4 = 0 →
      0x058 ≤ off.val ∧ off.val < 0x400 → HostDoes s (.writeReg off .bits32 v) rest → s.status.busy = false →
        step s = .next (goneOn s rest)) ∧
    ∀ (s : State) (off : Fin 0x800) (rest : List HostAction), off.val % 4 = 0 → 0x058 ≤ off.val ∧ off.val < 0x400 →
      HostDoes s (.readReg off .bits32) rest → step s = .next { goneOn s rest with busRead := 0#32 }

/-- R26: a write to STATUS while idle clears DONE, ERR with ERRCODE, PAL_OVF and CMD_OVR where the bit written is 1, and changes nothing
else; STATUS reads back with its reserved bits 0. -/
def Obligations.StatusBitsClearWhenWrittenOne : Prop :=
  ∀ (s : State) (v : Word) (rest : List HostAction), HostDoes s (.writeReg 0x004 .bits32 v) rest → s.status.busy = false →
    ∃ t, step s = .next t ∧ t = { goneOn s rest with status := t.status } ∧
      (∀ k, k = 1 ∨ k = 2 ∨ k = 3 ∨ k = 4 → statusBit t k = (statusBit s k && !v.getLsbD k)) ∧
      statusBit t 0 = statusBit s 0 ∧
      (∀ k, 8 ≤ k → k < 12 → statusBit t k = (statusBit s k && !v.getLsbD 2)) ∧
      ∀ k, (5 ≤ k ∧ k < 8) ∨ 12 ≤ k → statusBit t k = false

/-- R23, `70_reset_and_hazards.md` R343, R345, R347: a register access of another width than 32 bits or at an offset that is no multiple of
4, and while BUSY = 1 a write to any register but CMD, is refused: it sets the refusal mark. What else it leaves is not stated (log 7). -/
def Obligations.ForbiddenRegisterAccessesSetTheMark : Prop :=
  (∀ (s : State) (off : Fin 0x800) (width : AccessWidth) (v : Word) (rest : List HostAction),
    width ≠ .bits32 ∨ off.val % 4 ≠ 0 →
    HostDoes s (.writeReg off width v) rest ∨ HostDoes s (.readReg off width) rest →
      ∃ t, step s = .next t ∧ t.refusalMark = true) ∧
    ∀ (s : State) (r : RegName) (v : Word) (rest : List HostAction), r ≠ .cmd →
      HostDoes s (.writeReg r.offset .bits32 v) rest → s.status.busy = true →
        ∃ t, step s = .next t ∧ t.refusalMark = true

/-- R344, R345: while BUSY = 1 an access to a byte of a region of the running operation is refused; every other BMEM access, and every
one while BUSY = 0, does what it says. Which regions a command has that will fail its geometry or tile check (T = 0, H·W not a
multiple of 8) is the model's inference (log 13); that a refused access answers a next state is its choice (log 7), and so is
that the running operation's destination bytes stay as they were in the BUSY window (log 22). -/
def Obligations.RunningRegionsAreClosedToTheHost : Prop :=
  ∀ (s : State) (a : Nat) (b : Byte) (rest : List HostAction), a < s.memSize →
    (s.status.busy = true → InRunningRegion s a → HostDoes s (.writeMem a b) rest ∨ HostDoes s (.readMem a) rest →
      ∃ t, step s = .next t ∧ t.refusalMark = true) ∧
    (s.status.busy = false ∨ ¬InRunningRegion s a → HostDoes s (.writeMem a b) rest →
      ∃ t, step s = .next t ∧ t = { goneOn s rest with mem := t.mem } ∧ t.byteAt a = b ∧
        ∀ a', a' ≠ a → t.byteAt a' = s.byteAt a') ∧
    (s.status.busy = false ∨ ¬InRunningRegion s a → HostDoes s (.readMem a) rest →
      step s = .next { goneOn s rest with busRead := (s.byteAt a).setWidth 32 })

/-- R346: a read of STATUS returns its true value and a read of a configured register or CMD the value last written, busy or not; while
BUSY = 1 a read of a progress register returns a value nothing constrains and changes no register. That
the running operation's destination bytes stay as they were is the model's choice (log 22). -/
def Obligations.ReadsWhileBusy : Prop :=
  ∀ (s : State) (r : RegName) (rest : List HostAction), HostDoes s (.readReg r.offset .bits32) rest →
    (¬ReadOnly r ∨ s.status.busy = false → step s = .next { goneOn s rest with busRead := r.read s }) ∧
      (ReadOnly r → s.status.busy = true →
        ∃ v : Word, step s = .next { goneOn s rest with busRead := v, draws := s.draws + 1 })

/-- R340, R341, R349: the reset input gives every register and the palette its reset value; BMEM is unchanged, but for the destination
regions of an operation in flight. Which regions a command has that will fail its geometry or tile check (T = 0, H·W not a
multiple of 8) is the model's inference (log 13); that the host's program goes on is its choice (log 8), and so is that
the reset input is one action of the host's list (log 23). -/
def Obligations.ResetInputRestoresRegisters : Prop :=
  ∀ (s : State) (rest : List HostAction), HostDoes s .reset rest →
    ∃ t, step s = .next t ∧ t.cmd = 0#32 ∧ RegName.status.read t = 0#32 ∧
      (∀ r : RegName, r ≠ .palNext → r.read t = 0#32) ∧ RegName.palNext.read t = 2#32 ∧ t.memSize = s.memSize ∧
      (∀ a, s.status.busy = false ∨ ¬InRunningDest s a → t.byteAt a = s.byteAt a)

/-- R345, `10_state.md` R41: the refusal mark is never cleared, by any step. -/
def Obligations.RefusalMarkIsNeverCleared : Prop :=
  ∀ s t : State, step s = .next t → s.refusalMark = true → t.refusalMark = true

/-- `30_encoding.md` R98, `60_exceptions.md` R317: every `wait` ends: where the host's next action is a wait, after at most two steps more
than the schedule is long the loop has ended, its last read saw BUSY = 0, and the host's program has gone on to what follows. That
no reset and no access of another agent falls between two polls of a `wait` is the model's choice (log 23, log 14). -/
def Obligations.WaitLoopsEnd : Prop :=
  ∀ (s : State) (rest : List HostAction), s.program = .wait :: rest →
    ∃ (n : Nat) (t : State), n ≤ s.schedule.length + 2 ∧ Host.Core.run Sys2Proof.core n s = .next t ∧
      t.program = rest ∧ t.status.busy = false ∧ t.busRead.getLsbD 0 = false

/-- R97, R98: lines assemble to their bus transactions. -/
def Obligations.HostLinesAssemble : Prop :=
  (∀ (r : RegName) (v : Word), (HostLine.wr r v).assemble = [.writeReg r.offset .bits32 v]) ∧
    (HostLine.run .rasterEncode).assemble = [.writeReg 0x000 .bits32 0x00000020#32, .wait] ∧
    (HostLine.w1c .palOvf).assemble = [.writeReg 0x004 .bits32 0x00000008#32] ∧
    (∀ (a : Nat) (v : Half),
      (HostLine.wr16 a v).assemble = [.writeMem a (v.extractLsb' 0 8), .writeMem (a + 1) (v.extractLsb' 8 8)]) ∧
    RegName.offset (.palEntry 255) = 0x7FC ∧ ∀ r : RegName, RegName.atOffset r.offset = some r

/-! ## The invariant -/

/-- `70_reset_and_hazards.md` R340, `00_scope.md` R7: for every MEM_SIZE from 1 to 2^32 the state after reset satisfies the
invariant, its registers have the values of R340, no byte is listed as written and the refusal mark is clear; and so does
State.reset, whose MEM_SIZE is the model's choice (log 4). -/
def Obligations.ResetStateIsGood : Prop :=
  (∀ n : Nat, 1 ≤ n → n ≤ 2 ^ 32 →
    Inv (State.resetOf n) ∧ (State.resetOf n).memSize = n ∧
      (∀ r : RegName, r ≠ .palNext → r.read (State.resetOf n) = 0#32) ∧ RegName.palNext.read (State.resetOf n) = 2#32 ∧
      (State.resetOf n).mem = [] ∧ (State.resetOf n).refusalMark = false) ∧
    Inv State.reset ∧ (∀ r : RegName, r ≠ .palNext → r.read State.reset = 0#32) ∧
      RegName.palNext.read State.reset = 2#32 ∧ State.reset.mem = [] ∧ State.reset.refusalMark = false

/-- `10_state.md` R34-R36, `40_command_control.md` R110-R118, `20_memory.md` R60: every step of either agent keeps the invariant: BMEM canonical and
inside MEM_SIZE, the palette's invariants, and STATUS consistent. -/
def Obligations.EveryStepKeepsTheInvariant : Prop :=
  ∀ s t : State, Inv s → step s = .next t → Inv t

/-- `00_scope.md` R7, `10_state.md` R41: MEM_SIZE is a parameter, not state: no step of either agent changes it. That it stands
in a field of State is the model's choice (log 4). -/
def Obligations.NoStepChangesMemSize : Prop :=
  ∀ s t : State, step s = .next t → t.memSize = s.memSize
end

