-- ==== Sys2Proof/Laws/State.lean ====
section
/-! SUPPORT. One lemma per field of State per named update, each true by definition, so that no proof unfolds a record
update. -/

namespace Sys2Proof.Machine

open Sys2Proof

variable (s : State)

/-! ## resetOf -/

@[simp] theorem State.resetOf_cmd (n : Nat) : (State.resetOf n).cmd = 0#32 := rfl
@[simp] theorem State.resetOf_status (n : Nat) : (State.resetOf n).status = Status.reset := rfl
@[simp] theorem State.resetOf_cfg (n : Nat) : (State.resetOf n).cfg = ConfigRegs.reset := rfl
@[simp] theorem State.resetOf_result (n : Nat) : (State.resetOf n).result = 0#32 := rfl
@[simp] theorem State.resetOf_outLen (n : Nat) : (State.resetOf n).outLen = 0#32 := rfl
@[simp] theorem State.resetOf_palette (n : Nat) : (State.resetOf n).palette = Palette.reset := rfl
@[simp] theorem State.resetOf_mem (n : Nat) : (State.resetOf n).mem = [] := rfl
@[simp] theorem State.resetOf_refusalMark (n : Nat) : (State.resetOf n).refusalMark = false := rfl
@[simp] theorem State.resetOf_memSize (n : Nat) : (State.resetOf n).memSize = n := rfl
@[simp] theorem State.resetOf_draws (n : Nat) : (State.resetOf n).draws = 0 := rfl
@[simp] theorem State.resetOf_busRead (n : Nat) : (State.resetOf n).busRead = 0#32 := rfl
@[simp] theorem State.resetOf_program (n : Nat) : (State.resetOf n).program = [] := rfl
@[simp] theorem State.resetOf_schedule (n : Nat) : (State.resetOf n).schedule = [] := rfl

/-- State.reset is the reset state at the size of the spec's vectors. -/
theorem State.reset_eq_resetOf : State.reset = State.resetOf 0x10000 := rfl

/-! ## complete -/

@[simp] theorem State.complete_cmd : (s.complete).cmd = s.cmd := rfl
@[simp] theorem State.complete_status : (s.complete).status = s.status.completed := rfl
@[simp] theorem State.complete_cfg : (s.complete).cfg = s.cfg := rfl
@[simp] theorem State.complete_result : (s.complete).result = s.result := rfl
@[simp] theorem State.complete_outLen : (s.complete).outLen = s.outLen := rfl
@[simp] theorem State.complete_palette : (s.complete).palette = s.palette := rfl
@[simp] theorem State.complete_mem : (s.complete).mem = s.mem := rfl
@[simp] theorem State.complete_refusalMark : (s.complete).refusalMark = s.refusalMark := rfl
@[simp] theorem State.complete_memSize : (s.complete).memSize = s.memSize := rfl
@[simp] theorem State.complete_draws : (s.complete).draws = s.draws := rfl
@[simp] theorem State.complete_busRead : (s.complete).busRead = s.busRead := rfl
@[simp] theorem State.complete_program : (s.complete).program = s.program := rfl
@[simp] theorem State.complete_schedule : (s.complete).schedule = s.schedule := rfl

/-! ## raiseError -/

@[simp] theorem State.raiseError_cmd (e : ErrorCode) : (s.raiseError e).cmd = s.cmd := rfl
@[simp] theorem State.raiseError_status (e : ErrorCode) : (s.raiseError e).status = s.status.failed e := rfl
@[simp] theorem State.raiseError_cfg (e : ErrorCode) : (s.raiseError e).cfg = s.cfg := rfl
@[simp] theorem State.raiseError_result (e : ErrorCode) : (s.raiseError e).result = s.result := rfl
@[simp] theorem State.raiseError_outLen (e : ErrorCode) : (s.raiseError e).outLen = s.outLen := rfl
@[simp] theorem State.raiseError_palette (e : ErrorCode) : (s.raiseError e).palette = s.palette := rfl
@[simp] theorem State.raiseError_mem (e : ErrorCode) : (s.raiseError e).mem = s.mem := rfl
@[simp] theorem State.raiseError_refusalMark (e : ErrorCode) : (s.raiseError e).refusalMark = s.refusalMark := rfl
@[simp] theorem State.raiseError_memSize (e : ErrorCode) : (s.raiseError e).memSize = s.memSize := rfl
@[simp] theorem State.raiseError_draws (e : ErrorCode) : (s.raiseError e).draws = s.draws := rfl
@[simp] theorem State.raiseError_busRead (e : ErrorCode) : (s.raiseError e).busRead = s.busRead := rfl
@[simp] theorem State.raiseError_program (e : ErrorCode) : (s.raiseError e).program = s.program := rfl
@[simp] theorem State.raiseError_schedule (e : ErrorCode) : (s.raiseError e).schedule = s.schedule := rfl

/-! ## writeStatus -/

@[simp] theorem State.writeStatus_cmd (v : Word) : (s.writeStatus v).cmd = s.cmd := rfl
@[simp] theorem State.writeStatus_status (v : Word) : (s.writeStatus v).status = s.status.writeOneToClear v := rfl
@[simp] theorem State.writeStatus_cfg (v : Word) : (s.writeStatus v).cfg = s.cfg := rfl
@[simp] theorem State.writeStatus_result (v : Word) : (s.writeStatus v).result = s.result := rfl
@[simp] theorem State.writeStatus_outLen (v : Word) : (s.writeStatus v).outLen = s.outLen := rfl
@[simp] theorem State.writeStatus_palette (v : Word) : (s.writeStatus v).palette = s.palette := rfl
@[simp] theorem State.writeStatus_mem (v : Word) : (s.writeStatus v).mem = s.mem := rfl
@[simp] theorem State.writeStatus_refusalMark (v : Word) : (s.writeStatus v).refusalMark = s.refusalMark := rfl
@[simp] theorem State.writeStatus_memSize (v : Word) : (s.writeStatus v).memSize = s.memSize := rfl
@[simp] theorem State.writeStatus_draws (v : Word) : (s.writeStatus v).draws = s.draws := rfl
@[simp] theorem State.writeStatus_busRead (v : Word) : (s.writeStatus v).busRead = s.busRead := rfl
@[simp] theorem State.writeStatus_program (v : Word) : (s.writeStatus v).program = s.program := rfl
@[simp] theorem State.writeStatus_schedule (v : Word) : (s.writeStatus v).schedule = s.schedule := rfl

/-! ## accept -/

@[simp] theorem State.accept_cmd (c : Word) : (s.accept c).cmd = c := rfl
@[simp] theorem State.accept_status (c : Word) : (s.accept c).status = s.status.accepted := rfl
@[simp] theorem State.accept_cfg (c : Word) : (s.accept c).cfg = s.cfg := rfl
@[simp] theorem State.accept_result (c : Word) : (s.accept c).result = s.result := rfl
@[simp] theorem State.accept_outLen (c : Word) : (s.accept c).outLen = s.outLen := rfl
@[simp] theorem State.accept_palette (c : Word) : (s.accept c).palette = s.palette := rfl
@[simp] theorem State.accept_mem (c : Word) : (s.accept c).mem = s.mem := rfl
@[simp] theorem State.accept_refusalMark (c : Word) : (s.accept c).refusalMark = s.refusalMark := rfl
@[simp] theorem State.accept_memSize (c : Word) : (s.accept c).memSize = s.memSize := rfl
@[simp] theorem State.accept_draws (c : Word) : (s.accept c).draws = s.draws := rfl
@[simp] theorem State.accept_busRead (c : Word) : (s.accept c).busRead = s.busRead := rfl
@[simp] theorem State.accept_program (c : Word) : (s.accept c).program = s.program := rfl
@[simp] theorem State.accept_schedule (c : Word) : (s.accept c).schedule = s.schedule := rfl

/-! ## dropCommand -/

@[simp] theorem State.dropCommand_cmd : (s.dropCommand).cmd = s.cmd := rfl
@[simp] theorem State.dropCommand_status : (s.dropCommand).status = s.status.noteDropped := rfl
@[simp] theorem State.dropCommand_cfg : (s.dropCommand).cfg = s.cfg := rfl
@[simp] theorem State.dropCommand_result : (s.dropCommand).result = s.result := rfl
@[simp] theorem State.dropCommand_outLen : (s.dropCommand).outLen = s.outLen := rfl
@[simp] theorem State.dropCommand_palette : (s.dropCommand).palette = s.palette := rfl
@[simp] theorem State.dropCommand_mem : (s.dropCommand).mem = s.mem := rfl
@[simp] theorem State.dropCommand_refusalMark : (s.dropCommand).refusalMark = s.refusalMark := rfl
@[simp] theorem State.dropCommand_memSize : (s.dropCommand).memSize = s.memSize := rfl
@[simp] theorem State.dropCommand_draws : (s.dropCommand).draws = s.draws := rfl
@[simp] theorem State.dropCommand_busRead : (s.dropCommand).busRead = s.busRead := rfl
@[simp] theorem State.dropCommand_program : (s.dropCommand).program = s.program := rfl
@[simp] theorem State.dropCommand_schedule : (s.dropCommand).schedule = s.schedule := rfl

/-! ## refuse -/

@[simp] theorem State.refuse_cmd : (s.refuse).cmd = s.cmd := rfl
@[simp] theorem State.refuse_status : (s.refuse).status = s.status := rfl
@[simp] theorem State.refuse_cfg : (s.refuse).cfg = s.cfg := rfl
@[simp] theorem State.refuse_result : (s.refuse).result = s.result := rfl
@[simp] theorem State.refuse_outLen : (s.refuse).outLen = s.outLen := rfl
@[simp] theorem State.refuse_palette : (s.refuse).palette = s.palette := rfl
@[simp] theorem State.refuse_mem : (s.refuse).mem = s.mem := rfl
@[simp] theorem State.refuse_refusalMark : (s.refuse).refusalMark = true := rfl
@[simp] theorem State.refuse_memSize : (s.refuse).memSize = s.memSize := rfl
@[simp] theorem State.refuse_draws : (s.refuse).draws = s.draws := rfl
@[simp] theorem State.refuse_busRead : (s.refuse).busRead = s.busRead := rfl
@[simp] theorem State.refuse_program : (s.refuse).program = s.program := rfl
@[simp] theorem State.refuse_schedule : (s.refuse).schedule = s.schedule := rfl

/-! ## setResult -/

@[simp] theorem State.setResult_cmd (v : Word) : (s.setResult v).cmd = s.cmd := rfl
@[simp] theorem State.setResult_status (v : Word) : (s.setResult v).status = s.status := rfl
@[simp] theorem State.setResult_cfg (v : Word) : (s.setResult v).cfg = s.cfg := rfl
@[simp] theorem State.setResult_result (v : Word) : (s.setResult v).result = v := rfl
@[simp] theorem State.setResult_outLen (v : Word) : (s.setResult v).outLen = s.outLen := rfl
@[simp] theorem State.setResult_palette (v : Word) : (s.setResult v).palette = s.palette := rfl
@[simp] theorem State.setResult_mem (v : Word) : (s.setResult v).mem = s.mem := rfl
@[simp] theorem State.setResult_refusalMark (v : Word) : (s.setResult v).refusalMark = s.refusalMark := rfl
@[simp] theorem State.setResult_memSize (v : Word) : (s.setResult v).memSize = s.memSize := rfl
@[simp] theorem State.setResult_draws (v : Word) : (s.setResult v).draws = s.draws := rfl
@[simp] theorem State.setResult_busRead (v : Word) : (s.setResult v).busRead = s.busRead := rfl
@[simp] theorem State.setResult_program (v : Word) : (s.setResult v).program = s.program := rfl
@[simp] theorem State.setResult_schedule (v : Word) : (s.setResult v).schedule = s.schedule := rfl

/-! ## setOutLen -/

@[simp] theorem State.setOutLen_cmd (n : Nat) : (s.setOutLen n).cmd = s.cmd := rfl
@[simp] theorem State.setOutLen_status (n : Nat) : (s.setOutLen n).status = s.status := rfl
@[simp] theorem State.setOutLen_cfg (n : Nat) : (s.setOutLen n).cfg = s.cfg := rfl
@[simp] theorem State.setOutLen_result (n : Nat) : (s.setOutLen n).result = s.result := rfl
@[simp] theorem State.setOutLen_outLen (n : Nat) : (s.setOutLen n).outLen = BitVec.ofNat 32 n := rfl
@[simp] theorem State.setOutLen_palette (n : Nat) : (s.setOutLen n).palette = s.palette := rfl
@[simp] theorem State.setOutLen_mem (n : Nat) : (s.setOutLen n).mem = s.mem := rfl
@[simp] theorem State.setOutLen_refusalMark (n : Nat) : (s.setOutLen n).refusalMark = s.refusalMark := rfl
@[simp] theorem State.setOutLen_memSize (n : Nat) : (s.setOutLen n).memSize = s.memSize := rfl
@[simp] theorem State.setOutLen_draws (n : Nat) : (s.setOutLen n).draws = s.draws := rfl
@[simp] theorem State.setOutLen_busRead (n : Nat) : (s.setOutLen n).busRead = s.busRead := rfl
@[simp] theorem State.setOutLen_program (n : Nat) : (s.setOutLen n).program = s.program := rfl
@[simp] theorem State.setOutLen_schedule (n : Nat) : (s.setOutLen n).schedule = s.schedule := rfl

/-! ## storeBytes -/

@[simp] theorem State.storeBytes_cmd (base : Nat) (bs : List Byte) : (s.storeBytes base bs).cmd = s.cmd := rfl
@[simp] theorem State.storeBytes_status (base : Nat) (bs : List Byte) : (s.storeBytes base bs).status = s.status := rfl
@[simp] theorem State.storeBytes_cfg (base : Nat) (bs : List Byte) : (s.storeBytes base bs).cfg = s.cfg := rfl
@[simp] theorem State.storeBytes_result (base : Nat) (bs : List Byte) : (s.storeBytes base bs).result = s.result := rfl
@[simp] theorem State.storeBytes_outLen (base : Nat) (bs : List Byte) : (s.storeBytes base bs).outLen = s.outLen := rfl
@[simp] theorem State.storeBytes_palette (base : Nat) (bs : List Byte) : (s.storeBytes base bs).palette = s.palette := rfl
@[simp] theorem State.storeBytes_mem (base : Nat) (bs : List Byte) : (s.storeBytes base bs).mem = s.mem.store base bs := rfl
@[simp] theorem State.storeBytes_refusalMark (base : Nat) (bs : List Byte) : (s.storeBytes base bs).refusalMark = s.refusalMark := rfl
@[simp] theorem State.storeBytes_memSize (base : Nat) (bs : List Byte) : (s.storeBytes base bs).memSize = s.memSize := rfl
@[simp] theorem State.storeBytes_draws (base : Nat) (bs : List Byte) : (s.storeBytes base bs).draws = s.draws := rfl
@[simp] theorem State.storeBytes_busRead (base : Nat) (bs : List Byte) : (s.storeBytes base bs).busRead = s.busRead := rfl
@[simp] theorem State.storeBytes_program (base : Nat) (bs : List Byte) : (s.storeBytes base bs).program = s.program := rfl
@[simp] theorem State.storeBytes_schedule (base : Nat) (bs : List Byte) : (s.storeBytes base bs).schedule = s.schedule := rfl

/-! ## havoc -/

@[simp] theorem State.havoc_cmd (r : Region) : (s.havoc r).cmd = s.cmd := rfl
@[simp] theorem State.havoc_status (r : Region) : (s.havoc r).status = s.status := rfl
@[simp] theorem State.havoc_cfg (r : Region) : (s.havoc r).cfg = s.cfg := rfl
@[simp] theorem State.havoc_result (r : Region) : (s.havoc r).result = s.result := rfl
@[simp] theorem State.havoc_outLen (r : Region) : (s.havoc r).outLen = s.outLen := rfl
@[simp] theorem State.havoc_palette (r : Region) : (s.havoc r).palette = s.palette := rfl
@[simp] theorem State.havoc_mem (r : Region) : (s.havoc r).mem = s.mem.store r.base ((List.range (min r.len (s.memSize - r.base))).map fun i => Config.freeByte (s.draws + i)) := rfl
@[simp] theorem State.havoc_refusalMark (r : Region) : (s.havoc r).refusalMark = s.refusalMark := rfl
@[simp] theorem State.havoc_memSize (r : Region) : (s.havoc r).memSize = s.memSize := rfl
@[simp] theorem State.havoc_draws (r : Region) : (s.havoc r).draws = s.draws + min r.len (s.memSize - r.base) := rfl
@[simp] theorem State.havoc_busRead (r : Region) : (s.havoc r).busRead = s.busRead := rfl
@[simp] theorem State.havoc_program (r : Region) : (s.havoc r).program = s.program := rfl
@[simp] theorem State.havoc_schedule (r : Region) : (s.havoc r).schedule = s.schedule := rfl

/-! ## applyAssigned -/

@[simp] theorem State.applyAssigned_cmd (r : Assigned) : (s.applyAssigned r).cmd = s.cmd := rfl
@[simp] theorem State.applyAssigned_status (r : Assigned) : (s.applyAssigned r).status = s.status.noteOverflow r.overflow := rfl
@[simp] theorem State.applyAssigned_cfg (r : Assigned) : (s.applyAssigned r).cfg = s.cfg := rfl
@[simp] theorem State.applyAssigned_result (r : Assigned) : (s.applyAssigned r).result = r.index.setWidth 32 := rfl
@[simp] theorem State.applyAssigned_outLen (r : Assigned) : (s.applyAssigned r).outLen = s.outLen := rfl
@[simp] theorem State.applyAssigned_palette (r : Assigned) : (s.applyAssigned r).palette = r.palette := rfl
@[simp] theorem State.applyAssigned_mem (r : Assigned) : (s.applyAssigned r).mem = s.mem := rfl
@[simp] theorem State.applyAssigned_refusalMark (r : Assigned) : (s.applyAssigned r).refusalMark = s.refusalMark := rfl
@[simp] theorem State.applyAssigned_memSize (r : Assigned) : (s.applyAssigned r).memSize = s.memSize := rfl
@[simp] theorem State.applyAssigned_draws (r : Assigned) : (s.applyAssigned r).draws = s.draws := rfl
@[simp] theorem State.applyAssigned_busRead (r : Assigned) : (s.applyAssigned r).busRead = s.busRead := rfl
@[simp] theorem State.applyAssigned_program (r : Assigned) : (s.applyAssigned r).program = s.program := rfl
@[simp] theorem State.applyAssigned_schedule (r : Assigned) : (s.applyAssigned r).schedule = s.schedule := rfl

/-! ## palReset -/

@[simp] theorem State.palReset_cmd : (s.palReset).cmd = s.cmd := rfl
@[simp] theorem State.palReset_status : (s.palReset).status = s.status.clearOverflow := rfl
@[simp] theorem State.palReset_cfg : (s.palReset).cfg = s.cfg := rfl
@[simp] theorem State.palReset_result : (s.palReset).result = s.result := rfl
@[simp] theorem State.palReset_outLen : (s.palReset).outLen = s.outLen := rfl
@[simp] theorem State.palReset_palette : (s.palReset).palette = Palette.reset := rfl
@[simp] theorem State.palReset_mem : (s.palReset).mem = s.mem := rfl
@[simp] theorem State.palReset_refusalMark : (s.palReset).refusalMark = s.refusalMark := rfl
@[simp] theorem State.palReset_memSize : (s.palReset).memSize = s.memSize := rfl
@[simp] theorem State.palReset_draws : (s.palReset).draws = s.draws := rfl
@[simp] theorem State.palReset_busRead : (s.palReset).busRead = s.busRead := rfl
@[simp] theorem State.palReset_program : (s.palReset).program = s.program := rfl
@[simp] theorem State.palReset_schedule : (s.palReset).schedule = s.schedule := rfl

/-! ## withCfg -/

@[simp] theorem State.withCfg_cmd (c : ConfigRegs) : (s.withCfg c).cmd = s.cmd := rfl
@[simp] theorem State.withCfg_status (c : ConfigRegs) : (s.withCfg c).status = s.status := rfl
@[simp] theorem State.withCfg_cfg (c : ConfigRegs) : (s.withCfg c).cfg = c := rfl
@[simp] theorem State.withCfg_result (c : ConfigRegs) : (s.withCfg c).result = s.result := rfl
@[simp] theorem State.withCfg_outLen (c : ConfigRegs) : (s.withCfg c).outLen = s.outLen := rfl
@[simp] theorem State.withCfg_palette (c : ConfigRegs) : (s.withCfg c).palette = s.palette := rfl
@[simp] theorem State.withCfg_mem (c : ConfigRegs) : (s.withCfg c).mem = s.mem := rfl
@[simp] theorem State.withCfg_refusalMark (c : ConfigRegs) : (s.withCfg c).refusalMark = s.refusalMark := rfl
@[simp] theorem State.withCfg_memSize (c : ConfigRegs) : (s.withCfg c).memSize = s.memSize := rfl
@[simp] theorem State.withCfg_draws (c : ConfigRegs) : (s.withCfg c).draws = s.draws := rfl
@[simp] theorem State.withCfg_busRead (c : ConfigRegs) : (s.withCfg c).busRead = s.busRead := rfl
@[simp] theorem State.withCfg_program (c : ConfigRegs) : (s.withCfg c).program = s.program := rfl
@[simp] theorem State.withCfg_schedule (c : ConfigRegs) : (s.withCfg c).schedule = s.schedule := rfl

/-! ## returns -/

@[simp] theorem State.returns_cmd (v : Word) : (s.returns v).cmd = s.cmd := rfl
@[simp] theorem State.returns_status (v : Word) : (s.returns v).status = s.status := rfl
@[simp] theorem State.returns_cfg (v : Word) : (s.returns v).cfg = s.cfg := rfl
@[simp] theorem State.returns_result (v : Word) : (s.returns v).result = s.result := rfl
@[simp] theorem State.returns_outLen (v : Word) : (s.returns v).outLen = s.outLen := rfl
@[simp] theorem State.returns_palette (v : Word) : (s.returns v).palette = s.palette := rfl
@[simp] theorem State.returns_mem (v : Word) : (s.returns v).mem = s.mem := rfl
@[simp] theorem State.returns_refusalMark (v : Word) : (s.returns v).refusalMark = s.refusalMark := rfl
@[simp] theorem State.returns_memSize (v : Word) : (s.returns v).memSize = s.memSize := rfl
@[simp] theorem State.returns_draws (v : Word) : (s.returns v).draws = s.draws := rfl
@[simp] theorem State.returns_busRead (v : Word) : (s.returns v).busRead = v := rfl
@[simp] theorem State.returns_program (v : Word) : (s.returns v).program = s.program := rfl
@[simp] theorem State.returns_schedule (v : Word) : (s.returns v).schedule = s.schedule := rfl

/-! ## returnsFree -/

@[simp] theorem State.returnsFree_cmd : (s.returnsFree).cmd = s.cmd := rfl
@[simp] theorem State.returnsFree_status : (s.returnsFree).status = s.status := rfl
@[simp] theorem State.returnsFree_cfg : (s.returnsFree).cfg = s.cfg := rfl
@[simp] theorem State.returnsFree_result : (s.returnsFree).result = s.result := rfl
@[simp] theorem State.returnsFree_outLen : (s.returnsFree).outLen = s.outLen := rfl
@[simp] theorem State.returnsFree_palette : (s.returnsFree).palette = s.palette := rfl
@[simp] theorem State.returnsFree_mem : (s.returnsFree).mem = s.mem := rfl
@[simp] theorem State.returnsFree_refusalMark : (s.returnsFree).refusalMark = s.refusalMark := rfl
@[simp] theorem State.returnsFree_memSize : (s.returnsFree).memSize = s.memSize := rfl
@[simp] theorem State.returnsFree_draws : (s.returnsFree).draws = s.draws + 1 := rfl
@[simp] theorem State.returnsFree_busRead : (s.returnsFree).busRead = Config.freeWord s.draws := rfl
@[simp] theorem State.returnsFree_program : (s.returnsFree).program = s.program := rfl
@[simp] theorem State.returnsFree_schedule : (s.returnsFree).schedule = s.schedule := rfl

/-! ## scheduleOn -/

@[simp] theorem State.scheduleOn_cmd : (s.scheduleOn).cmd = s.cmd := rfl
@[simp] theorem State.scheduleOn_status : (s.scheduleOn).status = s.status := rfl
@[simp] theorem State.scheduleOn_cfg : (s.scheduleOn).cfg = s.cfg := rfl
@[simp] theorem State.scheduleOn_result : (s.scheduleOn).result = s.result := rfl
@[simp] theorem State.scheduleOn_outLen : (s.scheduleOn).outLen = s.outLen := rfl
@[simp] theorem State.scheduleOn_palette : (s.scheduleOn).palette = s.palette := rfl
@[simp] theorem State.scheduleOn_mem : (s.scheduleOn).mem = s.mem := rfl
@[simp] theorem State.scheduleOn_refusalMark : (s.scheduleOn).refusalMark = s.refusalMark := rfl
@[simp] theorem State.scheduleOn_memSize : (s.scheduleOn).memSize = s.memSize := rfl
@[simp] theorem State.scheduleOn_draws : (s.scheduleOn).draws = s.draws := rfl
@[simp] theorem State.scheduleOn_busRead : (s.scheduleOn).busRead = s.busRead := rfl
@[simp] theorem State.scheduleOn_program : (s.scheduleOn).program = s.program := rfl
@[simp] theorem State.scheduleOn_schedule : (s.scheduleOn).schedule = s.schedule.tail := rfl

/-! ## STATUS -/

variable (t : Status)

@[simp] theorem Status.accepted_busy : (t.accepted).busy = true := rfl
@[simp] theorem Status.accepted_done : (t.accepted).done = false := rfl
@[simp] theorem Status.accepted_err : (t.accepted).err = false := rfl
@[simp] theorem Status.accepted_palOvf : (t.accepted).palOvf = t.palOvf := rfl
@[simp] theorem Status.accepted_cmdOvr : (t.accepted).cmdOvr = t.cmdOvr := rfl
@[simp] theorem Status.accepted_errCode : (t.accepted).errCode = 0#4 := rfl

@[simp] theorem Status.completed_busy : (t.completed).busy = false := rfl
@[simp] theorem Status.completed_done : (t.completed).done = true := rfl
@[simp] theorem Status.completed_err : (t.completed).err = t.err := rfl
@[simp] theorem Status.completed_palOvf : (t.completed).palOvf = t.palOvf := rfl
@[simp] theorem Status.completed_cmdOvr : (t.completed).cmdOvr = t.cmdOvr := rfl
@[simp] theorem Status.completed_errCode : (t.completed).errCode = t.errCode := rfl

@[simp] theorem Status.failed_busy (e : ErrorCode) : (t.failed e).busy = false := rfl
@[simp] theorem Status.failed_done (e : ErrorCode) : (t.failed e).done = false := rfl
@[simp] theorem Status.failed_err (e : ErrorCode) : (t.failed e).err = true := rfl
@[simp] theorem Status.failed_palOvf (e : ErrorCode) : (t.failed e).palOvf = t.palOvf := rfl
@[simp] theorem Status.failed_cmdOvr (e : ErrorCode) : (t.failed e).cmdOvr = t.cmdOvr := rfl
@[simp] theorem Status.failed_errCode (e : ErrorCode) : (t.failed e).errCode = e.code := rfl

@[simp] theorem Status.noteOverflow_busy (b : Bool) : (t.noteOverflow b).busy = t.busy := rfl
@[simp] theorem Status.noteOverflow_done (b : Bool) : (t.noteOverflow b).done = t.done := rfl
@[simp] theorem Status.noteOverflow_err (b : Bool) : (t.noteOverflow b).err = t.err := rfl
@[simp] theorem Status.noteOverflow_palOvf (b : Bool) : (t.noteOverflow b).palOvf = (t.palOvf || b) := rfl
@[simp] theorem Status.noteOverflow_cmdOvr (b : Bool) : (t.noteOverflow b).cmdOvr = t.cmdOvr := rfl
@[simp] theorem Status.noteOverflow_errCode (b : Bool) : (t.noteOverflow b).errCode = t.errCode := rfl

@[simp] theorem Status.clearOverflow_busy : (t.clearOverflow).busy = t.busy := rfl
@[simp] theorem Status.clearOverflow_done : (t.clearOverflow).done = t.done := rfl
@[simp] theorem Status.clearOverflow_err : (t.clearOverflow).err = t.err := rfl
@[simp] theorem Status.clearOverflow_palOvf : (t.clearOverflow).palOvf = false := rfl
@[simp] theorem Status.clearOverflow_cmdOvr : (t.clearOverflow).cmdOvr = t.cmdOvr := rfl
@[simp] theorem Status.clearOverflow_errCode : (t.clearOverflow).errCode = t.errCode := rfl

@[simp] theorem Status.noteDropped_busy : (t.noteDropped).busy = t.busy := rfl
@[simp] theorem Status.noteDropped_done : (t.noteDropped).done = t.done := rfl
@[simp] theorem Status.noteDropped_err : (t.noteDropped).err = t.err := rfl
@[simp] theorem Status.noteDropped_palOvf : (t.noteDropped).palOvf = t.palOvf := rfl
@[simp] theorem Status.noteDropped_cmdOvr : (t.noteDropped).cmdOvr = true := rfl
@[simp] theorem Status.noteDropped_errCode : (t.noteDropped).errCode = t.errCode := rfl

@[simp] theorem Status.writeOneToClear_busy (v : Word) : (t.writeOneToClear v).busy = t.busy := rfl
@[simp] theorem Status.writeOneToClear_done (v : Word) : (t.writeOneToClear v).done = (t.done && !v.getLsbD 1) := rfl
@[simp] theorem Status.writeOneToClear_err (v : Word) : (t.writeOneToClear v).err = (t.err && !v.getLsbD 2) := rfl
@[simp] theorem Status.writeOneToClear_palOvf (v : Word) : (t.writeOneToClear v).palOvf = (t.palOvf && !v.getLsbD 3) := rfl
@[simp] theorem Status.writeOneToClear_cmdOvr (v : Word) : (t.writeOneToClear v).cmdOvr = (t.cmdOvr && !v.getLsbD 4) := rfl
@[simp] theorem Status.writeOneToClear_errCode (v : Word) : (t.writeOneToClear v).errCode = if v.getLsbD 2 then 0#4 else t.errCode := rfl

end Sys2Proof.Machine
end

