-- ==== Sys2Proof/Laws/Memory.lean ====
section
/-! SUPPORT. The laws of BMEM: what a read gives after a write, and that every write keeps the canonical form. -/

namespace Sys2Proof.Machine

open Sys2Proof

/-! ## Reading -/

theorem Memory.read?_append (m₁ m₂ : Memory) (a : Nat) :
    Memory.read? (m₁ ++ m₂) a = (Memory.read? m₁ a).or (Memory.read? m₂ a) := by
  induction m₁ with
  | nil => simp [Memory.read?]
  | cons c m ih =>
    by_cases h : c.1 = a
    · simp [Memory.read?, h]
    · simp [Memory.read?, h, ih]

theorem Memory.read?_filter (p : Nat → Bool) (m : Memory) (a : Nat) :
    Memory.read? (m.filter fun c => p c.1) a = if p a then Memory.read? m a else none := by
  induction m with
  | nil => simp [Memory.read?]
  | cons c m ih =>
    by_cases h : c.1 = a
    · subst h
      by_cases hp : p c.1 = true
      · simp [Memory.read?, hp]
      · simp [hp] at ih ⊢
        simpa using ih
    · by_cases hp : p c.1 = true
      · simp [Memory.read?, hp, h, ih]
      · simp [Memory.read?, hp, h, ih]

theorem read?_cellsFrom (base : Nat) (bs : List Byte) (a : Nat) :
    Memory.read? (cellsFrom base bs) a = if base ≤ a then bs[a - base]? else none := by
  induction bs generalizing base with
  | nil => simp [cellsFrom, Memory.read?]
  | cons b bs ih =>
    simp only [cellsFrom, Memory.read?, ih]
    by_cases h : base = a
    · subst h; simp
    · by_cases hlt : base + 1 ≤ a
      · have : a - base = (a - (base + 1)) + 1 := by omega
        have h2 : base ≤ a := by omega
        simp [h, h2, this]
        omega
      · have h2 : ¬base ≤ a := by omega
        simp [h, hlt, h2]

/-- What one address reads as after consecutive bytes are stored. -/
theorem Memory.read?_store (base : Nat) (bs : List Byte) (m : Memory) (a : Nat) :
    (m.store base bs).read? a =
      if base ≤ a ∧ a < base + bs.length then bs[a - base]? else m.read? a := by
  have h₁ := Memory.read?_filter (fun k => decide (k < base)) m a
  have h₂ := Memory.read?_filter (fun k => decide (base + bs.length ≤ k)) m a
  simp only [Memory.store, Memory.read?_append, h₁, h₂, read?_cellsFrom]
  by_cases hin : base ≤ a ∧ a < base + bs.length
  · obtain ⟨hl, hr⟩ := hin
    have n1 : ¬a < base := by omega
    have hidx : a - base < bs.length := by omega
    simp [n1, hl, hr, List.getElem?_eq_getElem hidx]
  · by_cases hlo : a < base
    · have n2 : ¬base ≤ a := by omega
      have n3 : ¬base + bs.length ≤ a := by omega
      cases Memory.read? m a <;> simp [hlo, n2, n3]
    · have h3 : base + bs.length ≤ a := by omega
      have h4 : base ≤ a := by omega
      have n5 : ¬a < base + bs.length := by omega
      have h6 : bs.length ≤ a - base := by omega
      simp [hlo, h3, h4, n5, List.getElem?_eq_none h6]

/-- A read of a byte that was stored gives the byte. -/
theorem State.byteAt_storeBytes_in (s : State) (base : Nat) (bs : List Byte) (i : Nat) (h : i < bs.length) :
    (s.storeBytes base bs).byteAt (base + i) = bs[i] := by
  simp [State.byteAt, Memory.read?_store, h]

/-- A read outside the stored bytes gives what it gave before. -/
theorem State.byteAt_storeBytes_out (s : State) (base : Nat) (bs : List Byte) (a : Nat)
    (h : a < base ∨ base + bs.length ≤ a) : (s.storeBytes base bs).byteAt a = s.byteAt a := by
  have : ¬(base ≤ a ∧ a < base + bs.length) := by omega
  simp [State.byteAt, Memory.read?_store, this]

/-- The bytes of BMEM depend on the list of written bytes alone. -/
theorem State.byteAt_congr {s t : State} (h : s.mem = t.mem) (a : Nat) : s.byteAt a = t.byteAt a := by
  simp [State.byteAt, h]

/-- Drawing a region free changes no byte outside it. -/
theorem State.byteAt_havoc_out (s : State) (r : Region) (a : Nat) (h : a < r.base ∨ r.base + r.len ≤ a) :
    (s.havoc r).byteAt a = s.byteAt a := by
  have : ¬(r.base ≤ a ∧ a < r.base + min r.len (s.memSize - r.base)) := by omega
  simp [State.byteAt, Memory.read?_store, this]

/-! ## Elements of two bytes -/

theorem getElem?_flatMap_chunks {α β : Type} (f : α → List β) (k : Nat) (hk : ∀ x, (f x).length = k) (xs : List α)
    (q b : Nat) (hb : b < k) : (xs.flatMap f)[k * q + b]? = (xs[q]?).bind fun x => (f x)[b]? := by
  induction xs generalizing q with
  | nil => simp
  | cons x xs ih =>
    rw [List.flatMap_cons]
    cases q with
    | zero => rw [List.getElem?_append_left (by rw [hk]; omega)]; simp
    | succ q =>
      rw [List.getElem?_append_right (by rw [hk, Nat.mul_succ]; omega)]
      have : k * (q + 1) + b - (f x).length = k * q + b := by rw [hk, Nat.mul_succ]; omega
      rw [this, ih]; simp

theorem length_flatMap_chunks {α β : Type} (f : α → List β) (k : Nat) (hk : ∀ x, (f x).length = k) (xs : List α) :
    (xs.flatMap f).length = k * xs.length := by
  induction xs with
  | nil => simp
  | cons x xs ih => rw [List.flatMap_cons, List.length_append, hk, ih, List.length_cons, Nat.mul_succ]; omega

@[simp] theorem length_littleEndian (v : Half) : (littleEndian v).length = 2 := rfl

@[simp] theorem length_bigEndian (v : Half) : (bigEndian v).length = 2 := rfl

theorem high_append_low (v : Half) : v.extractLsb' 8 8 ++ v.extractLsb' 0 8 = v := by
  apply BitVec.eq_of_getLsbD_eq
  intro i hi
  rw [BitVec.getLsbD_append]
  by_cases h : i < 8
  · simp [h]
  · have : 8 + (i - 8) = i := by omega
    simp [h, this]
    omega

/-- A stored 16-bit element reads back as itself. -/
theorem State.halfAt_storeBytes_littleEndian (s : State) (base : Nat) (ws : List Half) (q : Nat) (h : q < ws.length) :
    (s.storeBytes base (ws.flatMap littleEndian)).halfAt (base + 2 * q) = ws[q] := by
  have hlen := length_flatMap_chunks littleEndian 2 length_littleEndian ws
  have h0 : 2 * q < (ws.flatMap littleEndian).length := by omega
  have h1 : 2 * q + 1 < (ws.flatMap littleEndian).length := by omega
  have e0 := getElem?_flatMap_chunks littleEndian 2 length_littleEndian ws q 0 (by omega)
  have e1 := getElem?_flatMap_chunks littleEndian 2 length_littleEndian ws q 1 (by omega)
  have b0 : (ws.flatMap littleEndian)[2 * q] = ws[q].extractLsb' 0 8 := by
    rw [Nat.add_zero, List.getElem?_eq_getElem h0, List.getElem?_eq_getElem h] at e0
    simpa [littleEndian] using e0
  have b1 : (ws.flatMap littleEndian)[2 * q + 1] = ws[q].extractLsb' 8 8 := by
    rw [List.getElem?_eq_getElem h1, List.getElem?_eq_getElem h] at e1
    simpa [littleEndian] using e1
  rw [State.halfAt, Nat.add_assoc, State.byteAt_storeBytes_in _ _ _ _ h1, State.byteAt_storeBytes_in _ _ _ _ h0, b0, b1,
    high_append_low]

/-! ## The canonical form -/

theorem Memory.wf_iff (m : Memory) : m.wf = true ↔ List.Pairwise (fun c d : Host.Cell => c.1 < d.1) m := by
  simp [Memory.wf]

theorem mem_cellsFrom {base : Nat} {bs : List Byte} {c : Host.Cell} (h : c ∈ cellsFrom base bs) :
    base ≤ c.1 ∧ c.1 < base + bs.length := by
  induction bs generalizing base with
  | nil => simp [cellsFrom] at h
  | cons b bs ih =>
    rcases List.mem_cons.mp h with rfl | h
    · simp
    · have := ih h
      simp only [List.length_cons]
      omega

theorem pairwise_cellsFrom (base : Nat) (bs : List Byte) :
    List.Pairwise (fun c d : Host.Cell => c.1 < d.1) (cellsFrom base bs) := by
  induction bs generalizing base with
  | nil => exact List.Pairwise.nil
  | cons b bs ih =>
    refine List.pairwise_cons.mpr ⟨fun c hc => ?_, ih (base + 1)⟩
    have := mem_cellsFrom hc
    show base < c.1
    omega

/-- Every write keeps the canonical form. -/
theorem Memory.wf_store (base : Nat) (bs : List Byte) (m : Memory) (h : m.wf = true) : (m.store base bs).wf = true := by
  rw [Memory.wf_iff] at h ⊢
  refine List.pairwise_append.mpr ⟨List.pairwise_append.mpr ⟨h.filter _, pairwise_cellsFrom base bs, ?_⟩, h.filter _, ?_⟩
  · intro c hc d hd
    have h₁ := mem_cellsFrom hd
    have h₂ : c.1 < base := by simpa using (List.mem_filter.mp hc).2
    omega
  · intro c hc d hd
    have h₂ : base + bs.length ≤ d.1 := by simpa using (List.mem_filter.mp hd).2
    rcases List.mem_append.mp hc with hc | hc
    · have h₁ : c.1 < base := by simpa using (List.mem_filter.mp hc).2
      omega
    · have := mem_cellsFrom hc
      omega

/-- A write inside a bound leaves every listed address inside it. -/
theorem Memory.store_inside (base : Nat) (bs : List Byte) (m : Memory) (bound : Nat) (h : ∀ c ∈ m, c.1 < bound)
    (hb : bs = [] ∨ base + bs.length ≤ bound) : ∀ c ∈ m.store base bs, c.1 < bound := by
  intro c hc
  simp only [Memory.store, List.mem_append] at hc
  rcases hc with (hc | hc) | hc
  · exact h c (List.mem_filter.mp hc).1
  · have := mem_cellsFrom hc
    rcases hb with rfl | hb
    · simp [cellsFrom] at hc
    · omega
  · exact h c (List.mem_filter.mp hc).1

theorem Memory.wf_reset : State.reset.mem.wf = true := by decide

end Sys2Proof.Machine
end

