-- ==== Sys2Proof/Laws/Checks.lean ====
section
/-! SUPPORT. The checks before an operation: the region checks as propositions, and what a checked operation can do. -/

namespace Sys2Proof.Machine

open Sys2Proof

theorem Region.admitted_iff (r : Region) (n : Nat) : r.admitted n = true ↔ r.len = 0 ∨ r.base + r.len ≤ n := by
  simp [Region.admitted]

theorem Region.overlaps_iff (p q : Region) :
    p.overlaps q = true ↔ 0 < p.len ∧ 0 < q.len ∧ p.base < q.base + q.len ∧ q.base < p.base + p.len := by
  simp [Region.overlaps, and_assoc]

theorem rangeOk_iff (rs : List Region) (n : Nat) :
    rangeOk rs n = true ↔ ∀ r ∈ rs, r.len = 0 ∨ r.base + r.len ≤ n := by
  simp [rangeOk, Region.admitted_iff]

theorem overlapOk_iff (rs : List Region) :
    overlapOk rs = true ↔
      List.Pairwise (fun p q => ¬(0 < p.len ∧ 0 < q.len ∧ p.base < q.base + q.len ∧ q.base < p.base + p.len)) rs := by
  induction rs with
  | nil => simp [overlapOk]
  | cons r rs ih =>
    simp only [overlapOk, Bool.and_eq_true, ih, List.pairwise_cons, List.all_eq_true, Bool.not_eq_true',
      ← Region.overlaps_iff, Bool.not_eq_true]

/-- No check fails exactly when every one passes. -/
theorem firstFailing_eq_none_iff (checks : List (Bool × ErrorCode)) :
    firstFailing checks = none ↔ ∀ c ∈ checks, c.1 = false := by
  induction checks with
  | nil => simp [firstFailing]
  | cons c rest ih =>
    obtain ⟨fails, e⟩ := c
    cases fails <;> simp [firstFailing, ih]

@[simp] theorem firstFailing_nil : firstFailing [] = none := rfl

@[simp] theorem firstFailing_cons (fails : Bool) (e : ErrorCode) (rest : List (Bool × ErrorCode)) :
    firstFailing ((fails, e) :: rest) = if fails then some e else firstFailing rest := rfl

/-- Everything a checked operation can do: raise the error of a failing check, or run its body with every check passed. -/
theorem runChecked_cases {checks : List (Bool × ErrorCode)} {body : State → State} {s t : State}
    (h : runChecked checks body s = .next t) :
    (∃ e, firstFailing checks = some e ∧ t = s.raiseError e) ∨ (firstFailing checks = none ∧ t = body s) := by
  unfold runChecked at h
  split at h
  · next e he => cases h; exact .inl ⟨e, he, rfl⟩
  · next he => cases h; exact .inr ⟨he, rfl⟩

theorem runChecked_eq_body {checks : List (Bool × ErrorCode)} {body : State → State} {s : State}
    (h : firstFailing checks = none) : runChecked checks body s = .next (body s) := by
  simp [runChecked, h]

theorem runChecked_eq_raise {checks : List (Bool × ErrorCode)} {body : State → State} {s : State} {e : ErrorCode}
    (h : firstFailing checks = some e) : runChecked checks body s = .next (s.raiseError e) := by
  simp [runChecked, h]

/-! ## The checks of the operands as propositions -/

theorem ColorFormat.ofBits_isNone_iff (f : BitVec 2) : (ColorFormat.ofBits f).isNone = true ↔ f = 3#2 := by
  revert f; decide

theorem State.badFmt_iff (s : State) :
    s.badFmt = true ↔ s.cfg.encCfg.enC16 = true ∧ s.cfg.encCfg.fmt16 = 3#2 := by
  simp only [State.badFmt, Bool.and_eq_true, ColorFormat.ofBits_isNone_iff]

theorem State.badGeometry_iff (s : State) : s.badGeometry = true ↔ s.w = 0 ∨ s.h = 0 := by simp [State.badGeometry]

theorem State.badTile_iff (s : State) :
    s.badTile = true ↔ s.t = 0 ∨ s.t % 2 ≠ 0 ∨ s.w % s.t ≠ 0 ∨ s.h % s.t ≠ 0 := by
  simp [State.badTile, or_assoc]

theorem State.badTile1bit_iff (s : State) : s.badTile1bit = true ↔ s.badTile = true ∨ s.t % 8 ≠ 0 := by
  simp [State.badTile1bit]

end Sys2Proof.Machine
end

