-- ==== Sys2Proof/Laws/Palette.lean ====
section
/-! SUPPORT. The palette builder: what a lookup finds, what an assignment can do, and its invariant along a scan. -/

namespace Sys2Proof.Machine

open Sys2Proof

theorem Palette.get_eq_entry (p : Palette) (k : Fin 256) : p.get k = p.entry[k] := by
  simp [Palette.get]

theorem Palette.get_past (p : Palette) (k : Nat) (h : 256 ≤ k) : p.get k = 0#16 := by
  simp [Palette.get, h]

@[simp] theorem Palette.reset_get (k : Nat) : Palette.reset.get k = 0#16 := by
  by_cases h : k < 256
  · simp [Palette.get, Palette.reset, h]
  · exact Palette.get_past _ _ (by omega)

@[simp] theorem Palette.bind_next (p : Palette) (c : Color15) : (p.bind c).next = p.next + 1#9 := rfl

@[simp] theorem Palette.bind_ovfCnt (p : Palette) (c : Color15) : (p.bind c).ovfCnt = p.ovfCnt := rfl

@[simp] theorem Palette.countOverflow_next (p : Palette) : p.countOverflow.next = p.next := rfl

@[simp] theorem Palette.countOverflow_ovfCnt (p : Palette) : p.countOverflow.ovfCnt = p.ovfCnt + 1#32 := rfl

@[simp] theorem Palette.countOverflow_get (p : Palette) (k : Nat) : p.countOverflow.get k = p.get k := rfl

theorem Palette.bind_next_toNat (p : Palette) (c : Color15) (h : p.next.toNat ≤ 255) :
    (p.bind c).next.toNat = p.next.toNat + 1 := by
  simp only [Palette.bind_next, BitVec.toNat_add, BitVec.toNat_ofNat]
  omega

/-- Binding changes the entry PAL_NEXT alone. -/
theorem Palette.bind_get (p : Palette) (c : Color15) (h : p.next.toNat ≤ 255) (k : Nat) :
    (p.bind c).get k = if k = p.next.toNat then c.setWidth 16 else p.get k := by
  simp only [Palette.get, Palette.bind, Vector.getElem?_setIfInBounds]
  by_cases hk : p.next.toNat = k
  · subst hk
    have : p.next.toNat < 256 := by omega
    simp [this]
  · have : ¬k = p.next.toNat := fun e => hk e.symm
    simp [hk, this]

/-- A lookup finds the first bound index that holds the colour. -/
theorem Palette.lookup_eq_some_iff (p : Palette) (c : Color15) (k : Nat) :
    p.lookup c = some k ↔
      2 ≤ k ∧ k < p.next.toNat ∧ p.get k = c.setWidth 16 ∧ ∀ j, 2 ≤ j → j < k → p.get j ≠ c.setWidth 16 := by
  unfold Palette.lookup
  rw [List.find?_range'_eq_some]
  simp only [beq_iff_eq, List.mem_range'_1, Bool.not_eq_true', beq_eq_false_iff_ne, Config.palFirstFree]
  constructor
  · rintro ⟨hk, ⟨h2, hlt⟩, hj⟩
    exact ⟨h2, by omega, hk, hj⟩
  · rintro ⟨h2, hlt, hk, hj⟩
    exact ⟨hk, ⟨h2, by omega⟩, hj⟩

/-- A lookup finds nothing exactly when no bound index from 2 on holds the colour. -/
theorem Palette.lookup_eq_none_iff (p : Palette) (c : Color15) :
    p.lookup c = none ↔ ∀ j, 2 ≤ j → j < p.next.toNat → p.get j ≠ c.setWidth 16 := by
  unfold Palette.lookup
  rw [List.find?_eq_none]
  simp only [List.mem_range'_1, beq_iff_eq, Config.palFirstFree]
  constructor
  · intro h j h2 hlt
    exact h j ⟨h2, by omega⟩
  · rintro h j ⟨h2, hlt⟩
    exact h j h2 (by omega)

/-- Everything an assignment can do (`42_palette_builder.md` R161, R162). -/
theorem Palette.assign_cases (p : Palette) (c : Color15) :
    (c = 0#15 ∧ p.assign c = ⟨1#8, p, false⟩) ∨
      (c ≠ 0#15 ∧ ∃ k, p.lookup c = some k ∧ p.assign c = ⟨BitVec.ofNat 8 k, p, false⟩) ∨
      (c ≠ 0#15 ∧ p.lookup c = none ∧ p.next.toNat ≤ 255 ∧
        p.assign c = ⟨BitVec.ofNat 8 p.next.toNat, p.bind c, false⟩) ∨
      (c ≠ 0#15 ∧ p.lookup c = none ∧ 255 < p.next.toNat ∧ p.assign c = ⟨255#8, p.countOverflow, true⟩) := by
  unfold Palette.assign
  by_cases hc : c = 0#15
  · simp [hc]
  · cases hl : p.lookup c with
    | some k => simp [hc]
    | none =>
      by_cases hn : p.next.toNat ≤ 255
      · simp [hc, hn, Config.palOvfIndex]
      · have : 255 < p.next.toNat := by omega
        simp [hc, hn, this, Config.palOvfIndex]

theorem Status.reset_inv : Status.reset.Inv := ⟨by decide, by decide, by decide, by decide⟩

theorem Palette.reset_inv : Palette.reset.Inv where
  nextLow := by decide
  nextHigh := by decide
  bit15 k := by simp
  entry0 := by simp
  entry1 := by simp
  bound k h2 hk := by
    have : Palette.reset.next.toNat = 2 := by decide
    omega
  distinct j k h2 hjk hk := by
    have : Palette.reset.next.toNat = 2 := by decide
    omega
  unbound k _ := by simp

theorem setWidth16_ne_zero (c : Color15) (h : c ≠ 0#15) : c.setWidth 16 ≠ 0#16 := by
  intro e
  apply h
  apply BitVec.eq_of_toNat_eq
  have := congrArg BitVec.toNat e
  simp only [BitVec.toNat_setWidth, BitVec.toNat_ofNat] at this ⊢
  omega

/-- Binding a new colour keeps the palette's invariant. -/
theorem Palette.bind_inv (p : Palette) (c : Color15) (h : p.Inv) (hc : c ≠ 0#15) (hl : p.lookup c = none)
    (hn : p.next.toNat ≤ 255) : (p.bind c).Inv := by
  have hnext := p.bind_next_toNat c hn
  have hget := p.bind_get c hn
  have hne := setWidth16_ne_zero c hc
  have hnone := (p.lookup_eq_none_iff c).mp hl
  have hlow := h.nextLow
  refine ⟨by omega, by omega, fun k => ?_, ?_, ?_, fun k h2 hk => ?_, fun j k h2 hjk hk => ?_, fun k hk => ?_⟩
  · rw [hget]; split
    · simp
    · exact h.bit15 k
  · rw [hget, if_neg (by omega)]; exact h.entry0
  · rw [hget, if_neg (by omega)]; exact h.entry1
  · rw [hget]; split
    · exact hne
    · exact h.bound k h2 (by omega)
  · rw [hget, hget, if_neg (by omega)]; split
    · exact hnone j h2 (by omega)
    · exact h.distinct j k h2 hjk (by omega)
  · rw [hget, if_neg (by omega)]; exact h.unbound k (by omega)

/-- An assignment keeps the palette's invariant (`10_state.md` R36). -/
theorem Palette.assign_inv (p : Palette) (c : Color15) (h : p.Inv) : (p.assign c).palette.Inv := by
  rcases p.assign_cases c with ⟨_, e⟩ | ⟨_, k, _, e⟩ | ⟨hc, hl, hn, e⟩ | ⟨_, _, _, e⟩
  · rw [e]; exact h
  · rw [e]; exact h
  · rw [e]; exact p.bind_inv c h hc hl hn
  · rw [e]
    exact ⟨h.nextLow, h.nextHigh, h.bit15, h.entry0, h.entry1, h.bound, h.distinct, h.unbound⟩

/-- An assignment never lowers PAL_NEXT and keeps every bound index. -/
theorem Palette.assign_keeps (p : Palette) (c : Color15) :
    p.next.toNat ≤ (p.assign c).palette.next.toNat ∧ ∀ k, k < p.next.toNat → (p.assign c).palette.get k = p.get k := by
  rcases p.assign_cases c with ⟨_, e⟩ | ⟨_, k, _, e⟩ | ⟨_, _, hn, e⟩ | ⟨_, _, _, e⟩ <;> rw [e]
  · exact ⟨le_refl _, fun _ _ => rfl⟩
  · exact ⟨le_refl _, fun _ _ => rfl⟩
  · refine ⟨by simp only [p.bind_next_toNat c hn]; omega, fun k hk => ?_⟩
    simp only [p.bind_get c hn]
    rw [if_neg (by omega)]
  · exact ⟨le_refl _, fun _ _ => rfl⟩

theorem setWidth16_inj {c d : Color15} (h : c.setWidth 16 = d.setWidth 16) : c = d := by
  apply BitVec.eq_of_toNat_eq
  have := congrArg BitVec.toNat h
  simp only [BitVec.toNat_setWidth] at this
  omega

theorem Pixel.idx8_inv (x : Pixel) (pt : Bool) (p : Palette) (h : p.Inv) : (x.idx8 pt p).palette.Inv := by
  unfold Pixel.idx8
  split
  · exact h
  · exact p.assign_inv _ h

/-! ## The scan -/

@[simp] theorem idx8Scan_nil (pt : Bool) (p : Palette) : idx8Scan pt [] p = ([], p, false) := rfl

theorem idx8Scan_cons (pt : Bool) (x : Pixel) (xs : List Pixel) (p : Palette) :
    idx8Scan pt (x :: xs) p =
      ((x.idx8 pt p).index :: (idx8Scan pt xs (x.idx8 pt p).palette).1, (idx8Scan pt xs (x.idx8 pt p).palette).2.1,
        (x.idx8 pt p).overflow || (idx8Scan pt xs (x.idx8 pt p).palette).2.2) := rfl

@[simp] theorem idx8Scan_length (pt : Bool) (xs : List Pixel) (p : Palette) : (idx8Scan pt xs p).1.length = xs.length := by
  induction xs generalizing p with
  | nil => rfl
  | cons x xs ih => simp [idx8Scan_cons, ih]

/-- A scan keeps the palette's invariant. -/
theorem idx8Scan_inv (pt : Bool) (xs : List Pixel) (p : Palette) (h : p.Inv) : (idx8Scan pt xs p).2.1.Inv := by
  induction xs generalizing p with
  | nil => exact h
  | cons x xs ih => exact ih _ (x.idx8_inv pt p h)

@[simp] theorem Palette.file_length (p : Palette) : p.file.length = 512 := by
  rw [Palette.file, length_flatMap_chunks _ 2 (fun _ => rfl), List.length_range, Config.palEntries]

end Sys2Proof.Machine
end

