-- ==== Sys2Proof/Laws/Rle.lean ====
section
/-! SUPPORT. The RLE loops: the fuel never runs out, and the decoder's output fits the capacity. -/

namespace Sys2Proof.Machine

open Sys2Proof

variable {w : Nat}

theorem leadingEqual_le (v : BitVec w) (cap : Nat) (l : List (BitVec w)) :
    leadingEqual v cap l ≤ cap ∧ leadingEqual v cap l ≤ l.length := by
  induction l generalizing cap with
  | nil => cases cap <;> simp [leadingEqual]
  | cons x xs ih =>
    cases cap with
    | zero => simp [leadingEqual]
    | succ cap =>
      simp only [leadingEqual]
      have := ih cap
      split
      · simp only [List.length_cons]; omega
      · simp

theorem runLength_pos (x : BitVec w) (xs : List (BitVec w)) : 1 ≤ runLength (x :: xs) := by
  simp [runLength, leadingEqual]

theorem runLength_le_length (l : List (BitVec w)) : runLength l ≤ l.length := by
  cases l with
  | nil => simp [runLength]
  | cons x xs => exact (leadingEqual_le x _ _).2

theorem literalLength_le (room : Nat) (l : List (BitVec w)) :
    literalLength room l ≤ room ∧ literalLength room l ≤ l.length := by
  induction l generalizing room with
  | nil => cases room <;> simp [literalLength]
  | cons x xs ih =>
    cases room with
    | zero => simp [literalLength]
    | succ room =>
      simp only [literalLength]
      have := ih room
      split
      · simp only [List.length_cons]; omega
      · simp

theorem literalLength_pos (x : BitVec w) (xs : List (BitVec w)) (h : runLength (x :: xs) < 3) :
    1 ≤ literalLength (Config.rleLitMax w) (x :: xs) := by
  have hpos : 0 < Config.rleLitMax w := Nat.two_pow_pos _
  obtain ⟨n, hn⟩ := Nat.exists_eq_succ_of_ne_zero hpos.ne'
  simp [hn, literalLength, h]

/-- The counted symbols equal `v`, and the one after them, if the cap and the input leave one, does not. -/
theorem leadingEqual_spec (v : BitVec w) (cap : Nat) (l : List (BitVec w)) :
    (∀ q, q < leadingEqual v cap l → l[q]? = some v) ∧
      (leadingEqual v cap l < cap → leadingEqual v cap l < l.length → l[leadingEqual v cap l]? ≠ some v) := by
  induction l generalizing cap with
  | nil => cases cap <;> simp [leadingEqual]
  | cons x xs ih =>
    cases cap with
    | zero => simp [leadingEqual]
    | succ cap =>
      simp only [leadingEqual]
      by_cases hx : x = v
      · simp only [if_pos hx]
        obtain ⟨h1, h2⟩ := ih cap
        refine ⟨fun q hq => ?_, fun ha hb => ?_⟩
        · cases q with
          | zero => simp [hx]
          | succ q => simpa using h1 q (by omega)
        · simpa using h2 (by omega) (by simpa using hb)
      · simp only [if_neg hx]
        exact ⟨by simp, fun _ _ => by simpa using hx⟩

/-- No run of 3 starts inside a literal; it ends at the room, at the end of the input or before such a run. -/
theorem literalLength_spec (room : Nat) (l : List (BitVec w)) :
    (∀ j, j < literalLength room l → runLength (l.drop j) < 3) ∧
      (literalLength room l = room ∨ literalLength room l = l.length ∨ 3 ≤ runLength (l.drop (literalLength room l))) := by
  induction l generalizing room with
  | nil => cases room <;> simp [literalLength]
  | cons x xs ih =>
    cases room with
    | zero => simp [literalLength]
    | succ room =>
      simp only [literalLength]
      by_cases hx : runLength (x :: xs) < Config.rleMinRepeat
      · simp only [if_pos hx]
        obtain ⟨h1, h2⟩ := ih room
        refine ⟨fun j hj => ?_, ?_⟩
        · cases j with
          | zero => simpa [Config.rleMinRepeat] using hx
          | succ j => simpa using h1 j (by omega)
        · rcases h2 with h | h | h
          · left; omega
          · right; left; simp [h]
          · right; right; simpa using h
      · simp only [if_neg hx]
        have : 3 ≤ runLength (x :: xs) := by simpa [Config.rleMinRepeat] using hx
        exact ⟨by simp, .inr (.inr (by simpa using this))⟩

/-! ## Headers -/

theorem isRepeatHeader_iff (hw : 0 < w) (h : BitVec w) : isRepeatHeader h = true ↔ 2 ^ (w - 1) ≤ h.toNat := by
  have _ := hw
  rw [isRepeatHeader, BitVec.msb_eq_decide, decide_eq_true_eq]

theorem two_pow_split (hw : 0 < w) : 2 ^ w = 2 ^ (w - 1) + 2 ^ (w - 1) := by
  rw [← Nat.two_mul, ← Nat.pow_succ', Nat.succ_eq_add_one, Nat.sub_add_cancel hw]

theorem literalHeader_toNat (hw : 0 < w) (n : Nat) (hn : n ≤ 2 ^ (w - 1)) : (literalHeader w n).toNat = n - 1 := by
  have := two_pow_split hw
  have := Nat.two_pow_pos (w - 1)
  simp only [literalHeader, BitVec.toNat_ofNat]
  exact Nat.mod_eq_of_lt (by omega)

theorem repeatHeader_toNat (hw : 1 < w) (n : Nat) (hn : n ≤ 2 ^ (w - 1) + 2) :
    (repeatHeader w n).toNat = 2 ^ (w - 1) + (n - 3) := by
  have e := two_pow_split (w := w) (by omega)
  have hpos := Nat.two_pow_pos (w - 1)
  simp only [repeatHeader, BitVec.toNat_or, BitVec.toNat_ofNat, Config.rleMinRepeat]
  rw [Nat.mod_eq_of_lt (by omega), Nat.mod_eq_of_lt (by omega)]
  have := Nat.two_pow_add_eq_or_of_lt (i := w - 1) (b := n - 3) (by omega) 1
  simp only [Nat.mul_one] at this
  rw [this]

/-- The encoder's loop gives the same on any fuel that covers the input. -/
theorem rleEncodeLoop_fuel (fuel : Nat) (l : List (BitVec w)) (h : l.length ≤ fuel) :
    rleEncodeLoop fuel l = rleEncodeLoop l.length l := by
  induction hn : l.length using Nat.strong_induction_on generalizing fuel l with
  | _ n ih =>
    cases l with
    | nil => subst hn; cases fuel <;> rfl
    | cons x xs =>
      obtain ⟨f, rfl⟩ : ∃ f, fuel = f + 1 := ⟨fuel - 1, by simp at h; omega⟩
      subst hn
      simp only [List.length_cons, rleEncodeLoop]
      have hr := runLength_pos x xs
      have hr' := runLength_le_length (x :: xs)
      simp only [List.length_cons] at h hr' ih
      split
      · have hl : ((x :: xs).drop (runLength (x :: xs))).length < xs.length + 1 := by simp; omega
        rw [ih _ hl f _ (by simp; omega) rfl, ih _ hl xs.length _ (by simp; omega) rfl]
      · next hlt =>
        have hp := literalLength_pos x xs (by simpa using hlt)
        have hl : ((x :: xs).drop (literalLength (Config.rleLitMax w) (x :: xs))).length < xs.length + 1 := by
          simp; omega
        rw [ih _ hl f _ (by simp; omega) rfl, ih _ hl xs.length _ (by simp; omega) rfl]

@[simp] theorem rleEncode_nil : rleEncode ([] : List (BitVec w)) = [] := rfl

/-- One turn of the encoder without its fuel. -/
theorem rleEncode_cons (x : BitVec w) (xs : List (BitVec w)) :
    rleEncode (x :: xs) =
      if 3 ≤ runLength (x :: xs) then
        repeatHeader w (runLength (x :: xs)) :: x :: rleEncode ((x :: xs).drop (runLength (x :: xs)))
      else
        literalHeader w (literalLength (Config.rleLitMax w) (x :: xs)) ::
          ((x :: xs).take (literalLength (Config.rleLitMax w) (x :: xs)) ++
            rleEncode ((x :: xs).drop (literalLength (Config.rleLitMax w) (x :: xs)))) := by
  have hr := runLength_pos x xs
  simp only [rleEncode, List.length_cons, rleEncodeLoop]
  split
  · rw [rleEncodeLoop_fuel xs.length _ (by simp; omega)]
  · next hlt =>
    have hp := literalLength_pos x xs (by simpa using hlt)
    rw [rleEncodeLoop_fuel xs.length _ (by simp; omega)]

/-- The decoder's loop gives the same on any fuel that covers the stream, and counts its capacity from what is out already. -/
theorem rleDecodeLoop_fuel (cap fuel used : Nat) (l : List (BitVec w)) (h : l.length ≤ fuel) (hu : used ≤ cap) :
    rleDecodeLoop cap fuel used l = rleDecode (cap - used) l := by
  unfold rleDecode
  suffices ∀ (n : Nat) (l : List (BitVec w)), l.length = n → ∀ cap fuel used cap' fuel' used',
      l.length ≤ fuel → l.length ≤ fuel' → used ≤ cap → used' ≤ cap' → cap - used = cap' - used' →
      rleDecodeLoop cap fuel used l = rleDecodeLoop cap' fuel' used' l from
    this _ l rfl cap fuel used (cap - used) l.length 0 h (le_refl _) hu (Nat.zero_le _) (by omega)
  intro n
  induction n using Nat.strong_induction_on with
  | _ n ih =>
    intro l hn cap fuel used cap' fuel' used' hf hf' hu hu' heq
    cases l with
    | nil => cases fuel <;> cases fuel' <;> rfl
    | cons x xs =>
      simp only [List.length_cons] at hf hf' hn
      obtain ⟨f, rfl⟩ : ∃ f, fuel = f + 1 := ⟨fuel - 1, by omega⟩
      obtain ⟨f', rfl⟩ : ∃ f, fuel' = f + 1 := ⟨fuel' - 1, by omega⟩
      simp only [rleDecodeLoop]
      split
      · cases xs with
        | nil => rfl
        | cons v more =>
          simp only [List.length_cons] at hf hf' hn
          by_cases hc : cap < used + (countField x + Config.rleMinRepeat)
          · have : cap' < used' + (countField x + Config.rleMinRepeat) := by omega
            simp [hc, this]
          · have : ¬cap' < used' + (countField x + Config.rleMinRepeat) := by omega
            simp only [hc, this, if_false]
            rw [ih more.length (by omega) more rfl cap f _ cap' f' (used' + (countField x + Config.rleMinRepeat))
              (by omega) (by omega) (by omega) (by omega) (by omega)]
      · by_cases hl : xs.length < countField x + 1
        · simp [hl]
        · by_cases hc : cap < used + (countField x + 1)
          · have : cap' < used' + (countField x + 1) := by omega
            simp [hl, hc, this]
          · have : ¬cap' < used' + (countField x + 1) := by omega
            simp only [hl, hc, this, if_false]
            rw [ih _ (by simp; omega) (xs.drop (countField x + 1)) rfl cap f _ cap' f' (used' + (countField x + 1))
              (by simp; omega) (by simp; omega) (by omega) (by omega) (by omega)]

@[simp] theorem rleDecode_nil (cap : Nat) : rleDecode cap ([] : List (BitVec w)) = .ok [] := rfl

/-- One turn of the decoder without its fuel. -/
theorem rleDecode_cons (cap : Nat) (h : BitVec w) (rest : List (BitVec w)) :
    rleDecode cap (h :: rest) =
      if isRepeatHeader h then
        match rest with
        | [] => .error .rleFormat
        | v :: more =>
          if cap < countField h + 3 then .error .capacity
          else (rleDecode (cap - (countField h + 3)) more).map (List.replicate (countField h + 3) v ++ ·)
      else if rest.length < countField h + 1 then .error .rleFormat
      else if cap < countField h + 1 then .error .capacity
      else (rleDecode (cap - (countField h + 1)) (rest.drop (countField h + 1))).map
        (rest.take (countField h + 1) ++ ·) := by
  conv_lhs => rw [rleDecode, List.length_cons, rleDecodeLoop]
  split
  · cases rest with
    | nil => rfl
    | cons v more =>
      simp only [Nat.zero_add]
      split
      · rfl
      · rw [rleDecodeLoop_fuel _ _ _ _ (by simp) (by omega)]
  · simp only [Nat.zero_add]
    split
    · rfl
    · split
      · rfl
      · rw [rleDecodeLoop_fuel _ _ _ _ (by simp) (by omega)]

/-- What the decoder gives fits the capacity. -/
theorem rleDecode_length_le (cap : Nat) (l out : List (BitVec w)) (h : rleDecode cap l = .ok out) : out.length ≤ cap := by
  induction hn : l.length using Nat.strong_induction_on generalizing l cap out with
  | _ n ih =>
    cases l with
    | nil => simp at h; subst h; simp
    | cons x xs =>
      simp only [List.length_cons] at hn
      rw [rleDecode_cons] at h
      split at h
      · cases xs with
        | nil => simp at h
        | cons v more =>
          simp only [List.length_cons] at hn
          simp only at h
          split at h
          · simp at h
          · cases hr : rleDecode (cap - (countField x + 3)) more with
            | error e => simp [hr, Except.map] at h
            | ok o =>
              simp only [hr, Except.map, Except.ok.injEq] at h
              have := ih more.length (by omega) _ _ _ hr rfl
              subst h
              simp only [List.length_append, List.length_replicate]
              omega
      · split at h
        · simp at h
        · split at h
          · simp at h
          · cases hr : rleDecode (cap - (countField x + 1)) (xs.drop (countField x + 1)) with
            | error e => simp [hr, Except.map] at h
            | ok o =>
              simp only [hr, Except.map, Except.ok.injEq] at h
              have := ih _ (by simp; omega) _ _ _ hr rfl
              subst h
              simp only [List.length_append, List.length_take]
              omega

/-- The decoder's errors are the two of R226. -/
theorem rleDecode_error (cap : Nat) (l : List (BitVec w)) (e : ErrorCode) (h : rleDecode cap l = .error e) :
    e = .rleFormat ∨ e = .capacity := by
  induction hn : l.length using Nat.strong_induction_on generalizing l cap with
  | _ n ih =>
    cases l with
    | nil => simp at h
    | cons x xs =>
      simp only [List.length_cons] at hn
      rw [rleDecode_cons] at h
      split at h
      · cases xs with
        | nil => simp at h; simp [← h]
        | cons v more =>
          simp only [List.length_cons] at hn
          simp only at h
          split at h
          · simp at h; simp [← h]
          · cases hr : rleDecode (cap - (countField x + 3)) more with
            | error e' =>
              simp only [hr, Except.map, Except.error.injEq] at h
              subst h
              exact ih more.length (by omega) _ _ hr rfl
            | ok o => simp [hr, Except.map] at h
      · split at h
        · simp at h; simp [← h]
        · split at h
          · simp at h; simp [← h]
          · cases hr : rleDecode (cap - (countField x + 1)) (xs.drop (countField x + 1)) with
            | error e' =>
              simp only [hr, Except.map, Except.error.injEq] at h
              subst h
              exact ih _ (by simp; omega) _ _ hr rfl
            | ok o => simp [hr, Except.map] at h

end Sys2Proof.Machine
end

