-- ==== Sys2Proof/Laws/Tile.lean ====
section
/-! SUPPORT. The tile rearranger: the position map on the loop variables of `44_tile_rearranger.md` R201, and the trim
extents. -/

namespace Sys2Proof.Machine

open Sys2Proof

/-- The position map at the output position of the loop variables is the address formula of R201. -/
theorem tileSource_formula (rowLen th tw tr tc i j : Nat) (htc : tc < rowLen / tw) (hi : i < th) (hj : j < tw) :
    tileSource rowLen th tw (((tr * (rowLen / tw) + tc) * th + i) * tw + j) =
      (tr * th + i) * rowLen + (tc * tw + j) := by
  have hth : 0 < th := by omega
  have htw : 0 < tw := by omega
  have hacross : 0 < rowLen / tw := by omega
  generalize hk : tr * (rowLen / tw) + tc = k
  have hij : i * tw + j < th * tw := by
    calc i * tw + j < i * tw + tw := by omega
      _ = (i + 1) * tw := by ring
      _ ≤ th * tw := Nat.mul_le_mul_right _ hi
  have e : (k * th + i) * tw + j = th * tw * k + (i * tw + j) := by ring
  have h1 : ((k * th + i) * tw + j) / (th * tw) = k := by
    rw [e, Nat.mul_add_div (Nat.mul_pos hth htw), Nat.div_eq_of_lt hij, Nat.add_zero]
  have h2 : ((k * th + i) * tw + j) % (th * tw) / tw = i := by
    rw [e, Nat.mul_add_mod, Nat.mod_eq_of_lt hij, Nat.mul_comm i tw, Nat.mul_add_div htw, Nat.div_eq_of_lt hj, Nat.add_zero]
  have h3 : ((k * th + i) * tw + j) % tw = j := by
    rw [Nat.mul_comm (k * th + i) tw, Nat.mul_add_mod, Nat.mod_eq_of_lt hj]
  have h4 : k / (rowLen / tw) = tr := by
    rw [← hk, Nat.mul_comm, Nat.mul_add_div hacross, Nat.div_eq_of_lt htc, Nat.add_zero]
  have h5 : k % (rowLen / tw) = tc := by
    rw [← hk, Nat.mul_comm, Nat.mul_add_mod, Nat.mod_eq_of_lt htc]
  simp only [tileSource, h1, h2, h3, h4, h5]

/-- The output position of the loop variables lies inside the buffer. -/
theorem tilePosition_lt (rows across th tw tr tc i j : Nat) (htr : tr < rows) (htc : tc < across) (hi : i < th)
    (hj : j < tw) : ((tr * across + tc) * th + i) * tw + j < rows * across * th * tw := by
  have h1 : tr * across + tc + 1 ≤ rows * across := by
    calc tr * across + tc + 1 ≤ tr * across + across := by omega
      _ = (tr + 1) * across := by ring
      _ ≤ rows * across := Nat.mul_le_mul_right _ htr
  have h2 : (tr * across + tc) * th + i + 1 ≤ rows * across * th := by
    calc (tr * across + tc) * th + i + 1 ≤ (tr * across + tc) * th + th := by omega
      _ = (tr * across + tc + 1) * th := by ring
      _ ≤ rows * across * th := Nat.mul_le_mul_right _ h1
  calc ((tr * across + tc) * th + i) * tw + j < ((tr * across + tc) * th + i) * tw + tw := by omega
    _ = ((tr * across + tc) * th + i + 1) * tw := by ring
    _ ≤ rows * across * th * tw := Nat.mul_le_mul_right _ h2

/-- The numbers behind a legal geometry and tile side: T divides W and H. -/
theorem tile_dims {s : State} (hg : s.badGeometry = false) (ht : s.badTile = false) :
    0 < s.w ∧ 0 < s.h ∧ 0 < s.t ∧ s.w / s.t * s.t = s.w ∧ s.h / s.t * s.t = s.h := by
  have hg' := (not_congr s.badGeometry_iff).mp (by simp [hg])
  have ht' := (not_congr s.badTile_iff).mp (by simp [ht])
  simp only [not_or] at hg' ht'
  obtain ⟨h1, h2, h3, h4⟩ := ht'
  exact ⟨by omega, by omega, by omega, Nat.div_mul_cancel (Nat.dvd_of_mod_eq_zero (by omega)),
    Nat.div_mul_cancel (Nat.dvd_of_mod_eq_zero (by omega))⟩

/-- The numbers behind a legal TILE_1BIT: 8 divides T and W. -/
theorem tile1bit_dims {s : State} (hg : s.badGeometry = false) (ht : s.badTile1bit = false) :
    s.badTile = false ∧ s.t % 8 = 0 ∧ s.w % 8 = 0 ∧ s.h * s.w / 8 = s.h * (s.w / 8) ∧ s.w / 8 / (s.t / 8) = s.w / s.t ∧
      s.w / s.t * (s.t / 8) = s.w / 8 := by
  have ht' := (not_congr s.badTile1bit_iff).mp (by simp [ht])
  simp only [not_or, Bool.not_eq_true] at ht'
  obtain ⟨hb, h8⟩ := ht'
  obtain ⟨_, _, hp, hw, hh⟩ := tile_dims hg hb
  have hd : 8 * (s.t / 8) = s.t := by omega
  have hmul : s.w / s.t * (8 * (s.t / 8)) = 8 * (s.w / s.t * (s.t / 8)) := by ring
  have h0 : s.w % 8 = 0 := by rw [← hw, ← hd, hd, ← hd, hd]; rw [hd] at hmul; omega
  refine ⟨hb, by omega, h0, by rw [Nat.mul_div_assoc _ (Nat.dvd_of_mod_eq_zero h0)], by rw [Nat.div_div_eq_div_mul, hd], ?_⟩
  rw [hd, hw] at hmul
  omega

/-- The trim extent is the largest position that satisfies the predicate, and 0 where none does (R206). -/
theorem lastWhere_spec (p : Nat → Bool) (n : Nat) :
    (∀ k, k < n → p k = true → k ≤ lastWhere p n) ∧
      ((∃ k, k < n ∧ p k = true) → lastWhere p n < n ∧ p (lastWhere p n) = true) ∧
      ((∀ k, k < n → p k = false) → lastWhere p n = 0) := by
  induction n with
  | zero => simp [lastWhere]
  | succ n ih =>
    obtain ⟨h1, h2, h3⟩ := ih
    by_cases hp : p n = true
    · simp only [lastWhere, hp, if_true]
      refine ⟨fun k hk _ => by omega, fun _ => ⟨by omega, trivial⟩, fun h => ?_⟩
      have := h n (by omega)
      simp [hp] at this
    · simp only [lastWhere, hp]
      refine ⟨fun k hk hpk => ?_, fun ⟨k, hk, hpk⟩ => ?_, fun h => h3 fun k hk => h k (by omega)⟩
      · rcases Nat.lt_succ_iff_lt_or_eq.mp hk with hk | rfl
        · exact h1 k hk hpk
        · exact absurd hpk hp
      · rcases Nat.lt_succ_iff_lt_or_eq.mp hk with hk | rfl
        · have := h2 ⟨k, hk, hpk⟩
          exact ⟨by simp; omega, by simpa using this.2⟩
        · exact absurd hpk hp

theorem lastWhere_lt (p : Nat → Bool) (n : Nat) (h : 0 < n) : lastWhere p n < n := by
  induction n with
  | zero => omega
  | succ n ih =>
    simp only [lastWhere]
    split
    · omega
    · cases n with
      | zero => simp [lastWhere]
      | succ m => have := ih (by omega); omega

end Sys2Proof.Machine
end

