-- ==== Sys2Proof/Laws/Exec.lean ====
section
/-! SUPPORT. What executing an operation can do, said once: every operation is its checks and then its body; what each body
leaves alone; the sizes of what it writes. -/

namespace Sys2Proof.Machine

open Sys2Proof

/-- The checks of an operation, from check 2 of `40_command_control.md` R114 on. -/
def checksOf (i : Instr) (s : State) : List (Bool × ErrorCode) :=
  match i with
  | .nop | .cvtRgb555 | .cvtRgb565 | .cvtBgr565 | .cvtRgb444 | .cvt1bit | .cvtIdx8 | .palReset | .palAssign => []
  | .palStore | .rle8Enc | .rle16Enc | .rle8Dec | .rle16Dec => memoryChecks (regions i s) s
  | .rasterEncode =>
    [(s.badFmt, .badFmt), (s.badGeometry, .badGeometry)] ++ memoryChecks (regions .rasterEncode s) s
  | .tile8 | .tile16 => tileChecks i s.badTile s
  | .tile1bit => tileChecks i s.badTile1bit s

/-- The body of an operation. -/
def bodyOf (i : Instr) (s : State) : State :=
  match i with
  | .nop => s.complete
  | .cvtRgb555 => (s.setResult ((s.pixelOperand.rgb555 s.pt).setWidth 32)).complete
  | .cvtRgb565 => (s.setResult (s.pixelOperand.rgb565.setWidth 32)).complete
  | .cvtBgr565 => (s.setResult (s.pixelOperand.bgr565.setWidth 32)).complete
  | .cvtRgb444 => (s.setResult (s.pixelOperand.rgb444.setWidth 32)).complete
  | .cvt1bit => (s.setResult (if bit1 s.pixelOperand.a then 1#32 else 0#32)).complete
  | .cvtIdx8 => (s.applyAssigned (s.pixelOperand.idx8 s.pt s.palette)).complete
  | .palReset => s.palReset.complete
  | .palAssign => (s.applyAssigned (s.palette.assign s.colorOperand)).complete
  | .palStore => palStoreBody s
  | .rasterEncode => rasterEncodeBody s
  | .tile8 => tile8Body s
  | .tile16 => tile16Body s
  | .tile1bit => tile1bitBody s
  | .rle8Enc => rle8EncBody s
  | .rle16Enc => rle16EncBody s
  | .rle8Dec => rle8DecBody s
  | .rle16Dec => rle16DecBody s

theorem exec_eq_runChecked (i : Instr) (s : State) : exec i s = runChecked (checksOf i s) (bodyOf i) s := by
  cases i <;> rfl

/-- Every operation answers a next state. -/
theorem exec_total (i : Instr) (s : State) : ∃ t, exec i s = .next t := by
  rw [exec_eq_runChecked]
  unfold runChecked
  split
  · exact ⟨_, rfl⟩
  · exact ⟨_, rfl⟩

/-- Everything executing an operation can do: raise the error of its first failing check, or run its body. -/
theorem exec_cases {i : Instr} {s t : State} (h : exec i s = .next t) :
    (∃ e, firstFailing (checksOf i s) = some e ∧ t = s.raiseError e) ∨
      (firstFailing (checksOf i s) = none ∧ t = bodyOf i s) := by
  rw [exec_eq_runChecked] at h
  exact runChecked_cases h

theorem exec_eq_body {i : Instr} {s : State} (h : firstFailing (checksOf i s) = none) : exec i s = .next (bodyOf i s) := by
  rw [exec_eq_runChecked, runChecked_eq_body h]

theorem exec_eq_raise {i : Instr} {s : State} {e : ErrorCode} (h : firstFailing (checksOf i s) = some e) :
    exec i s = .next (s.raiseError e) := by
  rw [exec_eq_runChecked, runChecked_eq_raise h]

/-- The checks read no flag. -/
theorem checksOf_status (i : Instr) (s : State) (u : Status) : checksOf i { s with status := u } = checksOf i s := by
  cases i <;> rfl

/-- With its checks passed, every region of an operation that has regions is admitted. -/
theorem regions_admitted {i : Instr} {s : State} (h : firstFailing (checksOf i s) = none)
    (hi : i ∉ [Instr.nop, .cvtRgb555, .cvtRgb565, .cvtBgr565, .cvtRgb444, .cvt1bit, .cvtIdx8, .palReset, .palAssign]) :
    ∀ r ∈ regions i s, r.len = 0 ∨ r.base + r.len ≤ s.memSize := by
  rw [firstFailing_eq_none_iff] at h
  have hm : (!rangeOk (regions i s) s.memSize, ErrorCode.range) ∈ checksOf i s := by
    cases i <;> first | (simp at hi; done) | simp [checksOf, memoryChecks, tileChecks]
  have := h _ hm
  exact (rangeOk_iff _ _).mp (by simpa using this)

/-! ## The ends of the RLE bodies -/

@[simp] theorem State.rleFail_status (e : ErrorCode) (s : State) : (s.rleFail e).status = s.status.failed e := rfl

@[simp] theorem State.rleFinish8_status (out : List Byte) (s : State) : (s.rleFinish8 out).status = s.status.completed := rfl

@[simp] theorem State.rleFinish16_status (out : List Half) (s : State) :
    (s.rleFinish16 out).status = s.status.completed := rfl

/-- The bodies of the RLE operations end in one of three ways. -/
theorem rleBody_cases {i : Instr} (hi : i = .rle8Enc ∨ i = .rle16Enc ∨ i = .rle8Dec ∨ i = .rle16Dec) (s : State) :
    (∃ e, bodyOf i s = s.rleFail e) ∨ (∃ out, out.length ≤ s.cap ∧ bodyOf i s = s.rleFinish8 out) ∨
      (∃ out, 2 * out.length ≤ s.cap ∧ bodyOf i s = s.rleFinish16 out) := by
  rcases hi with rfl | rfl | rfl | rfl
  · simp only [bodyOf, rle8EncBody]
    split
    · exact .inl ⟨_, rfl⟩
    · exact .inr (.inl ⟨_, by omega, rfl⟩)
  · simp only [bodyOf, rle16EncBody]
    split
    · exact .inl ⟨_, rfl⟩
    · exact .inr (.inr ⟨_, by omega, rfl⟩)
  · simp only [bodyOf, rle8DecBody]
    split
    · next h => exact .inr (.inl ⟨_, rleDecode_length_le _ _ _ h, rfl⟩)
    · exact .inl ⟨_, rfl⟩
  · simp only [bodyOf, rle16DecBody]
    split
    · next h =>
      have := rleDecode_length_le _ _ _ h
      exact .inr (.inr ⟨_, by omega, rfl⟩)
    · exact .inl ⟨_, rfl⟩

/-- No body changes CMD, the configured registers, MEM_SIZE, the refusal mark or the host's side. -/
theorem bodyOf_frame (i : Instr) (s : State) :
    (bodyOf i s).cmd = s.cmd ∧ (bodyOf i s).cfg = s.cfg ∧ (bodyOf i s).memSize = s.memSize ∧
      (bodyOf i s).refusalMark = s.refusalMark ∧ (bodyOf i s).busRead = s.busRead ∧
      (bodyOf i s).program = s.program ∧ (bodyOf i s).schedule = s.schedule := by
  by_cases hr : i = .rle8Enc ∨ i = .rle16Enc ∨ i = .rle8Dec ∨ i = .rle16Dec
  · rcases rleBody_cases hr s with ⟨e, h⟩ | ⟨out, _, h⟩ | ⟨out, _, h⟩ <;> rw [h] <;> exact ⟨rfl, rfl, rfl, rfl, rfl, rfl, rfl⟩
  · cases i <;> first | exact ⟨rfl, rfl, rfl, rfl, rfl, rfl, rfl⟩ | simp at hr

/-- A body ends with BUSY = 0, and done or in error. -/
theorem bodyOf_status (i : Instr) (s : State) :
    (bodyOf i s).status.busy = false ∧ ((bodyOf i s).status.done = true ∨ (bodyOf i s).status.err = true) := by
  by_cases hr : i = .rle8Enc ∨ i = .rle16Enc ∨ i = .rle8Dec ∨ i = .rle16Dec
  · rcases rleBody_cases hr s with ⟨e, h⟩ | ⟨out, _, h⟩ | ⟨out, _, h⟩ <;> rw [h] <;> simp
  · cases i <;> first | exact ⟨rfl, .inl rfl⟩ | simp at hr

/-- Four operations change the palette; the others leave it alone. -/
theorem bodyOf_palette (i : Instr) (s : State) (h : i ∉ [Instr.cvtIdx8, .palAssign, .palReset, .rasterEncode]) :
    (bodyOf i s).palette = s.palette := by
  by_cases hr : i = .rle8Enc ∨ i = .rle16Enc ∨ i = .rle8Dec ∨ i = .rle16Dec
  · rcases rleBody_cases hr s with ⟨e, he⟩ | ⟨out, _, he⟩ | ⟨out, _, he⟩ <;> rw [he] <;> rfl
  · cases i <;> first | rfl | (simp at h; done) | simp at hr

/-! ## The sizes of what is written -/

@[simp] theorem bit1Plane_length (w h bw : Nat) (px : Nat → Pixel) : (bit1Plane w h bw px).length = h * bw := by
  simp [bit1Plane]

@[simp] theorem c16Plane_length (n : Nat) (px : Nat → Pixel) (pt bswap : Bool) (fmt : ColorFormat) :
    (c16Plane n px pt bswap fmt).length = 2 * n := by
  unfold c16Plane
  rw [length_flatMap_chunks _ 2 (fun k => by cases bswap <;> rfl), List.length_range]

@[simp] theorem alphaPlane_length (n : Nat) (px : Nat → Pixel) : (alphaPlane n px).length = n := by
  simp [alphaPlane]

@[simp] theorem pk444Plane_length (n : Nat) (px : Nat → Pixel) : (pk444Plane n px).length = 3 * ((n + 1) / 2) := by
  unfold pk444Plane
  rw [length_flatMap_chunks _ 3 (fun _ => rfl), List.length_range]

@[simp] theorem State.tiledBytes_length (s : State) : s.tiledBytes.length = s.n := by simp [State.tiledBytes]

@[simp] theorem State.tiledHalves_length (s : State) : s.tiledHalves.length = s.n := by simp [State.tiledHalves]

@[simp] theorem State.tiled1bit_length (s : State) : s.tiled1bit.length = s.h * (s.w / 8) := by simp [State.tiled1bit]

@[simp] theorem State.trimMap_length (s : State) (f : Nat → Nat) : (s.trimMap f).length = s.nt := by simp [State.trimMap]

@[simp] theorem State.scan_length (s : State) : s.scan.1.length = s.n := by simp [State.scan]

@[simp] theorem halfBytes_length (ws : List Half) : (ws.flatMap littleEndian).length = 2 * ws.length :=
  length_flatMap_chunks littleEndian 2 length_littleEndian ws

/-! ## BMEM through the planes -/

theorem Memory.read?_storePlane_out (en : Bool) (base : Word) (bs : List Byte) (m : Memory) (a : Nat)
    (h : en = true → a < base.toNat ∨ base.toNat + bs.length ≤ a) : (m.storePlane en base bs).read? a = m.read? a := by
  cases en with
  | false => rfl
  | true =>
    have := h rfl
    have hn : ¬(base.toNat ≤ a ∧ a < base.toNat + bs.length) := by omega
    simp [Memory.storePlane, Memory.read?_store, hn]

theorem Memory.read?_storePlane_in (base : Word) (bs : List Byte) (m : Memory) (i : Nat) (h : i < bs.length) :
    (m.storePlane true base bs).read? (base.toNat + i) = some bs[i] := by
  simp [Memory.storePlane, Memory.read?_store, h]

theorem Memory.wf_storePlane (en : Bool) (base : Word) (bs : List Byte) (m : Memory) (h : m.wf = true) :
    (m.storePlane en base bs).wf = true := by
  cases en with
  | false => exact h
  | true => exact Memory.wf_store _ _ _ h

theorem Memory.storePlane_inside (en : Bool) (base : Word) (bs : List Byte) (m : Memory) (bound : Nat)
    (h : ∀ c ∈ m, c.1 < bound) (hb : en = true → bs = [] ∨ base.toNat + bs.length ≤ bound) :
    ∀ c ∈ m.storePlane en base bs, c.1 < bound := by
  cases en with
  | false => exact h
  | true => exact Memory.store_inside _ _ _ _ h (hb rfl)

end Sys2Proof.Machine
end

