-- ==== Sys2Proof/Laws/Step.lean ====
section
/-! SUPPORT. What one step can do: the block's step, the host's step, and which of them it is. -/

namespace Sys2Proof.Machine

open Sys2Proof

/-- The host's machine is the one of 0x10000 bytes; the machines of other sizes differ from it in the reset state alone. -/
theorem core_eq_coreOf : Sys2Proof.core = coreOf 0x10000 := rfl

theorem step_of_block {s : State} (h : s.mover = .block) : step s = blockStep s.scheduleOn := by
  simp [step, agentStep, h]

theorem step_of_host {s : State} (h : s.mover = .host) : step s = hostStep s.scheduleOn := by
  simp [step, agentStep, h]

theorem blockStep_idle {s : State} (h : s.status.busy = false) : blockStep s = .next s := by
  simp [blockStep, h]

theorem blockStep_decoded {s : State} {i : Instr} (h : s.status.busy = true) (hd : decode s.cmd = .ok i) :
    blockStep s = exec i s := by
  simp [blockStep, h, hd]

theorem blockStep_illegal {s : State} {why : IllegalWord} (h : s.status.busy = true) (hd : decode s.cmd = .error why) :
    blockStep s = .next (s.raiseError .illegalCmd) := by
  simp [blockStep, h, hd]

/-- A block turn with a legal command, as a step of the machine. -/
theorem step_block_decoded {s : State} {i : Instr} (hm : s.mover = .block) (hb : s.status.busy = true)
    (hd : decode s.cmd = .ok i) : step s = exec i s.scheduleOn := by
  rw [step_of_block hm, blockStep_decoded (s := s.scheduleOn) hb hd]

/-- A block turn with an illegal word, as a step of the machine. -/
theorem step_block_illegal {s : State} {why : IllegalWord} (hm : s.mover = .block) (hb : s.status.busy = true)
    (hd : decode s.cmd = .error why) : step s = .next (s.scheduleOn.raiseError .illegalCmd) := by
  rw [step_of_block hm, blockStep_illegal (s := s.scheduleOn) hb hd]

/-- A block turn with BUSY = 0, as a step of the machine. -/
theorem step_block_idle {s : State} (hm : s.mover = .block) (hb : s.status.busy = false) :
    step s = .next s.scheduleOn := by
  rw [step_of_block hm, blockStep_idle (s := s.scheduleOn) hb]

theorem hostStep_act {s : State} {act : HostAction} {rest : List HostAction} (h : s.program = act :: rest) :
    hostStep s = hostAct act { s with program := rest } := by
  simp [hostStep, h]

/-- The host's next action, as a step of the machine. -/
theorem step_hostAct {s : State} {act : HostAction} {rest : List HostAction} (hm : s.mover = .host)
    (hp : s.program = act :: rest) :
    step s = hostAct act { s with program := rest, schedule := s.schedule.tail } := by
  rw [step_of_host hm, hostStep_act (s := s.scheduleOn) hp]
  rfl

/-- Everything a step of the block can do. -/
theorem blockStep_cases {s t : State} (h : blockStep s = .next t) :
    (s.status.busy = false ∧ t = s) ∨
      (s.status.busy = true ∧ ∃ i, decode s.cmd = .ok i ∧ exec i s = .next t) ∨
      (s.status.busy = true ∧ (∃ why, decode s.cmd = .error why) ∧ t = s.raiseError .illegalCmd) := by
  cases hb : s.status.busy with
  | false => rw [blockStep_idle hb] at h; cases h; exact .inl ⟨rfl, rfl⟩
  | true =>
    cases hd : decode s.cmd with
    | ok i => rw [blockStep_decoded hb hd] at h; exact .inr (.inl ⟨rfl, i, rfl, h⟩)
    | error why => rw [blockStep_illegal hb hd] at h; cases h; exact .inr (.inr ⟨rfl, ⟨why, rfl⟩, rfl⟩)

/-- Everything a step of the machine can do: the block's step, or the host's. -/
theorem step_cases {s t : State} (h : step s = .next t) :
    (s.mover = .block ∧ blockStep s.scheduleOn = .next t) ∨ (s.mover = .host ∧ hostStep s.scheduleOn = .next t) := by
  cases hm : s.mover with
  | block => rw [step_of_block hm] at h; exact .inl ⟨rfl, h⟩
  | host => rw [step_of_host hm] at h; exact .inr ⟨rfl, h⟩

/-- Everything a step of the host can do: nothing when its program is over, else its next action. -/
theorem hostStep_cases {s t : State} (h : hostStep s = .next t) :
    (s.program = [] ∧ t = s) ∨ ∃ act rest, s.program = act :: rest ∧ hostAct act { s with program := rest } = .next t := by
  cases hp : s.program with
  | nil => simp only [hostStep, hp] at h; cases h; exact .inl ⟨rfl, rfl⟩
  | cons act rest => rw [hostStep_act hp] at h; exact .inr ⟨act, rest, rfl, h⟩

end Sys2Proof.Machine
end

