-- ==== Sys2Proof/Laws/HostBus.lean ====
section
/-! SUPPORT. The host's side: the register map, the bits of STATUS, what a register write does, the running operation's regions,
the reset input. -/

namespace Sys2Proof.Machine

open Sys2Proof

/-! ## The register map -/

theorem RegName.offset_aligned (r : RegName) : r.offset.val % 4 = 0 := by
  cases r
  case palEntry k => simp only [RegName.offset]; omega
  all_goals decide

theorem accessOk_offset (r : RegName) : accessOk r.offset .bits32 = true := by simp [accessOk, r.offset_aligned]

/-- The unmapped gap of the window (`10_state.md` R22). -/
theorem RegName.atOffset_gap (off : Fin Config.windowBytes) (h : 0x058 ≤ off.val ∧ off.val < 0x400) :
    RegName.atOffset off = none := by
  unfold RegName.atOffset
  rw [if_neg (by omega), List.find?_eq_none]
  intro r hr
  have hlow : ∀ r ∈ namedRegisters, r.offset.val < 0x058 := by decide
  have := hlow r hr
  simp [Fin.ext_iff]
  omega

theorem RegName.atOffset_palEntry (k : Fin 256) : RegName.atOffset (RegName.palEntry k).offset = some (.palEntry k) := by
  have h1 : (RegName.palEntry k).offset.val = 0x400 + 4 * k.val := rfl
  unfold RegName.atOffset
  rw [if_pos (by omega), h1]
  congr 2
  apply Fin.ext
  simp only [Fin.val_ofNat]
  omega

/-! ## The bits of a register -/

theorem getLsbD_flagBit (b : Bool) (k i : Nat) (hi : i < 32) : (flagBit b k).getLsbD i = (b && decide (i = k)) := by
  cases b
  · simp [flagBit]
  · simp only [flagBit, if_true, BitVec.getLsbD_shiftLeft, BitVec.getLsbD_one, hi]
    by_cases h : i = k
    · subst h; simp
    · by_cases h2 : i < k
      · simp [h, h2]
      · simp [h, h2]; omega

/-- Every bit of STATUS as the host reads it (`10_state.md` R26). -/
theorem Status.getLsbD_toWord (t : Status) (k : Nat) (hk : k < 32) :
    t.toWord.getLsbD k =
      ((t.busy && decide (k = 0)) || (t.done && decide (k = 1)) || (t.err && decide (k = 2)) || (t.palOvf && decide (k = 3))
        || (t.cmdOvr && decide (k = 4)) || (decide (8 ≤ k) && t.errCode.getLsbD (k - 8))) := by
  have h8 : (!decide (k < 8)) = decide (8 ≤ k) := by by_cases h : k < 8 <;> simp [h]; omega
  simp only [Status.toWord, BitVec.getLsbD_or, getLsbD_flagBit _ _ _ hk, BitVec.getLsbD_shiftLeft, BitVec.getLsbD_setWidth]
  simp [hk, h8, show k - 8 < 32 by omega]

/-! ## Host accesses -/

/-- A register write while idle, at the register's own offset. -/
theorem hostWriteReg_idle (off : Fin Config.windowBytes) (r : RegName) (v : Word) (s : State)
    (ha : accessOk off .bits32 = true) (hr : RegName.atOffset off = some r) (hb : s.status.busy = false) :
    hostWriteReg off .bits32 v s = r.write v s := by
  simp [hostWriteReg, ha, hr, hb]

/-- A register write changes nothing but CMD, STATUS and the configured registers. -/
theorem RegName.write_frame (r : RegName) (v : Word) (s : State) :
    r.write v s = { s with cmd := (r.write v s).cmd, status := (r.write v s).status, cfg := (r.write v s).cfg } := by
  cases r <;> rfl

theorem touchesRunning_idle (s : State) (a : Nat) (hb : s.status.busy = false) : touchesRunning a s = false := by
  simp [touchesRunning, runningRegions, hb]

theorem touchesRunning_busy_iff (s : State) (a : Nat) (hb : s.status.busy = true) :
    touchesRunning a s = true ↔ ∃ i, decode s.cmd = .ok i ∧ ∃ r ∈ regions i s, r.base ≤ a ∧ a < r.base + r.len := by
  unfold touchesRunning runningRegions
  rw [hb]
  cases hd : decode s.cmd with
  | error e => simp
  | ok i => simp [Region.contains]

/-! ## The reset input -/

/-- Drawing regions free changes BMEM and the count of draws alone, and no byte outside the regions. -/
theorem foldl_havoc (l : List Region) (u : State) :
    (l.foldl (fun u r => u.havoc r) u =
        { u with mem := (l.foldl (fun u r => u.havoc r) u).mem, draws := (l.foldl (fun u r => u.havoc r) u).draws }) ∧
      ∀ a, (∀ r ∈ l, a < r.base ∨ r.base + r.len ≤ a) → (l.foldl (fun u r => u.havoc r) u).byteAt a = u.byteAt a := by
  induction l generalizing u with
  | nil => exact ⟨rfl, fun _ _ => rfl⟩
  | cons r l ih =>
    obtain ⟨h1, h2⟩ := ih (u.havoc r)
    simp only [List.foldl_cons]
    refine ⟨by rw [h1]; rfl, fun a ha => ?_⟩
    rw [h2 a fun q hq => ha q (List.mem_cons_of_mem _ hq), State.byteAt_havoc_out _ _ _ (ha r List.mem_cons_self)]

end Sys2Proof.Machine
end

