-- ==== Sys2Proof/Laws/PerInstr.lean ====
section
/-! SUPPORT. Statements made per instruction. -/

namespace Sys2Proof.Laws.EncodesLegally

open Sys2Proof

/-- The operation is well formed and its command word is a legal word whose RSVD field is 0 (`30_encoding.md` R90, R91). -/
def Statement (i : Instr) : Prop :=
  i.wellFormed = true ∧ legalWord (encode i) = true ∧ (encode i).toNat < 256

theorem nop : Statement .nop := by unfold Statement; decide
theorem cvtRgb555 : Statement .cvtRgb555 := by unfold Statement; decide
theorem cvtRgb565 : Statement .cvtRgb565 := by unfold Statement; decide
theorem cvtBgr565 : Statement .cvtBgr565 := by unfold Statement; decide
theorem cvtRgb444 : Statement .cvtRgb444 := by unfold Statement; decide
theorem cvt1bit : Statement .cvt1bit := by unfold Statement; decide
theorem cvtIdx8 : Statement .cvtIdx8 := by unfold Statement; decide
theorem palReset : Statement .palReset := by unfold Statement; decide
theorem palAssign : Statement .palAssign := by unfold Statement; decide
theorem palStore : Statement .palStore := by unfold Statement; decide
theorem rasterEncode : Statement .rasterEncode := by unfold Statement; decide
theorem tile8 : Statement .tile8 := by unfold Statement; decide
theorem tile16 : Statement .tile16 := by unfold Statement; decide
theorem tile1bit : Statement .tile1bit := by unfold Statement; decide
theorem rle8Enc : Statement .rle8Enc := by unfold Statement; decide
theorem rle16Enc : Statement .rle16Enc := by unfold Statement; decide
theorem rle8Dec : Statement .rle8Dec := by unfold Statement; decide
theorem rle16Dec : Statement .rle16Dec := by unfold Statement; decide

end Sys2Proof.Laws.EncodesLegally
end

