-- ==== Sys2Proof/Laws/Raster.lean ====
section
/-! SUPPORT. RASTER_ENCODE: what BMEM reads as after the pass, said once for all five planes. -/

namespace Sys2Proof.Machine

open Sys2Proof

/-- A plane as it is written: whether it is enabled, its base and its bytes. -/
abbrev Plane := Bool × Word × List Byte

/-- The planes of the pass in the order of `State.encodePlanes`. -/
def planesOf (s : State) : List Plane :=
  [(s.cfg.encCfg.enIdx8, s.cfg.idx8Base, s.scan.1),
    (s.cfg.encCfg.enBit1, s.cfg.bit1Base, bit1Plane s.w s.h s.bw s.scanPixel),
    (s.cfg.encCfg.enC16, s.cfg.c16Base,
      match ColorFormat.ofBits s.cfg.encCfg.fmt16 with
      | some fmt => c16Plane s.n s.scanPixel s.pt s.cfg.encCfg.bswap16 fmt
      | none => []),
    (s.cfg.encCfg.enAlpha, s.cfg.alphaBase, alphaPlane s.n s.scanPixel),
    (s.cfg.encCfg.enPk444, s.cfg.pk444Base, pk444Plane s.n s.scanPixel)]

/-- The region a plane occupies. -/
def Plane.region (p : Plane) : Region := { base := p.2.1.toNat, len := p.2.2.length }

/-- BMEM after all the planes of a list are written. -/
def storePlanes (l : List Plane) (m : Memory) : Memory := l.foldl (fun m p => m.storePlane p.1 p.2.1 p.2.2) m

theorem encodePlanes_eq (s : State) : s.encodePlanes = storePlanes (planesOf s) s.mem := rfl

/-- An address outside every enabled plane reads as before. -/
theorem storePlanes_out (l : List Plane) (m : Memory) (a : Nat)
    (h : ∀ p ∈ l, p.1 = true → a < p.region.base ∨ p.region.base + p.region.len ≤ a) :
    (storePlanes l m).read? a = m.read? a := by
  induction l generalizing m with
  | nil => rfl
  | cons p l ih =>
    show (storePlanes l (m.storePlane p.1 p.2.1 p.2.2)).read? a = _
    rw [ih _ fun q hq => h q (List.mem_cons_of_mem _ hq), Memory.read?_storePlane_out]
    exact h p List.mem_cons_self

/-- A byte of an enabled plane reads as the plane has it, where the enabled planes do not overlap. -/
theorem storePlanes_in (l : List Plane) (m : Memory) (p : Plane) (hp : p ∈ l) (he : p.1 = true)
    (hw : List.Pairwise (fun p q : Plane => p.1 = true → q.1 = true → p.region.overlaps q.region = false) l)
    (i : Nat) (hi : i < p.2.2.length) : (storePlanes l m).read? (p.2.1.toNat + i) = some p.2.2[i] := by
  induction l generalizing m with
  | nil => simp at hp
  | cons q l ih =>
    rw [List.pairwise_cons] at hw
    show (storePlanes l (m.storePlane q.1 q.2.1 q.2.2)).read? _ = _
    rcases List.mem_cons.mp hp with rfl | hp
    · rw [storePlanes_out]
      · rw [he, Memory.read?_storePlane_in _ _ _ _ hi]
      · intro r hr her
        have := (not_congr (Region.overlaps_iff p.region r.region)).mp (by simp [hw.1 r hr he her])
        simp only [Plane.region] at this ⊢
        omega
    · exact ih _ hp hw.2

/-- The destination regions are the regions of the enabled planes, unless the format check fails. -/
theorem destRegions_rasterEncode (s : State) (h : s.badFmt = false) :
    destRegions .rasterEncode s = (planesOf s).flatMap fun p => if p.1 then [p.region] else [] := by
  simp only [destRegions, regionIf, planesOf, Plane.region, List.flatMap_cons, List.flatMap_nil, List.append_nil,
    State.scan_length, bit1Plane_length, alphaPlane_length, pk444Plane_length, List.append_assoc]
  cases hc : s.cfg.encCfg.enC16 with
  | false => simp
  | true =>
    cases hf : ColorFormat.ofBits s.cfg.encCfg.fmt16 with
    | none => simp [State.badFmt, hc, hf] at h
    | some f => simp

/-- With the checks passed, the enabled planes do not overlap. -/
theorem planesOf_apart {s : State} (h : firstFailing (checksOf .rasterEncode s) = none) :
    List.Pairwise (fun p q : Plane => p.1 = true → q.1 = true → p.region.overlaps q.region = false) (planesOf s) := by
  rw [firstFailing_eq_none_iff] at h
  have hf : s.badFmt = false := h (s.badFmt, .badFmt) (by simp [checksOf])
  have ho := h (!overlapOk (regions .rasterEncode s), .overlap) (by simp [checksOf, memoryChecks])
  have ho := (overlapOk_iff _).mp (by simpa using ho)
  have ho : List.Pairwise _ (destRegions .rasterEncode s) := (List.pairwise_cons.mp ho).2
  rw [destRegions_rasterEncode s hf, List.pairwise_flatMap] at ho
  refine ho.2.imp fun {p q} hpq hp hq => ?_
  have := hpq p.region (by simp [hp]) q.region (by simp [hq])
  rw [← Region.overlaps_iff] at this
  simpa using this

/-- A byte of an enabled plane after RASTER_ENCODE. -/
theorem rasterEncodeBody_in {s : State} (h : firstFailing (checksOf .rasterEncode s) = none) (p : Plane)
    (hp : p ∈ planesOf s) (he : p.1 = true) (i : Nat) (hi : i < p.2.2.length) :
    (rasterEncodeBody s).byteAt (p.2.1.toNat + i) = p.2.2[i] := by
  have hm : (rasterEncodeBody s).mem = storePlanes (planesOf s) s.mem := rfl
  rw [State.byteAt, hm, storePlanes_in _ _ p hp he (planesOf_apart h) i hi]
  rfl

/-- A byte outside the enabled planes after RASTER_ENCODE. -/
theorem rasterEncodeBody_out {s : State} (h : firstFailing (checksOf .rasterEncode s) = none) (a : Nat)
    (ha : ∀ r ∈ destRegions .rasterEncode s, a < r.base ∨ r.base + r.len ≤ a) :
    (rasterEncodeBody s).byteAt a = s.byteAt a := by
  rw [firstFailing_eq_none_iff] at h
  have hf : s.badFmt = false := h (s.badFmt, .badFmt) (by simp [checksOf])
  have hm : (rasterEncodeBody s).mem = storePlanes (planesOf s) s.mem := rfl
  rw [State.byteAt, hm, storePlanes_out, State.byteAt]
  intro p hp he
  apply ha
  rw [destRegions_rasterEncode s hf]
  exact List.mem_flatMap.mpr ⟨p, hp, by simp [he]⟩

/-- The scan index of pixel (x, y), read back (`43_raster_encoder.md` R180). -/
theorem scan_index (s : State) (x y : Nat) (hx : x < s.w) (hy : y < s.h) :
    (s.h - 1 - y) * s.w + x < s.n ∧ s.scanPixel ((s.h - 1 - y) * s.w + x) = s.pixelAt x y := by
  have h1 : ((s.h - 1 - y) * s.w + x) % s.w = x := by rw [Nat.mul_comm, Nat.mul_add_mod, Nat.mod_eq_of_lt hx]
  have h2 : ((s.h - 1 - y) * s.w + x) / s.w = s.h - 1 - y := by
    rw [Nat.mul_comm, Nat.mul_add_div (by omega), Nat.div_eq_of_lt hx, Nat.add_zero]
  have h3 : (s.h - 1 - y + 1) * s.w ≤ s.h * s.w := Nat.mul_le_mul_right _ (by omega)
  rw [Nat.add_mul, Nat.one_mul] at h3
  refine ⟨by rw [State.n, Nat.mul_comm s.w]; omega, ?_⟩
  rw [State.scanPixel, h1, h2, show s.h - 1 - (s.h - 1 - y) = y by omega]

end Sys2Proof.Machine
end

