-- ==== Sys2Proof/Tests/Slice0.lean ====
section
/-! SUPPORT. The model's own tests. Expected values come from `spec/95_test_vectors.md` (each test names its vector) or from the
encoding tables of the spec; words are written out bit by bit. The witnesses at the end show that the hypotheses of each
statement can be met, one witness per clause. -/

namespace Sys2Proof.Tests

open Sys2Proof Sys2Proof.Machine Sys2Proof.Claims

/-! ## Small states -/

/-- The registers after reset with the buffers of the vectors: source at 0, destination at 0x100, maps at 0x200 and 0x210. -/
def cfg : ConfigRegs :=
  { ConfigRegs.reset with
    dstBase := 0x100#32, dstCap := 0x80#32, idx8Base := 0x100#32, bit1Base := 0x110#32, c16Base := 0x120#32
    alphaBase := 0x130#32, pk444Base := 0x140#32, mapxBase := 0x200#32, mapyBase := 0x210#32 }

/-- The state after reset with the registers `c` and the bytes `bs` from address 0 on. -/
def load (c : ConfigRegs) (bs : List Byte) : State := { State.reset with cfg := c, mem := cellsFrom 0 bs }

/-- W, H and T set, source 00, 01, ... of `n` bytes. -/
def tiles (w h : BitVec 16) (t : BitVec 8) (n : Nat) : State :=
  load { cfg with width := w, height := h, tile := t } ((List.range n).map fun k => BitVec.ofNat 8 k)

/-- SRC_LEN and DST_CAP set, source `bs`. -/
def stream (len cap : Word) (bs : List Byte) : State := load { cfg with srcLen := len, dstCap := cap } bs

/-- The state after reset with a pixel or a colour in ARG0. -/
def operand (v : Word) : State := load { cfg with arg0 := v } []

/-- What `f` says of the next state; none after a fault or a refusal. -/
def after {α : Type} (i : Instr) (s : State) (f : State → α) : Option α :=
  match exec i s with
  | .next t => some (f t)
  | _ => none

/-- What `f` says of the state one step on. -/
def stepped {α : Type} (s : State) (f : State → α) : Option α :=
  match step s with
  | .next t => some (f t)
  | _ => none

/-- The host's next action, with the host to move. -/
def hostTurn (act : HostAction) (s : State) : State := { s with program := [act], schedule := [.host] }

/-- A command word accepted, with the block to move. -/
def running (c : Word) (s : State) : State := { s.accept c with schedule := [.block] }

/-- The source of V-RAS-2: a 2x2 raster of green, white (a = 80), blue and black. -/
def fourPixels : List Byte :=
  [0x00#8, 0xFF#8, 0x00#8, 0xFF#8, 0xFF#8, 0xFF#8, 0xFF#8, 0x80#8]
    ++ [0x00#8, 0x00#8, 0xFF#8, 0xFF#8, 0x00#8, 0x00#8, 0x00#8, 0xFF#8]

/-- V-RAS-2 with ENC_CFG = `e`. -/
def raster (e : Word) : State := load { cfg with width := 2#16, height := 2#16, encCfg := EncCfg.ofWord e } fourPixels

/-- A palette with every index bound: PAL[k] = k - 1, and PAL_OVF_CNT at its last value before it wraps. -/
def fullPalette : Palette :=
  { entry := ⟨⟨(List.range 256).map fun k => BitVec.ofNat 16 (k - 1)⟩, by simp⟩
    next := 256#9, ovfCnt := 0xFFFFFFFF#32 }

/-! ## Well-formedness: each check refuses an ill-formed word (`30_encoding.md` R91) -/

theorem test_reserved_bits_refused : reservedBitsClear 0x00000100#32 = false ∧ legalWord 0x00000100#32 = false := by decide

theorem test_reserved_opcode_refused : opcodeUsed 0x00000007#32 = false ∧ legalWord 0x00000007#32 = false := by decide

theorem test_last_opcode_refused : opcodeUsed 0x000000FF#32 = false ∧ opcodeUsed 0x00000044#32 = false := by decide

/-! ## Decoding: the word of every operation, bit by bit (R90, R92) -/

theorem test_decode_nop : decode 0b00000000_00000000_00000000_00000000#32 = .ok .nop := by decide

theorem test_decode_pixel :
    decode 0b00000000_00000000_00000000_00000001#32 = .ok .cvtRgb555 ∧
      decode 0b00000000_00000000_00000000_00000010#32 = .ok .cvtRgb565 ∧
      decode 0b00000000_00000000_00000000_00000011#32 = .ok .cvtBgr565 ∧
      decode 0b00000000_00000000_00000000_00000100#32 = .ok .cvtRgb444 ∧
      decode 0b00000000_00000000_00000000_00000101#32 = .ok .cvt1bit ∧
      decode 0b00000000_00000000_00000000_00000110#32 = .ok .cvtIdx8 := by decide

theorem test_decode_palette :
    decode 0b00000000_00000000_00000000_00010000#32 = .ok .palReset ∧
      decode 0b00000000_00000000_00000000_00010001#32 = .ok .palAssign ∧
      decode 0b00000000_00000000_00000000_00010010#32 = .ok .palStore := by decide

theorem test_decode_raster : decode 0b00000000_00000000_00000000_00100000#32 = .ok .rasterEncode := by decide

theorem test_decode_tile :
    decode 0b00000000_00000000_00000000_00110000#32 = .ok .tile8 ∧
      decode 0b00000000_00000000_00000000_00110001#32 = .ok .tile16 ∧
      decode 0b00000000_00000000_00000000_00110010#32 = .ok .tile1bit := by decide

theorem test_decode_rle :
    decode 0b00000000_00000000_00000000_01000000#32 = .ok .rle8Enc ∧
      decode 0b00000000_00000000_00000000_01000001#32 = .ok .rle16Enc ∧
      decode 0b00000000_00000000_00000000_01000010#32 = .ok .rle8Dec ∧
      decode 0b00000000_00000000_00000000_01000011#32 = .ok .rle16Dec := by decide

/-- V-CMD-3, V-CMD-4: the two illegal words. -/
theorem test_decode_illegal :
    decode 0b00000000_00000000_00000000_00000111#32 = .error .reservedOpcode ∧
      decode 0b00000000_00000000_00000001_00000000#32 = .error .reservedBitsSet ∧
      decodeTableWord 32 0x00000012 = some .palStore ∧ decodeTableWord 33 0 = none := by decide

/-! ## One step each: command control and the pixel codec (V-CMD, §3) -/

/-- V-CMD-1: acceptance and one block step of NOP. -/
theorem test_nop : stepped (State.reset.withFetchWord 32 0) (fun t => t.status.toWord) = some 0x00000002#32 := by decide

/-- V-CMD-3. -/
theorem test_illegal_word : stepped (State.reset.withFetchWord 32 0x107) (fun t => t.status.toWord) = some 0x00000104#32 := by
  decide

/-- §3, ARG0 = FF563412. -/
theorem test_cvt_rgb555 : after .cvtRgb555 (operand 0xFF563412#32) (fun t => t.result) = some 0x88CA#32 := by decide

/-- §3, ARG0 = 80FFFFFF with PT = 1. -/
theorem test_cvt_rgb555_partial :
    after .cvtRgb555 (load { cfg with arg0 := 0x80FFFFFF#32, encCfg := EncCfg.ofWord 4#32 } []) (fun t => t.result) =
      some 0x7FFF#32 := by decide

theorem test_cvt_rgb565 : after .cvtRgb565 (operand 0xFF563412#32) (fun t => t.result) = some 0x11AA#32 := by decide

theorem test_cvt_bgr565 : after .cvtBgr565 (operand 0xFF563412#32) (fun t => t.result) = some 0x51A2#32 := by decide

theorem test_cvt_rgb444 : after .cvtRgb444 (operand 0xFF563412#32) (fun t => t.result) = some 0x0135#32 := by decide

/-- §3, ARG0 = 01070707: CVT_1BIT ignores PT. -/
theorem test_cvt_1bit :
    after .cvt1bit (load { cfg with arg0 := 0x01070707#32, encCfg := EncCfg.ofWord 4#32 } []) (fun t => t.result) = some 1#32 ∧
      after .cvt1bit (operand 0x000000FF#32) (fun t => t.result) = some 0#32 := by decide

/-- §3, FF0000FF on a fresh palette, and FF000000 (black), which binds nothing. -/
theorem test_cvt_idx8 :
    after .cvtIdx8 (operand 0xFF0000FF#32) (fun t => (t.result, t.palette.next, t.palette.get 2)) =
        some (2#32, 3#9, 0x001F#16 <<< 10) ∧
      after .cvtIdx8 (operand 0xFF000000#32) (fun t => (t.result, t.palette.next)) = some (1#32, 2#9) := by decide +kernel

/-! ## The palette builder (§4) -/

/-- V-PAL-10. -/
theorem test_pal_reset :
    after .palReset { operand 0#32 with palette := fullPalette, status := Status.ofWord 0x9#32 }
      (fun t => (t.status.toWord, t.palette.next, t.palette.ovfCnt, t.palette.get 255)) =
        some (0x00000002#32, 2#9, 0#32, 0#16) := by decide

/-- V-PAL-3: ARG0[15] is ignored. -/
theorem test_pal_assign :
    after .palAssign (operand 0xFC00#32) (fun t => (t.result, t.palette.get 2, t.palette.next)) =
      some (2#32, 0x7C00#16, 3#9) := by decide +kernel

/-- V-PAL-6 with the counter about to wrap (`10_state.md` R37). -/
theorem test_pal_assign_overflow :
    after .palAssign { operand 255#32 with palette := fullPalette }
      (fun t => (t.result, t.palette.ovfCnt, t.status.toWord, t.palette.get 255)) =
        some (255#32, 0#32, 0x0000000A#32, 0x00FE#16) := by decide +kernel

/-- V-PAL-11. -/
theorem test_pal_store :
    after .palStore { load { cfg with dstBase := 0x300#32 } [] with palette := (Palette.reset.bind 0x7C00#15).bind 0x03E0#15 }
      (fun t => (t.bytesAt 0x300 8, t.byteAt 0x4FF, t.outLen)) =
        some ([0x00#8, 0x00#8, 0x00#8, 0x00#8, 0x00#8, 0x7C#8, 0xE0#8, 0x03#8], 0x00#8, 256#32) := by decide +kernel

/-- V-PAL-12. -/
theorem test_pal_store_range :
    after .palStore (load { cfg with dstBase := 0xFE01#32 } []) (fun t => (t.status.toWord, t.mem)) =
      some (0x00000504#32, []) := by decide

/-! ## The raster encoder (§5) -/

/-- V-RAS-2, ENC_CFG = 0x1F0D: RGB565, PT, BSWAP16. -/
theorem test_raster_encode :
    after .rasterEncode (raster 0x1F0D#32)
      (fun t => (t.bytesAt 0x100 4, t.bytesAt 0x110 2, t.bytesAt 0x120 8, t.bytesAt 0x130 4, t.bytesAt 0x140 6)) =
        some ([0x02#8, 0x01#8, 0x03#8, 0x00#8], [0xC0#8, 0xC0#8],
          [0x00#8, 0x1F#8, 0x00#8, 0x00#8, 0x07#8, 0xE0#8, 0xFF#8, 0xFF#8], [0xFF#8, 0xFF#8, 0xFF#8, 0x80#8],
          [0x0F#8, 0x00#8, 0x00#8, 0xF0#8, 0xF0#8, 0xFF#8]) := by decide +kernel

/-- V-RAS-6, last row: BAD_FMT before BAD_GEOMETRY; the palette is kept. -/
theorem test_raster_encode_bad_fmt :
    after .rasterEncode { load { cfg with encCfg := EncCfg.ofWord 0x1F03#32 } [] with palette := fullPalette }
      (fun t => (t.status.toWord, t.palette.next)) = some (0x00000204#32, 256#9) := by decide

/-! ## The tile rearranger (§6) -/

/-- V-TIL-1. -/
theorem test_tile8 :
    after .tile8 (tiles 4#16 4#16 2#8 16) (fun t => ((t.bytesAt 0x100 16).map BitVec.toNat, t.outLen)) =
      some ([0, 1, 4, 5, 2, 3, 6, 7, 8, 9, 12, 13, 10, 11, 14, 15], 16#32) := by decide

/-- V-TIL-13, T = 3. -/
theorem test_tile8_bad_tile : after .tile8 (tiles 4#16 4#16 3#8 16) (fun t => t.status.toWord) = some 0x00000404#32 := by decide

/-- V-TIL-7, with the words' high bytes from the source 00 .. 0F. -/
theorem test_tile16 :
    after .tile16 (tiles 4#16 2#16 2#8 16) (fun t => ((t.bytesAt 0x100 16).map BitVec.toNat, t.outLen)) =
      some ([0, 1, 2, 3, 8, 9, 10, 11, 4, 5, 6, 7, 12, 13, 14, 15], 8#32) := by decide

/-- V-TIL-8. -/
theorem test_tile1bit :
    after .tile1bit
      (load { cfg with width := 16#16, height := 8#16, tile := 8#8 }
        ([0x00#8, 0x01#8, 0x00#8, 0x00#8, 0x00#8, 0x00#8, 0x00#8, 0x40#8] ++ List.replicate 8 0x00#8))
      (fun t => ((t.bytesAt 0x100 16).map BitVec.toNat, t.bytesAt 0x200 2, t.bytesAt 0x210 2, t.outLen)) =
        some ([0, 0, 0, 0, 0, 0, 0, 0, 1, 0, 0, 0x40, 0, 0, 0, 0], [0x00#8, 0x07#8], [0x00#8, 0x03#8], 16#32) := by decide

/-- V-TIL-13, TILE_1BIT with T = 2. -/
theorem test_tile1bit_bad_tile : after .tile1bit (tiles 4#16 4#16 2#8 16) (fun t => t.status.toWord) = some 0x00000404#32 := by
  decide

/-! ## The RLE codec (§7) -/

/-- V-RLE8-15. -/
theorem test_rle8_enc :
    after .rle8Enc (stream 7#32 7#32 [1#8, 2#8, 2#8, 2#8, 2#8, 3#8, 3#8])
      (fun t => ((t.bytesAt 0x100 7).map BitVec.toNat, t.outLen)) = some ([0x00, 0x01, 0x81, 0x02, 0x01, 0x03, 0x03], 7#32) := by
  decide

/-- V-RLE-C1. -/
theorem test_rle8_enc_capacity :
    after .rle8Enc (stream 4#32 3#32 [0x41#8, 0x41#8, 0x41#8, 0x42#8]) (fun t => (t.status.toWord, t.outLen)) =
      some (0x00000704#32, 0#32) := by decide

/-- V-RLE16-8: bytes 34 12 34 12 34 12 give the words 8000 1234. -/
theorem test_rle16_enc :
    after .rle16Enc (stream 3#32 5#32 [0x34#8, 0x12#8, 0x34#8, 0x12#8, 0x34#8, 0x12#8])
      (fun t => (t.bytesAt 0x100 4, t.outLen)) = some ([0x00#8, 0x80#8, 0x34#8, 0x12#8], 2#32) := by decide

/-- V-RLE16-6: words with the top bit set are literals too. -/
theorem test_rle16_enc_literal :
    after .rle16Enc (stream 2#32 6#32 [0x00#8, 0x80#8, 0x00#8, 0x80#8]) (fun t => (t.bytesAt 0x100 6, t.outLen)) =
      some ([0x01#8, 0x00#8, 0x00#8, 0x80#8, 0x00#8, 0x80#8], 3#32) := by decide

/-- V-DEC-5. -/
theorem test_rle8_dec :
    after .rle8Dec (stream 4#32 6#32 [0x80#8, 0x41#8, 0x80#8, 0x41#8]) (fun t => (t.bytesAt 0x100 6, t.outLen)) =
      some ([0x41#8, 0x41#8, 0x41#8, 0x41#8, 0x41#8, 0x41#8], 6#32) := by decide

/-- V-DEC-10: the format check comes before the capacity check. -/
theorem test_rle8_dec_format :
    after .rle8Dec (stream 3#32 2#32 [0x02#8, 0x01#8, 0x02#8]) (fun t => t.status.toWord) = some 0x00000804#32 := by decide

/-- V-DEC-7: the words 0001 AAAA BBBB, with DST_CAP = 4 bytes. -/
theorem test_rle16_dec :
    after .rle16Dec (stream 3#32 4#32 [0x01#8, 0x00#8, 0xAA#8, 0xAA#8, 0xBB#8, 0xBB#8])
      (fun t => (t.bytesAt 0x100 4, t.outLen)) = some ([0xAA#8, 0xAA#8, 0xBB#8, 0xBB#8], 2#32) := by decide

/-- The same stream with DST_CAP = 3 bytes, one word (R228 rounds down). -/
theorem test_rle16_dec_capacity :
    after .rle16Dec (stream 3#32 3#32 [0x01#8, 0x00#8, 0xAA#8, 0xAA#8, 0xBB#8, 0xBB#8]) (fun t => t.status.toWord) =
      some 0x00000704#32 := by decide

/-! ## The host's side (V-CMD) -/

/-- V-CMD-6. -/
theorem test_write_one_to_clear :
    stepped (hostTurn (.writeReg 0x004 .bits32 8#32) { State.reset with status := Status.ofWord 0x1A#32 })
      (fun t => t.status.toWord) = some 0x00000012#32 := by decide

/-- V-CMD-10. -/
theorem test_reserved_bits_ignored :
    stepped (hostTurn (.writeReg 0x00C .bits32 0x12345678#32) State.reset) (fun t => RegName.width.read t) =
      some 0x00005678#32 := by decide

/-- V-CMD-5 (b): the second command is dropped. -/
theorem test_dropped_command :
    stepped { running 0x20#32 State.reset with schedule := [.host], program := [.writeReg 0x000 .bits32 0x10#32] }
      (fun t => (t.cmd, t.status.toWord)) = some (0x00000020#32, 0x00000011#32) := by decide

/-! ## Witnesses: states and operands that meet the hypotheses of each statement -/

theorem witness_DecodingMatchesTheWholeWord : decode 0x00000043#32 = .ok .rle16Dec := by decide

/-- Both reasons, at the edges of the reserved ranges, by the host's write and by the block's step. -/
theorem witness_IllegalWordsRaiseIllegalCmd :
    (HostDoes (hostTurn (.writeReg 0x000 .bits32 0x44#32) State.reset) (.writeReg 0x000 .bits32 0x44#32) [] ∧
        State.reset.status.busy = false ∧ legalWord 0x44#32 = false) ∧
      (BlockRuns (running 0x100#32 State.reset) ∧ legalWord (running 0x100#32 State.reset).cmd = false) ∧
      0x100 / 256 ≠ 0 ∧ ReservedOpcode 0x44 := by
  refine ⟨by decide, by decide, by decide, by decide⟩

/-- The edges of the reserved ranges. -/
theorem witness_reserved_ranges :
    ReservedOpcode 0x07 ∧ ReservedOpcode 0x0F ∧ ReservedOpcode 0x13 ∧ ReservedOpcode 0xFF ∧ ¬ReservedOpcode 0x06 ∧
      ¬ReservedOpcode 0x10 ∧ ¬ReservedOpcode 0x43 := by
  refine ⟨?_, ?_, ?_, ?_, ?_, ?_, ?_⟩ <;> decide

theorem witness_StepExecutesTheDecodedCommand :
    BlockRuns (running 0x32#32 State.reset) ∧ decode (running 0x32#32 State.reset).cmd = .ok .tile1bit := by decide

theorem witness_CommandWritesAreAcceptedOrDropped :
    (HostDoes (hostTurn (.writeReg 0x000 .bits32 0x20#32) State.reset) (.writeReg 0x000 .bits32 0x20#32) [] ∧
        (hostTurn (.writeReg 0x000 .bits32 0x20#32) State.reset).status.busy = false) ∧
      (HostDoes (hostTurn (.writeReg 0x000 .bits32 0x20#32) (running 0#32 State.reset)) (.writeReg 0x000 .bits32 0x20#32) [] ∧
        (hostTurn (.writeReg 0x000 .bits32 0x20#32) (running 0#32 State.reset)).status.busy = true) := by decide

/-- One legal command and one illegal word. -/
theorem witness_EveryCommandEndsInOneBlockStep :
    BlockRuns (running 0x20#32 State.reset) ∧ BlockRuns (running 0xFFFFFFFF#32 State.reset) := by decide

theorem witness_IdleBlockNeverActs :
    (State.reset.status.busy = false ∧ State.reset.program = []) ∧
      ({ State.reset with schedule := [.block], program := [.wait] } : State).mover = .block := by decide

theorem witness_NopOnlyCompletes : (running 0x30#32 State.reset).status.busy = true := by decide

/-- An operation that completes, one that fails a check, and one whose body fails. -/
theorem witness_OperationsWriteOnlyTheirRegisters :
    (∃ t, exec .tile8 (tiles 4#16 4#16 2#8 16) = .next t ∧ t.status.done = true) ∧
      (∃ t, exec .tile8 (tiles 4#16 4#16 3#8 16) = .next t ∧ t.status.done = false) ∧
      ∃ t, exec .rle8Dec (stream 1#32 0#32 [0x80#8]) = .next t ∧ t.status.done = false :=
  ⟨⟨_, rfl, rfl⟩, ⟨_, rfl, rfl⟩, ⟨_, rfl, rfl⟩⟩

/-- Every kind of destination: a completed operation of each, and an address at the edge of its region. -/
theorem witness_OperationsWriteOnlyTheirDestinations :
    (∃ t, exec .tile8 (tiles 4#16 4#16 2#8 16) = .next t) ∧ Outside ⟨0x100, 16⟩ 0xFF ∧ Outside ⟨0x100, 16⟩ 0x110 ∧
      (∃ t, exec .rasterEncode (raster 0x1F00#32) = .next t) ∧ (∃ t, exec .palStore State.reset = .next t) ∧
      (∃ t, exec .tile1bit (tiles 8#16 8#16 8#8 8) = .next t) ∧ ∃ t, exec .nop State.reset = .next t :=
  ⟨exec_total _ _, by decide, by decide, exec_total _ _, exec_total _ _, exec_total _ _, exec_total _ _⟩

theorem witness_NoOperationReadsAFlag :
    (∃ t, exec .cvtIdx8 (operand 0xFF0000FF#32) = .next t ∧ t.status.done = true) ∧
      ∃ t, exec .rasterEncode State.reset = .next t ∧ t.status.done = false :=
  ⟨⟨_, rfl, rfl⟩, ⟨_, rfl, rfl⟩⟩

/-- The edges of transparency: alpha 0 and 254 with PARTIAL_TRANSP, alpha 1 without it, and 255. -/
theorem witness_CvtIdx8AssignsOpaquePixels :
    IsTransparent (argPixel (operand 0x00FFFFFF#32)).a false ∧ IsTransparent (argPixel (operand 0xFEFFFFFF#32)).a true ∧
      ¬IsTransparent (argPixel (operand 0x01FFFFFF#32)).a false ∧ ¬IsTransparent (argPixel (operand 0xFFFFFFFF#32)).a true := by
  decide

theorem fullPalette_get (j : Nat) (h : j < 256) : fullPalette.get j = BitVec.ofNat 16 (j - 1) := by
  simp [Palette.get, fullPalette, h]

theorem fullPalette_ne (c : Color15) (j : Nat) (h : j < 256) (hc : c.toNat ≠ j - 1) : fullPalette.get j ≠ c.setWidth 16 := by
  rw [fullPalette_get j h]
  intro e
  have := congrArg BitVec.toNat e
  simp only [BitVec.toNat_ofNat, BitVec.toNat_setWidth] at this
  omega

/-- Black; and a colour bound at the lowest and one at the highest index. -/
theorem witness_PalAssignFindsBoundColours :
    (operand 0x8000#32).cfg.arg0.extractLsb' 0 15 = 0#15 ∧
      ((operand 1#32).cfg.arg0.extractLsb' 0 15 = 1#15 ∧ fullPalette.get 2 = (1#15).setWidth 16 ∧ 2 < fullPalette.next.toNat) ∧
      ((operand 254#32).cfg.arg0.extractLsb' 0 15 = 254#15 ∧ fullPalette.get 255 = (254#15).setWidth 16 ∧
        255 < fullPalette.next.toNat ∧ ∀ j, 2 ≤ j → j < 255 → fullPalette.get j ≠ (254#15).setWidth 16) := by
  refine ⟨by decide, ⟨by decide, fullPalette_get 2 (by decide), by decide⟩,
    ⟨by decide, fullPalette_get 255 (by decide), by decide, fun j h2 hj => fullPalette_ne _ _ (by omega) (by simp; omega)⟩⟩

/-- A new colour with PAL_NEXT = 2, and with PAL_NEXT = 256. -/
theorem witness_PalAssignBindsOrOverflows :
    ((operand 0x7C00#32).cfg.arg0.extractLsb' 0 15 = 0x7C00#15 ∧ (operand 0x7C00#32).palette.next.toNat ≤ 255 ∧
        ∀ j, 2 ≤ j → j < (operand 0x7C00#32).palette.next.toNat → (operand 0x7C00#32).palette.get j ≠ (0x7C00#15).setWidth 16) ∧
      (fullPalette.next = 256#9 ∧ ∀ j, 2 ≤ j → j < 256 → fullPalette.get j ≠ (0x7C00#15).setWidth 16) := by
  refine ⟨⟨by decide, by decide, fun j h2 hj => ?_⟩, rfl, fun j h2 hj => fullPalette_ne _ _ hj (by simp; omega)⟩
  have : (operand 0x7C00#32).palette.next.toNat = 2 := by decide
  omega

theorem witness_BoundColoursKeepTheirIndex :
    Palette.reset.Inv ∧ (∃ t, exec .palAssign (operand 0x7C00#32) = .next t) ∧ (operand 0x7C00#32).palette = Palette.reset ∧
      ∃ t, exec .tile8 State.reset = .next t :=
  ⟨Palette.reset_inv, ⟨_, rfl⟩, rfl, ⟨_, rfl⟩⟩

theorem witness_IndicesFollowFirstSeenOrder : State.reset.palette = Palette.reset := rfl

theorem witness_OverflowsAreCountedOncePerPresentation : State.reset.palette = Palette.reset := rfl

/-- The palette file ends at MEM_SIZE, and one byte past it. -/
theorem witness_PalStoreWritesThePaletteFile :
    (load { cfg with dstBase := 0xFE00#32 } []).cfg.dstBase.toNat + 512 ≤ State.reset.memSize ∧
      State.reset.memSize < (load { cfg with dstBase := 0xFE01#32 } []).cfg.dstBase.toNat + 512 := by decide

/-- One state for each check, each at the edge: H = 0 alone, a plane one byte past MEM_SIZE, a plane on the source's last byte. -/
theorem witness_RasterEncodeChecksInOrder :
    FmtBad (raster 0x1F03#32) ∧
      (¬FmtBad (raster 0x1B03#32) ∧
        GeometryBad { raster 0x1F00#32 with cfg := { (raster 0x1F00#32).cfg with height := 0#16 } }) ∧
      (let s := { raster 0x100#32 with cfg := { (raster 0x100#32).cfg with idx8Base := 0xFFFD#32 } };
        ¬FmtBad s ∧ ¬GeometryBad s ∧ ¬RangeOk (rasterRegions s) s) ∧
      (let s := { raster 0x100#32 with cfg := { (raster 0x100#32).cfg with idx8Base := 0x00F#32 } };
        ¬FmtBad s ∧ ¬GeometryBad s ∧ RangeOk (rasterRegions s) s ∧ ¬OverlapOk (rasterRegions s)) := by decide

theorem witness_RasterEncodeWritesOnlyItsPlanes : RasterReady (raster 0x1F00#32) ∧ RasterReady (raster 0#32) := by decide

/-- All planes with each format and byte order. -/
theorem witness_ScanOrderPlanesHoldAlphaAndColour :
    RasterReady (raster 0x1F00#32) ∧ RasterReady (raster 0x1F01#32) ∧ RasterReady (raster 0x1F0A#32) ∧
      (raster 0x1F0A#32).cfg.encCfg.enAlpha = true ∧ (raster 0x1F0A#32).cfg.encCfg.enC16 = true ∧
      (raster 0x1F0A#32).cfg.encCfg.bswap16 = true ∧ 1 < (raster 0x1F00#32).w ∧ 1 < (raster 0x1F00#32).h := by decide

/-- A width that leaves pad bits. -/
theorem witness_OneBitPlanePacksRowsMsbFirst :
    RasterReady (raster 0x200#32) ∧ (raster 0x200#32).cfg.encCfg.enBit1 = true ∧ 1 < (raster 0x200#32).h ∧
      7 < 8 * (((raster 0x200#32).w + 7) / 8) := by decide

/-- An even and an odd number of pixels. -/
theorem witness_PackedPlaneHoldsPixelPairs :
    (RasterReady (raster 0x1000#32) ∧ (raster 0x1000#32).cfg.encCfg.enPk444 = true) ∧
      (let s := { raster 0x1000#32 with cfg := { (raster 0x1000#32).cfg with width := 1#16, height := 3#16 } };
        RasterReady s ∧ 1 < (s.w * s.h + 1) / 2 ∧ ¬2 * 1 + 1 < s.w * s.h) := by decide

theorem witness_IndexPlaneIsTheScanOfCvtIdx8 :
    RasterReady (raster 0x100#32) ∧ (raster 0x100#32).cfg.encCfg.enIdx8 = true ∧ 3 < (raster 0x100#32).w * (raster 0x100#32).h := by
  decide

theorem witness_IndexPlaneAgreesWithThePalette :
    RasterReady (raster 0x104#32) ∧ (raster 0x104#32).cfg.encCfg.enIdx8 = true ∧
      IsTransparent (sourcePixel (raster 0x104#32) 1 0).a true ∧ ¬IsTransparent (sourcePixel (raster 0x104#32) 0 0).a true := by
  decide

/-- One state for each check of each operation. -/
theorem witness_TileChecksInOrder :
    (GeometryBad (tiles 0#16 4#16 2#8 16) ∧ GeometryBad (tiles 4#16 0#16 2#8 16)) ∧
      (¬GeometryBad (tiles 4#16 4#16 0#8 16) ∧ TileBad (tiles 4#16 4#16 0#8 16) ∧ TileBad (tiles 4#16 4#16 1#8 16) ∧
        TileBad (tiles 6#16 4#16 4#8 16) ∧ TileBad (tiles 4#16 6#16 4#8 16)) ∧
      (let s := { tiles 4#16 4#16 2#8 16 with cfg := { (tiles 4#16 4#16 2#8 16).cfg with dstBase := 0xFFF1#32 } };
        ¬GeometryBad s ∧ ¬TileBad s ∧ ¬RangeOk (tileRegions 1 s) s ∧ ¬RangeOk (tileRegions 2 s) s) ∧
      (let s := { tiles 4#16 4#16 2#8 16 with cfg := { (tiles 4#16 4#16 2#8 16).cfg with dstBase := 0x00F#32 } };
        ¬GeometryBad s ∧ ¬TileBad s ∧ RangeOk (tileRegions 1 s) s ∧ ¬OverlapOk (tileRegions 1 s) ∧
          RangeOk (tileRegions 2 s) s ∧ ¬OverlapOk (tileRegions 2 s)) ∧
      (¬GeometryBad (tiles 4#16 4#16 2#8 16) ∧ Tile1bitBad (tiles 4#16 4#16 2#8 16)) ∧
      (let s := { tiles 8#16 8#16 8#8 8 with cfg := { (tiles 8#16 8#16 8#8 8).cfg with mapxBase := 0x10000#32 } };
        ¬GeometryBad s ∧ ¬Tile1bitBad s ∧ ¬RangeOk (tile1bitRegions s) s) ∧
      (let s := { tiles 8#16 8#16 8#8 8 with cfg := { (tiles 8#16 8#16 8#8 8).cfg with mapxBase := 0x210#32 } };
        ¬GeometryBad s ∧ ¬Tile1bitBad s ∧ RangeOk (tile1bitRegions s) s ∧ ¬OverlapOk (tile1bitRegions s)) := by
  refine ⟨?_, ?_, ?_, ?_, ?_, ?_, ?_⟩ <;> decide

/-- The destination ends at MEM_SIZE. -/
theorem witness_TileEightFollowsTheAddressFormula :
    TileReady 1 { tiles 4#16 4#16 2#8 16 with cfg := { (tiles 4#16 4#16 2#8 16).cfg with dstBase := 0xFFF0#32 } } := by decide

theorem witness_TileSixteenMovesWholeWords : TileReady 2 (tiles 4#16 2#16 2#8 16) := by decide

theorem witness_TileOneBitCopiesPackedRows :
    Tile1bitReady (tiles 16#16 8#16 8#8 16) ∧ 1 < (tiles 16#16 8#16 8#8 16).w / (tiles 16#16 8#16 8#8 16).t ∧
      0 < (tiles 16#16 8#16 8#8 16).h / (tiles 16#16 8#16 8#8 16).t := by decide

/-- A tile with a set pixel and one without. -/
theorem witness_TrimMapsHoldTheLastLitPixel :
    (let s := load { cfg with width := 16#16, height := 8#16, tile := 8#8 } (0x00#8 :: 0x01#8 :: List.replicate 14 0x00#8);
      Tile1bitReady s ∧ Lit s 0 1 0 7 ∧ ∀ i < 8, ∀ c < 8, ¬Lit s 0 0 i c) := by decide +kernel

theorem witness_TilingIsABijection :
    (¬GeometryBad (tiles 4#16 4#16 2#8 16) ∧ ¬TileBad (tiles 4#16 4#16 2#8 16)) ∧
      ¬GeometryBad (tiles 16#16 8#16 8#8 16) ∧ ¬Tile1bitBad (tiles 16#16 8#16 8#8 16) := by decide

theorem witness_UntilingRecoversTheSource : TileReady 1 (tiles 4#16 4#16 2#8 16) := by decide

/-- Run lengths 2, 3, REP_MAX and one more symbol than REP_MAX, for both widths' clauses at w = 8. -/
theorem witness_EncoderIsGreedy :
    (8 = 8 ∨ 8 = 16) ∧ ([1#8] : List Byte) ≠ [] ∧ runLength ([1#8, 1#8] : List Byte) = 2 ∧
      runLength ([1#8, 1#8, 1#8] : List Byte) = 3 ∧ runLength (List.replicate 130 7#8) = 130 ∧
      runLength (List.replicate 131 7#8) = 130 ∧ runLength ([1#16, 1#16, 2#16] : List Half) = 2 := by decide +kernel

/-- The last literal header and the first repeat header, with and without a symbol after it. -/
theorem witness_DecoderReadsOneRecordAtATime :
    (127#8 : Byte).toNat < 2 ^ (8 - 1) ∧ 2 ^ (8 - 1) ≤ (128#8 : Byte).toNat ∧ (0x7FFF#16 : Half).toNat < 2 ^ (16 - 1) ∧
      2 ^ (16 - 1) ≤ (0x8000#16 : Half).toNat := by decide

theorem witness_DecodingInvertsEncoding : (8 = 8 ∨ 8 = 16) ∧ (16 = 8 ∨ 16 = 16) := by decide

theorem witness_EncodingExpandsByAtMostTheBound : 1 ≤ (List.replicate 1 0#8).length := by decide

theorem witness_UniformInputGivesOneRecord : 3 ≤ 3 ∧ 3 ≤ 2 ^ (8 - 1) + 2 ∧ 3 ≤ 130 ∧ 130 ≤ 2 ^ (8 - 1) + 2 := by decide

/-- V-RLE-C2 and V-RLE-C1: a capacity that just holds the stream, and one byte less; and V-RLE-C4. -/
theorem witness_RleEightEncodeWritesTheStream :
    (let s := stream 4#32 4#32 [0x41#8, 0x41#8, 0x41#8, 0x42#8];
      RleReady 1 s ∧ (rleEncode (s.bytesAt 0 4)).length ≤ s.cfg.dstCap.toNat) ∧
      (let s := stream 4#32 3#32 [0x41#8, 0x41#8, 0x41#8, 0x42#8];
        RleReady 1 s ∧ s.cfg.dstCap.toNat < (rleEncode (s.bytesAt 0 4)).length) ∧ RleReady 1 (stream 0#32 0#32 []) := by decide

/-- V-RLE-C5, V-RLE-C6 on three words: two words fit 5 bytes, not 3. -/
theorem witness_RleSixteenEncodeWritesTheStream :
    (let s := stream 3#32 5#32 [0x34#8, 0x12#8, 0x34#8, 0x12#8, 0x34#8, 0x12#8];
      RleReady 2 s ∧ 2 * (rleEncode (s.halvesAt 0 3)).length ≤ s.cfg.dstCap.toNat) ∧
      (let s := stream 3#32 3#32 [0x34#8, 0x12#8, 0x34#8, 0x12#8, 0x34#8, 0x12#8];
        RleReady 2 s ∧ s.cfg.dstCap.toNat < 2 * (rleEncode (s.halvesAt 0 3)).length) := by decide

/-- V-DEC-5, V-DEC-1, and V-DEC-9. -/
theorem witness_RleEightDecodeWritesTheSymbols :
    (RleReady 1 (stream 4#32 6#32 [0x80#8, 0x41#8, 0x80#8, 0x41#8]) ∧
        rleDecode 6 [0x80#8, 0x41#8, 0x80#8, 0x41#8] = .ok [0x41#8, 0x41#8, 0x41#8, 0x41#8, 0x41#8, 0x41#8]) ∧
      (RleReady 1 (stream 1#32 100#32 [0x80#8]) ∧ rleDecode 100 [0x80#8] = .error .rleFormat) ∧
      (RleReady 1 (stream 5#32 2#32 [0x02#8, 0x01#8, 0x02#8, 0x03#8, 0x80#8]) ∧
        rleDecode 2 [0x02#8, 0x01#8, 0x02#8, 0x03#8, 0x80#8] = .error .capacity) := by decide

/-- V-DEC-7, V-DEC-6, and V-DEC-7 with one word of capacity. -/
theorem witness_RleSixteenDecodeWritesTheSymbols :
    (RleReady 2 (stream 3#32 4#32 [0x01#8, 0x00#8, 0xAA#8, 0xAA#8, 0xBB#8, 0xBB#8]) ∧
        rleDecode (4 / 2) [0x0001#16, 0xAAAA#16, 0xBBBB#16] = .ok [0xAAAA#16, 0xBBBB#16]) ∧
      (RleReady 2 (stream 1#32 10#32 [0x00#8, 0x80#8]) ∧ rleDecode (10 / 2) [0x8000#16] = .error .rleFormat) ∧
      rleDecode (3 / 2) [0x0001#16, 0xAAAA#16, 0xBBBB#16] = .error .capacity := by decide

/-- V-RLE-C3 and V-RLE-C7. -/
theorem witness_RleChecksInOrder :
    (let s := load { cfg with srcLen := 4#32, dstBase := 0xFFFE#32, dstCap := 4#32 } [];
      ¬RangeOk (rleRegions 1 s) s ∧ ¬RangeOk (rleRegions 2 s) s) ∧
      (let s := load { cfg with srcBase := 0x10#32, srcLen := 7#32, dstBase := 0x14#32, dstCap := 7#32 } [];
        RangeOk (rleRegions 1 s) s ∧ ¬OverlapOk (rleRegions 1 s) ∧ RangeOk (rleRegions 2 s) s ∧ ¬OverlapOk (rleRegions 2 s)) := by
  decide

/-- V-RLE8-15 encoded at 0x100 and decoded from there to 0x200, as in program P3. -/
theorem witness_CompressedBuffersDecompress :
    (let s := stream 7#32 7#32 [1#8, 2#8, 2#8, 2#8, 2#8, 3#8, 3#8];
      let c := { s.cfg with srcBase := 0x100#32, srcLen := 7#32, dstBase := 0x200#32, dstCap := 7#32 };
      RleReady 1 s ∧ c.srcBase = s.cfg.dstBase ∧ s.cfg.srcLen.toNat ≤ c.dstCap.toNat ∧
        after .rle8Enc s (fun t => (t.status.done, decide (c.srcLen = t.outLen), decide (RleReady 1 { t with cfg := c }))) =
          some (true, true, true)) := by decide

/-- An RW register, an RO register, and the unmapped offsets at both ends. -/
theorem witness_RegisterWritesFollowTheRegisterMap :
    (storedMask .encCfg = some 0x00001F0F#32 ∧
        HostDoes (hostTurn (.writeReg 0x008 .bits32 0xFFFFFFFF#32) State.reset) (.writeReg RegName.encCfg.offset .bits32 0xFFFFFFFF#32) [] ∧
        (hostTurn (.writeReg 0x008 .bits32 0xFFFFFFFF#32) State.reset).status.busy = false) ∧
      (ReadOnly .result ∧ HostDoes (hostTurn (.writeReg 0x048 .bits32 5#32) State.reset) (.writeReg RegName.result.offset .bits32 5#32) []) ∧
      (HostDoes (hostTurn (.writeReg 0x058 .bits32 5#32) State.reset) (.writeReg 0x058 .bits32 5#32) [] ∧ 0x058 % 4 = 0) ∧
      HostDoes (hostTurn (.readReg 0x3FC .bits32) State.reset) (.readReg 0x3FC .bits32) [] ∧ 0x3FC % 4 = 0 ∧ 0x3FC < 0x400 := by
  decide

theorem witness_StatusBitsClearWhenWrittenOne :
    (let s := hostTurn (.writeReg 0x004 .bits32 0xFFFFFFFF#32) { State.reset with status := Status.ofWord 0x71E#32 };
      HostDoes s (.writeReg 0x004 .bits32 0xFFFFFFFF#32) [] ∧ s.status.busy = false) := by decide

/-- A narrow write, an unaligned read, and a register write while BUSY = 1. -/
theorem witness_ForbiddenRegisterAccessesSetTheMark :
    (AccessWidth.bits16 ≠ .bits32 ∧ HostDoes (hostTurn (.writeReg 0 .bits16 0#32) State.reset) (.writeReg 0 .bits16 0#32) []) ∧
      ((0x001 : Fin 0x800).val % 4 ≠ 0 ∧ HostDoes (hostTurn (.readReg 1 .bits32) State.reset) (.readReg 1 .bits32) []) ∧
      (RegName.status ≠ .cmd ∧
        HostDoes (hostTurn (.writeReg 0x004 .bits32 2#32) (running 0#32 State.reset)) (.writeReg RegName.status.offset .bits32 2#32) [] ∧
        (hostTurn (.writeReg 0x004 .bits32 2#32) (running 0#32 State.reset)).status.busy = true) := by decide

/-- The first and the last byte of a region of a running TILE_8, and the bytes beside it. -/
theorem witness_RunningRegionsAreClosedToTheHost :
    (let s := running 0x30#32 (tiles 4#16 4#16 2#8 16);
      s.status.busy = true ∧ decode s.cmd = .ok .tile8 ∧ (∃ r ∈ regions .tile8 s, r.base ≤ 0x100 ∧ 0x100 < r.base + r.len) ∧
        (∃ r ∈ regions .tile8 s, r.base ≤ 0x10F ∧ 0x10F < r.base + r.len) ∧
        (∀ r ∈ regions .tile8 s, ¬(r.base ≤ 0x110 ∧ 0x110 < r.base + r.len)) ∧ 0x110 < s.memSize ∧
        HostDoes (hostTurn (.writeMem 0x100 1#8) s) (.writeMem 0x100 1#8) [] ∧
        HostDoes (hostTurn (.readMem 0x110) s) (.readMem 0x110) []) := by decide

/-- A register that is not RO while BUSY = 1, an RO register while BUSY = 0, and one while BUSY = 1. -/
theorem witness_ReadsWhileBusy :
    (HostDoes (hostTurn (.readReg 0x004 .bits32) (running 0#32 State.reset)) (.readReg RegName.status.offset .bits32) [] ∧
        ¬RegName.freeWhileBusy .status) ∧
      (HostDoes (hostTurn (.readReg 0x048 .bits32) State.reset) (.readReg RegName.result.offset .bits32) [] ∧ ReadOnly .result) ∧
      HostDoes (hostTurn (.readReg 0x7FC .bits32) (running 0#32 State.reset)) (.readReg (RegName.palEntry 255).offset .bits32) [] ∧
      ReadOnly (.palEntry 255) :=
  ⟨by decide, ⟨by decide, .inl rfl⟩, by decide, .inr (.inr (.inr (.inr ⟨255, rfl⟩)))⟩

/-- Reset while idle, and during a TILE_8 with an address beside its destination. -/
theorem witness_ResetInputRestoresRegisters :
    HostDoes (hostTurn .reset State.reset) .reset [] ∧
      (let s := hostTurn .reset (running 0x30#32 (tiles 4#16 4#16 2#8 16));
        HostDoes s .reset [] ∧ s.status.busy = true ∧
          ∀ r ∈ destRegions .tile8 s, ¬(r.base ≤ 0x0FF ∧ 0x0FF < r.base + r.len)) := by decide

theorem witness_RefusalMarkIsNeverCleared :
    (let s := hostTurn .reset { State.reset with refusalMark := true };
      s.refusalMark = true ∧ ∃ t, step s = .next t) :=
  ⟨rfl, _, rfl⟩

theorem witness_WaitLoopsEnd :
    ({ running 0x20#32 State.reset with program := [.wait], schedule := [.host, .host] } : State).program = [.wait] := by decide

/-- A step of the block and a step of the host from states that satisfy the invariant. -/
theorem witness_EveryStepKeepsTheInvariant :
    Inv State.reset ∧ (∃ t, step State.reset = .next t) ∧ Inv (running 0x10#32 State.reset) ∧
      ∃ t, step (running 0x10#32 State.reset) = .next t :=
  ⟨⟨by decide, by simp [State.reset], by decide, by decide, Palette.reset_inv, ⟨by decide, by decide, by decide, by decide⟩⟩, ⟨_, rfl⟩,
    ⟨by decide, by simp [running, State.accept, State.reset], by decide, by decide, Palette.reset_inv,
      ⟨by decide, by decide, by decide, by decide⟩⟩, ⟨_, rfl⟩⟩

/-- The least and the greatest MEM_SIZE of R7. -/
theorem witness_ResetStateIsGood : (1 ≤ 1 ∧ 1 ≤ 2 ^ 32) ∧ 1 ≤ 2 ^ 32 ∧ 2 ^ 32 ≤ 2 ^ 32 := by decide

/-- A step of the block and a step of the host, at a MEM_SIZE other than that of State.reset. -/
theorem witness_NoStepChangesMemSize :
    (∃ t, step (running 0x10#32 (State.resetOf 1)) = .next t ∧ t.status.done = true) ∧
      ∃ t, step (hostTurn .reset (State.resetOf 1)) = .next t :=
  ⟨⟨_, rfl, rfl⟩, _, rfl⟩

end Sys2Proof.Tests
end

/-! ## The raster planes of BMEM

`20_memory.md` R72 and R75: what the BIT1 and the PK444 plane hold after RASTER_ENCODE. Each plane is a list of bytes; a lemma
names the list's element at an index, and `rasterEncodeBody_byteAt` makes it a byte of BMEM. -/

section

namespace Sys2Proof.Machine

open Sys2Proof Sys2Proof.Claims

/-! ### RASTER_ENCODE with its checks passed -/

/-- `RasterReady` is the statements' form of the checks that the model makes (`40_command_control.md` R114-R116). -/
theorem firstFailing_rasterEncode_of_ready {s : State} (h : RasterReady s) :
    firstFailing (checksOf .rasterEncode s) = none := by
  obtain ⟨hfmt, hgeo, hrange, hoverlap⟩ := h
  have hregions : regions .rasterEncode s = rasterRegions s := rfl
  have hfmt : s.badFmt = false := Bool.eq_false_iff.mpr (mt s.badFmt_iff.mp hfmt)
  have hgeo : s.badGeometry = false := Bool.eq_false_iff.mpr (mt s.badGeometry_iff.mp hgeo)
  have hrange : rangeOk (rasterRegions s) s.memSize = true := (rangeOk_iff _ _).mpr hrange
  have hoverlap : overlapOk (rasterRegions s) = true := (overlapOk_iff _).mpr hoverlap
  simp [checksOf, memoryChecks, hregions, hfmt, hgeo, hrange, hoverlap]

theorem exec_rasterEncode_of_ready {s : State} (h : RasterReady s) :
    exec .rasterEncode s = .next (rasterEncodeBody s) :=
  exec_eq_body (firstFailing_rasterEncode_of_ready h)

/-- BMEM holds an enabled plane's bytes from the plane's base on. -/
theorem rasterEncodeBody_byteAt {s : State} (h : RasterReady s) {base : Word} {bs : List Byte}
    (hp : (true, base, bs) ∈ planesOf s) {i : Nat} {v : Byte} (hv : bs[i]? = some v) :
    (rasterEncodeBody s).byteAt (base.toNat + i) = v := by
  obtain ⟨hi, rfl⟩ := List.getElem?_eq_some_iff.mp hv
  exact rasterEncodeBody_in (firstFailing_rasterEncode_of_ready h) _ hp rfl i hi

/-- The model's pixel of the source raster is that of the statements (`20_memory.md` R62). -/
theorem State.pixelAt_eq_sourcePixel (s : State) (x y : Nat) : s.pixelAt x y = sourcePixel s x y := rfl

/-! ### The BIT1 plane -/

theorem bit1_iff (a : Byte) : bit1 a = true ↔ a ≠ 0#8 := by simp [bit1]

/-- The first of eight packed values is the byte's MSB. -/
theorem packMsbFirst_getLsbD (f : Nat → Bool) (b : Nat) (hb : b < 8) : (packMsbFirst f).getLsbD (7 - b) = f b := by
  simp only [packMsbFirst, BitVec.getLsbD_append]
  interval_cases b <;> simp

theorem bit1Plane_getElem? (w h bw : Nat) (px : Nat → Pixel) (row col : Nat) (hr : row < h) (hc : col < bw) :
    (bit1Plane w h bw px)[row * bw + col]? =
      some (packMsbFirst fun b => decide (8 * col + b < w) && bit1 (px (row * w + (8 * col + b))).a) := by
  have hlt : row * bw + col < h * bw :=
    calc row * bw + col < (row + 1) * bw := by rw [Nat.add_mul, Nat.one_mul]; omega
      _ ≤ h * bw := Nat.mul_le_mul_right _ hr
  have hdiv : (row * bw + col) / bw = row := by
    rw [Nat.mul_comm, Nat.mul_add_div (by omega), Nat.div_eq_of_lt hc, Nat.add_zero]
  have hmod : (row * bw + col) % bw = col := by rw [Nat.mul_comm, Nat.mul_add_mod, Nat.mod_eq_of_lt hc]
  simp [bit1Plane, hlt, hdiv, hmod]

/-- The bit of column `x` in a scan row of the BIT1 plane, pad bits included. -/
theorem rasterEncodeBody_bit1 {s : State} (h : RasterReady s) (hen : s.cfg.encCfg.enBit1 = true) {row x : Nat}
    (hr : row < s.h) (hx : x < 8 * s.bw) :
    ((rasterEncodeBody s).byteAt (s.cfg.bit1Base.toNat + (row * s.bw + x / 8))).getLsbD (7 - x % 8) =
      (decide (x < s.w) && bit1 (s.scanPixel (row * s.w + x)).a) := by
  have hbyte := bit1Plane_getElem? s.w s.h s.bw s.scanPixel row (x / 8) hr (by omega)
  rw [rasterEncodeBody_byteAt h (by simp [planesOf, hen]) hbyte, packMsbFirst_getLsbD _ _ (by omega), Nat.div_add_mod]

/-! ### The PK444 plane -/

/-- The three nibbles of `41_pixel_codec.md` R137, shifted into place, are their concatenation. -/
theorem Pixel.rgb444_eq_value444 (p : Pixel) : p.rgb444 = value444 p := by
  apply BitVec.eq_of_getLsbD_eq
  intro i hi
  simp only [Pixel.rgb444, BitVec.getLsbD_or, BitVec.getLsbD_shiftLeft, BitVec.getLsbD_setWidth,
    BitVec.getLsbD_ushiftRight, BitVec.getLsbD_append, BitVec.getLsbD_extractLsb']
  interval_cases i <;> simp

/-- The three bytes of `packPair`, read little-endian, are the 24-bit value v0 | v1 << 12. -/
theorem packPair_littleEndian (v0 v1 : BitVec 12) :
    v1.extractLsb' 4 8 ++ (v1.extractLsb' 0 4 ++ v0.extractLsb' 8 4) ++ v0.extractLsb' 0 8 = v1 ++ v0 := by
  apply BitVec.eq_of_getLsbD_eq
  intro i hi
  simp only [BitVec.getLsbD_append, BitVec.getLsbD_extractLsb']
  interval_cases i <;> simp

theorem pk444Plane_getElem? (n : Nat) (px : Nat → Pixel) (m b : Nat) (hm : m < (n + 1) / 2) (hb : b < 3) :
    (pk444Plane n px)[3 * m + b]? =
      (packPair (value444 (px (2 * m))) (if 2 * m + 1 < n then value444 (px (2 * m + 1)) else 0#12))[b]? := by
  rw [pk444Plane, getElem?_flatMap_chunks _ 3 (fun _ => rfl) _ m b hb, List.getElem?_range hm, Option.bind_some,
    Pixel.rgb444_eq_value444, Pixel.rgb444_eq_value444]

/-- The byte `b` of pair `m` of the PK444 plane. -/
theorem rasterEncodeBody_pk444 {s : State} (h : RasterReady s) (hen : s.cfg.encCfg.enPk444 = true) {m b : Nat}
    (hm : m < (s.n + 1) / 2) (hb : b < 3) :
    some ((rasterEncodeBody s).byteAt (s.cfg.pk444Base.toNat + (3 * m + b))) =
      (packPair (value444 (s.scanPixel (2 * m)))
        (if 2 * m + 1 < s.n then value444 (s.scanPixel (2 * m + 1)) else 0#12))[b]? := by
  rw [← pk444Plane_getElem? _ _ _ _ hm hb, List.getElem?_eq_getElem (by rw [pk444Plane_length]; omega)]
  exact congrArg some (rasterEncodeBody_byteAt h (by simp [planesOf, hen]) (List.getElem?_eq_getElem _))

end Sys2Proof.Machine

open Sys2Proof Sys2Proof.Machine Sys2Proof.Claims

/-- Settles O27: the bit is that of column x in scan row H-1-y, whose pixel is (x, y) where x < W; past W it is a pad bit. -/
theorem oneBitPlanePacksRowsMsbFirst : Obligations.OneBitPlanePacksRowsMsbFirst := by
  unfold Obligations.OneBitPlanePacksRowsMsbFirst
  intro s hready hen
  refine ⟨rasterEncodeBody s, exec_rasterEncode_of_ready hready, fun x y hy hx => ?_⟩
  have hbit := rasterEncodeBody_bit1 hready hen (row := s.h - 1 - y) (by omega) hx
  have hbw : (s.w + 7) / 8 = s.bw := rfl
  rw [hbw, Nat.add_assoc, hbit, Bool.and_eq_true, decide_eq_true_iff, bit1_iff]
  exact and_congr_right fun hxw => by rw [(scan_index s x y hxw hy).2, State.pixelAt_eq_sourcePixel]

/-- Settles O28: the three bytes of pair m are those of `packPair`, which read back as v0 | v1 << 12. -/
theorem packedPlaneHoldsPixelPairs : Obligations.PackedPlaneHoldsPixelPairs := by
  unfold Obligations.PackedPlaneHoldsPixelPairs
  intro s hready hen
  refine ⟨rasterEncodeBody s, exec_rasterEncode_of_ready hready, fun m hm => ?_⟩
  have byte (b : Nat) (hb : b < 3) := rasterEncodeBody_pk444 hready hen hm hb
  have h0 := Option.some.inj (byte 0 (by decide))
  have h1 := Option.some.inj (byte 1 (by decide))
  have h2 := Option.some.inj (byte 2 (by decide))
  simp only [Nat.add_zero, ← Nat.add_assoc] at h0 h1 h2
  simp only [h0, h1, h2]
  exact packPair_littleEndian _ _

end

/-! ## Illegal command words

`30_encoding.md` R90-R93: a word's two fields as numbers, the one test of legality that `legalWord` and `decode` share, and
what the host's and the block's step do with a word that fails it. -/

section

namespace Sys2Proof.Machine

open Sys2Proof Sys2Proof.Claims

/-! ### The fields of a command word -/

theorem rsvd_eq_zero_iff (c : Word) : c.extractLsb' 8 24 = 0#24 ↔ c.toNat / 256 = 0 := by
  rw [← BitVec.toNat_inj, BitVec.extractLsb'_toNat, Nat.shiftRight_eq_div_pow, BitVec.toNat_ofNat]
  omega

theorem opcode_toNat (c : Word) : (c.extractLsb' 0 8).toNat = c.toNat % 256 := by
  rw [BitVec.extractLsb'_toNat, Nat.shiftRight_zero]

/-! ### Legality -/

/-- The opcodes of the map R92 are those that R93 does not reserve. -/
theorem mem_usedOpcodes_iff (op : BitVec 8) : op ∈ usedOpcodes ↔ ¬ReservedOpcode op.toNat := by
  simp only [usedOpcodes, List.mem_cons, List.not_mem_nil, or_false, ← BitVec.toNat_inj, BitVec.toNat_ofNat]
  omega

theorem decodeOpcode_eq_none_iff (op : BitVec 8) : decodeOpcode op = none ↔ ReservedOpcode op.toNat := by
  have hlt := op.isLt
  unfold decodeOpcode
  split
  case h_19 => simp only [true_iff, ReservedOpcode, imp_false] at *; omega
  all_goals simp only [reduceCtorEq, false_iff]; omega

theorem legalWord_iff (c : Word) : legalWord c = true ↔ ¬(c.toNat / 256 ≠ 0 ∨ ReservedOpcode (c.toNat % 256)) := by
  rw [legalWord, Bool.and_eq_true, reservedBitsClear, beq_iff_eq, rsvd_eq_zero_iff, opcodeUsed, List.contains_iff_mem,
    mem_usedOpcodes_iff, opcode_toNat, ← not_ne_iff, ← not_or]

theorem decode_eq_error_iff (c : Word) :
    (∃ why, decode c = .error why) ↔ c.toNat / 256 ≠ 0 ∨ ReservedOpcode (c.toNat % 256) := by
  rw [← opcode_toNat, ← decodeOpcode_eq_none_iff, ne_eq, ← rsvd_eq_zero_iff]
  unfold decode
  by_cases hr : c.extractLsb' 8 24 = 0#24
  · cases decodeOpcode (c.extractLsb' 0 8) <;> simp [hr]
  · simp [hr]

/-- The decoder rejects exactly the words that are not legal (R91). -/
theorem decode_eq_error_iff_not_legalWord (c : Word) : (∃ why, decode c = .error why) ↔ legalWord c = false := by
  rw [decode_eq_error_iff, ← Bool.not_eq_true, legalWord_iff, not_not]

/-! ### The steps that take a command word -/

/-- A CMD write while BUSY = 0 is accepted, whatever its word (`40_command_control.md` R110). -/
theorem step_cmdWrite_idle {s : State} {c : Word} {rest : List HostAction}
    (h : HostDoes s (.writeReg 0x000 .bits32 c) rest) (hb : s.status.busy = false) :
    step s = .next ((goneOn s rest).accept c) := by
  obtain ⟨hm, hp⟩ := h
  have hwrite := hostWriteReg_idle 0x000 .cmd c (goneOn s rest) (by decide) (by decide) hb
  rw [step_hostAct hm hp]
  exact congrArg Host.Outcome.next hwrite

/-- The block's step on a word that is not legal raises ILLEGAL_CMD and nothing else (R91, R118). -/
theorem step_block_not_legalWord {s : State} (h : BlockRuns s) (hc : legalWord s.cmd = false) :
    step s = .next (s.scheduleOn.raiseError .illegalCmd) := by
  obtain ⟨hm, hb⟩ := h
  obtain ⟨_, hd⟩ := (decode_eq_error_iff_not_legalWord s.cmd).mpr hc
  exact step_block_illegal hm hb hd

end Sys2Proof.Machine

open Sys2Proof Sys2Proof.Machine Sys2Proof.Claims

/-- Settles O3: acceptance does not look at the word, and the decoder's error leads the block's step to `raiseError` alone. -/
theorem illegalWordsRaiseIllegalCmd : Obligations.IllegalWordsRaiseIllegalCmd := by
  unfold Obligations.IllegalWordsRaiseIllegalCmd
  exact ⟨decode_eq_error_iff, legalWord_iff, fun _ _ _ hact hidle _ => step_cmdWrite_idle hact hidle,
    fun _ hruns hillegal => step_block_not_legalWord hruns hillegal⟩

end

/-! ## The end of a command

`40_command_control.md` R117-R119: an operation has two ways to end, `raiseError` and the end of its body, and the decoder's
error is the first of them. -/

section

namespace Sys2Proof.Machine

open Sys2Proof Sys2Proof.Claims

/-- A failing check ends an operation by `raise Error(code)` (R118); with every check passed, its body ends it (R117 or R118). -/
theorem exec_ends (i : Instr) (s : State) :
    ∃ t, exec i s = .next t ∧ t.status.busy = false ∧ (t.status.done = true ∨ t.status.err = true) := by
  obtain ⟨t, ht⟩ := exec_total i s
  refine ⟨t, ht, ?_⟩
  rcases exec_cases ht with ⟨e, -, rfl⟩ | ⟨-, rfl⟩
  · simp
  · exact bodyOf_status i s

end Sys2Proof.Machine

open Sys2Proof Sys2Proof.Machine Sys2Proof.Claims

/-- Settles O6: a word that decodes is executed, and every operation ends; one that does not raises ILLEGAL_CMD. -/
theorem everyCommandEndsInOneBlockStep : Obligations.EveryCommandEndsInOneBlockStep := by
  unfold Obligations.EveryCommandEndsInOneBlockStep
  rintro s ⟨hmover, hbusy⟩
  cases hd : decode s.cmd with
  | ok i =>
    rw [step_block_decoded hmover hbusy hd]
    exact exec_ends i s.scheduleOn
  | error why => exact ⟨_, step_block_illegal hmover hbusy hd, by simp⟩

end

/-! ## The pixel codec

`41_pixel_codec.md`: the shifted and or-ed channels of the transforms are the concatenations of the statements, and a
single-pixel operation that touches no palette changes RESULT and STATUS alone. -/

section

namespace Sys2Proof.Machine

open Sys2Proof Sys2Proof.Claims

/-! ### The transforms -/

theorem transparent_iff (a : Byte) (pt : Bool) : transparent a pt = true ↔ IsTransparent a pt := by simp [transparent]

/-- The three upper-five-bit fields of R132, shifted into place, are their concatenation. -/
theorem Pixel.color15_eq_concat (p : Pixel) : p.color15 = Claims.color15 p := by
  apply BitVec.eq_of_getLsbD_eq
  intro i hi
  simp only [Pixel.color15, BitVec.getLsbD_or, BitVec.getLsbD_shiftLeft, BitVec.getLsbD_setWidth,
    BitVec.getLsbD_ushiftRight, BitVec.getLsbD_append, BitVec.getLsbD_extractLsb']
  interval_cases i <;> simp

/-- A bit shifted to place 15 and or-ed onto 15 bits stands in front of three five-bit fields that make them up. -/
theorem shiftLeft_or_eq_append (t : BitVec 1) (r g b : BitVec 5) :
    (t.setWidth 16 <<< 15) ||| (r ++ g ++ b : Color15).setWidth 16 = t ++ r ++ g ++ b := by
  apply BitVec.eq_of_getLsbD_eq
  intro i hi
  simp only [BitVec.getLsbD_or, BitVec.getLsbD_shiftLeft, BitVec.getLsbD_setWidth, BitVec.getLsbD_append]
  interval_cases i <;> simp

theorem Pixel.rgb555_eq_word555 (p : Pixel) (pt : Bool) : p.rgb555 pt = word555 p pt := by
  rw [Pixel.rgb555, Pixel.color15_eq_concat, word555, ← shiftLeft_or_eq_append]
  by_cases h : IsTransparent p.a pt
  · rw [if_pos h, if_pos ((transparent_iff _ _).mpr h)]; rfl
  · rw [if_neg h, if_neg (mt (transparent_iff _ _).mp h)]; rfl

/-! ### The operations -/

/-- The model's pixel operand is that of the statements (R130). -/
theorem State.pixelOperand_eq_argPixel (s : State) : s.pixelOperand = argPixel s := rfl

/-- An operation without checks, whose body sets RESULT and completes, leaves every other register and BMEM as they are. -/
theorem exec_eq_withResult {i : Instr} {s : State} {v : Word} (hchecks : checksOf i s = [])
    (hbody : bodyOf i s = (s.setResult v).complete) : exec i s = .next (withResult s v) := by
  have hnone : firstFailing (checksOf i s) = none := by rw [hchecks]; rfl
  rw [exec_eq_body hnone, hbody]
  rfl

theorem exec_cvtRgb555 (s : State) :
    exec .cvtRgb555 s = .next (withResult s ((s.pixelOperand.rgb555 s.pt).setWidth 32)) :=
  exec_eq_withResult rfl rfl

theorem exec_cvtRgb444 (s : State) :
    exec .cvtRgb444 s = .next (withResult s (s.pixelOperand.rgb444.setWidth 32)) :=
  exec_eq_withResult rfl rfl

theorem exec_cvt1bit (s : State) :
    exec .cvt1bit s = .next (withResult s (if bit1 s.pixelOperand.a then 1#32 else 0#32)) :=
  exec_eq_withResult rfl rfl

end Sys2Proof.Machine

open Sys2Proof Sys2Proof.Machine Sys2Proof.Claims

/-- Settles O12: the operation writes `rgb555` of its operand, which is the word of the statement. -/
theorem cvtRgb555GivesTheRgb555Word : Obligations.CvtRgb555GivesTheRgb555Word := by
  unfold Obligations.CvtRgb555GivesTheRgb555Word
  refine ⟨by decide, fun s => ?_⟩
  rw [exec_cvtRgb555, Pixel.rgb555_eq_word555, State.pixelOperand_eq_argPixel, State.pt]

/-- Settles O14: CVT_RGB444 writes the three nibbles, and CVT_1BIT's choice is on alpha being 0 alone. -/
theorem cvt444AndCvtOneBitGiveTheirValues : Obligations.Cvt444AndCvtOneBitGiveTheirValues := by
  unfold Obligations.Cvt444AndCvtOneBitGiveTheirValues
  refine ⟨by decide, by decide, fun s => ⟨?_, ?_⟩⟩
  · rw [exec_cvtRgb444, Pixel.rgb444_eq_value444, State.pixelOperand_eq_argPixel]
  · rw [exec_cvt1bit, State.pixelOperand_eq_argPixel]
    simp only [bit1_iff, ne_eq, ite_not]

end

/-! ## The palette builder

`42_palette_builder.md`: what PAL_RESET leaves, and what PAL_ASSIGN does with a colour its lookup does not find, with an index
left to bind and with none. -/

section

namespace Sys2Proof.Machine

open Sys2Proof Sys2Proof.Claims

/-! ### Assigning a colour the lookup does not find -/

/-- An unbound colour takes PAL_NEXT while there is one (R162). -/
theorem Palette.assign_eq_bind {p : Palette} {c : Color15} (hc : c ≠ 0#15) (hl : p.lookup c = none)
    (hn : p.next.toNat ≤ 255) : p.assign c = ⟨BitVec.ofNat 8 p.next.toNat, p.bind c, false⟩ := by
  rw [Palette.assign, if_neg hc, hl]
  exact if_pos hn

/-- An unbound colour overflows to 255 when no index is left (R162). -/
theorem Palette.assign_eq_countOverflow {p : Palette} {c : Color15} (hc : c ≠ 0#15) (hl : p.lookup c = none)
    (hn : 255 < p.next.toNat) : p.assign c = ⟨255#8, p.countOverflow, true⟩ := by
  rw [Palette.assign, if_neg hc, hl]
  exact if_neg (Nat.not_le.mpr hn)

/-! ### The operations -/

theorem exec_palReset (s : State) : exec .palReset s = .next s.palReset.complete := rfl

theorem exec_palAssign (s : State) :
    exec .palAssign s = .next (s.applyAssigned (s.palette.assign s.colorOperand)).complete := rfl

@[simp] theorem Status.noteOverflow_false (t : Status) : t.noteOverflow false = t := by
  simp [Status.noteOverflow]

/-- Without an overflow the writes of an assignment are RESULT, the palette and STATUS's end of a command. -/
theorem State.applyAssigned_complete_of_no_overflow (s : State) (i : Byte) (p : Palette) :
    (s.applyAssigned ⟨i, p, false⟩).complete = { withResult s (i.setWidth 32) with palette := p } := by
  simp only [State.applyAssigned, Status.noteOverflow_false]
  rfl

/-- An overflow sets PAL_OVF besides. -/
theorem State.applyAssigned_complete_of_overflow (s : State) (i : Byte) (p : Palette) :
    (s.applyAssigned ⟨i, p, true⟩).complete =
      { withResult s (i.setWidth 32) with palette := p, status := { done s.status with palOvf := true } } := by
  simp only [State.applyAssigned, Status.noteOverflow, Bool.or_true]
  rfl

/-- PAL_ASSIGN of an unbound colour with an index left. -/
theorem exec_palAssign_binds {s : State} (hc : s.colorOperand ≠ 0#15) (hl : s.palette.lookup s.colorOperand = none)
    (hn : s.palette.next.toNat ≤ 255) :
    exec .palAssign s = .next { withResult s (BitVec.ofNat 32 s.palette.next.toNat) with
      palette := s.palette.bind s.colorOperand } := by
  have hindex : (BitVec.ofNat 8 s.palette.next.toNat).setWidth 32 = BitVec.ofNat 32 s.palette.next.toNat :=
    BitVec.setWidth_ofNat_of_le_of_lt (by decide) (by omega)
  rw [exec_palAssign, Palette.assign_eq_bind hc hl hn, State.applyAssigned_complete_of_no_overflow, hindex]

/-- PAL_ASSIGN of an unbound colour with no index left. -/
theorem exec_palAssign_overflows {s : State} (hc : s.colorOperand ≠ 0#15) (hl : s.palette.lookup s.colorOperand = none)
    (hn : 255 < s.palette.next.toNat) :
    exec .palAssign s = .next { withResult s 255#32 with
      palette := s.palette.countOverflow
      status := { done s.status with palOvf := true } } := by
  rw [exec_palAssign, Palette.assign_eq_countOverflow hc hl hn, State.applyAssigned_complete_of_overflow]
  rfl

/-- The overflow counter's increment, written on its number (`10_state.md` R37). -/
theorem Palette.countOverflow_eq (p : Palette) :
    p.countOverflow = { p with ovfCnt := BitVec.ofNat 32 (p.ovfCnt.toNat + 1) } := by
  have hcnt : p.ovfCnt + 1#32 = BitVec.ofNat 32 (p.ovfCnt.toNat + 1) := by simp [BitVec.ofNat_add]
  rw [Palette.countOverflow, hcnt]

end Sys2Proof.Machine

open Sys2Proof Sys2Proof.Machine Sys2Proof.Claims

/-- Settles O19: the lookup finds nothing, so the assignment binds PAL_NEXT or, with PAL_NEXT = 256, counts an overflow. -/
theorem palAssignBindsOrOverflows : Obligations.PalAssignBindsOrOverflows := by
  unfold Obligations.PalAssignBindsOrOverflows
  refine ⟨fun s hc hn hnew => ?_, fun s hc hn hnew => ?_⟩
  · have hl : s.palette.lookup s.colorOperand = none := (Palette.lookup_eq_none_iff _ _).mpr hnew
    have hget := s.palette.bind_get s.colorOperand hn
    refine ⟨_, exec_palAssign_binds hc hl hn, rfl, ?_, fun j hj => ?_, Palette.bind_next_toNat _ _ hn, rfl⟩
    · exact (hget _).trans (if_pos rfl)
    · exact (hget j).trans (if_neg hj)
  · have hnext : s.palette.next.toNat = 256 := by rw [hn]; rfl
    have hl : s.palette.lookup s.colorOperand = none :=
      (Palette.lookup_eq_none_iff _ _).mpr fun j h2 hj => hnew j h2 (hnext ▸ hj)
    rw [exec_palAssign_overflows hc hl (by omega), Palette.countOverflow_eq]

/-- Settles O17: PAL_RESET completes with the reset palette and PAL_OVF clear. -/
theorem palResetUnbindsEverything : Obligations.PalResetUnbindsEverything := by
  unfold Obligations.PalResetUnbindsEverything
  refine ⟨by decide, fun s => ⟨_, exec_palReset s, rfl, fun k => ?_, rfl, rfl⟩⟩
  rw [← Palette.get_eq_entry]
  exact Palette.reset_get k

end

/-! ## The tile rearranger

`44_tile_rearranger.md`: the checks of the three tile operations, which differ in the tile check and the regions alone, and the
trim maps of TILE_1BIT, each a list of one extent per tile. -/

section

namespace Sys2Proof.Machine

open Sys2Proof Sys2Proof.Claims

/-! ### The checks -/

/-- A failing check is an error that writes STATUS alone (`40_command_control.md` R118). -/
theorem raises_of_firstFailing {i : Instr} {s : State} {e : ErrorCode} (h : firstFailing (checksOf i s) = some e) :
    raises i s e.code :=
  exec_eq_raise h

/-- The first failing check of a tile operation, by the outcomes of its four checks. -/
theorem firstFailing_tileChecks (i : Instr) (badTile : Bool) (s : State) :
    firstFailing (tileChecks i badTile s) =
      if s.badGeometry then some .badGeometry
      else if badTile then some .badTile
      else if rangeOk (regions i s) s.memSize then (if overlapOk (regions i s) then none else some .overlap)
      else some .range := by
  cases hr : rangeOk (regions i s) s.memSize <;> cases ho : overlapOk (regions i s) <;>
    simp [tileChecks, memoryChecks, hr, ho]

section

variable {i : Instr} {s : State} {badTile : Bool} {Bad : Prop} [Decidable Bad] {rs : List Region}
  (hchecks : checksOf i s = tileChecks i badTile s) (hbad : badTile = true ↔ Bad) (hregions : regions i s = rs)

include hchecks hbad hregions

/-- The first failing check of an operation whose tile check is `Bad` and whose regions are `rs`, in the statements' form. -/
theorem firstFailing_checksOf_tile :
    firstFailing (checksOf i s) =
      if GeometryBad s then some .badGeometry
      else if Bad then some .badTile
      else if RangeOk rs s then (if OverlapOk rs then none else some .overlap)
      else some .range := by
  rw [hchecks, firstFailing_tileChecks, hregions]
  exact if_congr s.badGeometry_iff rfl <| if_congr hbad rfl <|
    if_congr (rangeOk_iff rs s.memSize) (if_congr (overlapOk_iff rs) rfl rfl) rfl

/-- The order of precedence of R200 and R114. -/
theorem tileChecks_raise_in_order :
    (GeometryBad s → raises i s 3#4) ∧
      (¬GeometryBad s → Bad → raises i s 4#4) ∧
      (¬GeometryBad s → ¬Bad → ¬RangeOk rs s → raises i s 5#4) ∧
      (¬GeometryBad s → ¬Bad → RangeOk rs s → ¬OverlapOk rs → raises i s 6#4) := by
  have hfirst := firstFailing_checksOf_tile hchecks hbad hregions
  refine ⟨fun hg => ?_, fun hg ht => ?_, fun hg ht hr => ?_, fun hg ht hr ho => ?_⟩
  · rw [if_pos hg] at hfirst
    exact raises_of_firstFailing hfirst
  · rw [if_neg hg, if_pos ht] at hfirst
    exact raises_of_firstFailing hfirst
  · rw [if_neg hg, if_neg ht, if_neg hr] at hfirst
    exact raises_of_firstFailing hfirst
  · rw [if_neg hg, if_neg ht, if_pos hr, if_neg ho] at hfirst
    exact raises_of_firstFailing hfirst

/-- With its four checks passed, a tile operation runs its body. -/
theorem exec_tile_of_ready (hg : ¬GeometryBad s) (ht : ¬Bad) (hr : RangeOk rs s) (ho : OverlapOk rs) :
    exec i s = .next (bodyOf i s) :=
  exec_eq_body (by
    rw [firstFailing_checksOf_tile hchecks hbad hregions, if_neg hg, if_neg ht, if_pos hr, if_pos ho])

end

theorem regions_tile8 (s : State) : regions .tile8 s = tileRegions 1 s := by
  simp [regions, sourceRegions, destRegions, State.n]

theorem regions_tile16 (s : State) : regions .tile16 s = tileRegions 2 s := rfl

theorem regions_tile1bit (s : State) : regions .tile1bit s = tile1bitRegions s := rfl

/-- TILE_1BIT's tile check, in the statements' form. -/
theorem State.badTile1bit_iff_tile1bitBad (s : State) : s.badTile1bit = true ↔ Tile1bitBad s := by
  rw [s.badTile1bit_iff, s.badTile_iff]

theorem exec_tile1bit_of_ready {s : State} (h : Tile1bitReady s) : exec .tile1bit s = .next (tile1bitBody s) := by
  obtain ⟨hgeo, htile, hrange, hoverlap⟩ := h
  exact exec_tile_of_ready rfl s.badTile1bit_iff_tile1bitBad (regions_tile1bit s) hgeo htile hrange hoverlap

/-! ### The trim maps in BMEM -/

/-- TILE_1BIT writes the tiled rows, then MAPX, then MAPY. -/
theorem tile1bitBody_byteAt (s : State) (a : Nat) :
    (tile1bitBody s).byteAt a =
      (((s.storeBytes s.cfg.dstBase.toNat s.tiled1bit).storeBytes s.cfg.mapxBase.toNat
        (s.trimMap s.lastPixelX)).storeBytes s.cfg.mapyBase.toNat (s.trimMap s.lastPixelY)).byteAt a :=
  rfl

theorem trimMap_getElem (s : State) (extent : Nat → Nat) (k : Nat) (hk : k < (s.trimMap extent).length) :
    (s.trimMap extent)[k] = BitVec.ofNat 8 (extent k) := by
  simp [State.trimMap]

/-- MAPY is written last. -/
theorem tile1bitBody_mapy {s : State} {k : Nat} (hk : k < s.nt) :
    (tile1bitBody s).byteAt (s.cfg.mapyBase.toNat + k) = BitVec.ofNat 8 (s.lastPixelY k) := by
  rw [tile1bitBody_byteAt, State.byteAt_storeBytes_in _ _ _ _ (by simpa using hk), trimMap_getElem]

/-- MAPX keeps its bytes when MAPY is written, as the two regions do not overlap. -/
theorem tile1bitBody_mapx {s : State} (h : Tile1bitReady s) {k : Nat} (hk : k < s.nt) :
    (tile1bitBody s).byteAt (s.cfg.mapxBase.toNat + k) = BitVec.ofNat 8 (s.lastPixelX k) := by
  obtain ⟨-, -, -, hoverlap⟩ := h
  have hapart : ¬Overlap ⟨s.cfg.mapxBase.toNat, s.nt⟩ ⟨s.cfg.mapyBase.toNat, s.nt⟩ :=
    List.rel_of_pairwise_cons (hoverlap.drop (i := 2)) List.mem_cons_self
  have hout : s.cfg.mapxBase.toNat + k < s.cfg.mapyBase.toNat ∨
      s.cfg.mapyBase.toNat + (s.trimMap s.lastPixelY).length ≤ s.cfg.mapxBase.toNat + k := by
    rw [State.trimMap_length]
    simp only [Overlap] at hapart
    omega
  rw [tile1bitBody_byteAt, State.byteAt_storeBytes_out _ _ _ _ hout,
    State.byteAt_storeBytes_in _ _ _ _ (by simpa using hk), trimMap_getElem]

/-! ### The trim extents -/

/-- A tile side is an 8-bit register, so the last position of a tile fits in a byte of a trim map. -/
theorem toNat_ofNat_lastWhere (s : State) (p : Nat → Bool) (ht : 0 < s.t) :
    (BitVec.ofNat 8 (lastWhere p s.t)).toNat = lastWhere p s.t := by
  have hlast : lastWhere p s.t < s.t := lastWhere_lt p s.t ht
  have hside : s.t < 2 ^ 8 := s.cfg.tile.isLt
  rw [BitVec.toNat_ofNat, Nat.mod_eq_of_lt (hlast.trans hside)]

/-- `lastWhere` is the statements' last position of any proposition that its predicate decides. -/
theorem isLast_lastWhere {p : Nat → Bool} {P : Nat → Prop} (hp : ∀ k, p k = true ↔ P k) (n : Nat) :
    IsLast n P (lastWhere p n) := by
  simpa only [← Bool.not_eq_true, hp] using lastWhere_spec p n

/-- The number of a tile in tile-major order lies inside the maps (`20_memory.md` R77). -/
theorem State.tileNumber_lt_nt {s : State} {tr tc : Nat} (htr : tr < s.h / s.t) (htc : tc < s.w / s.t) :
    tr * (s.w / s.t) + tc < s.nt := by
  simpa [State.nt, Nat.mul_comm] using
    tilePosition_lt (s.h / s.t) (s.w / s.t) 1 1 tr tc 0 0 htr htc Nat.one_pos Nat.one_pos

/-- The model's pixel of a tile, found by the tile's number, is that of the statements, found by its row and column. -/
theorem State.litAt_iff_lit {s : State} {tc : Nat} (htc : tc < s.w / s.t) (tr i c : Nat) :
    s.litAt (tr * (s.w / s.t) + tc) i c = true ↔ Lit s tr tc i c := by
  have hdiv : (tr * (s.w / s.t) + tc) / (s.w / s.t) = tr := by
    rw [Nat.mul_comm, Nat.mul_add_div (by omega), Nat.div_eq_of_lt htc, Nat.add_zero]
  have hmod : (tr * (s.w / s.t) + tc) % (s.w / s.t) = tc := by rw [Nat.mul_comm, Nat.mul_add_mod, Nat.mod_eq_of_lt htc]
  simp only [State.litAt, Lit, hdiv, hmod, Nat.add_assoc]

/-- `last_pixel_x` of a tile (R206). -/
theorem State.isLast_lastPixelX {s : State} {tc : Nat} (htc : tc < s.w / s.t) (tr : Nat) :
    IsLast s.t (fun c => ∃ i, i < s.t ∧ Lit s tr tc i c) (s.lastPixelX (tr * (s.w / s.t) + tc)) :=
  isLast_lastWhere (fun c => by simp only [List.any_eq_true, List.mem_range, State.litAt_iff_lit htc]) s.t

/-- `last_pixel_y` of a tile (R206). -/
theorem State.isLast_lastPixelY {s : State} {tc : Nat} (htc : tc < s.w / s.t) (tr : Nat) :
    IsLast s.t (fun i => ∃ c, c < s.t ∧ Lit s tr tc i c) (s.lastPixelY (tr * (s.w / s.t) + tc)) :=
  isLast_lastWhere (fun i => by simp only [List.any_eq_true, List.mem_range, State.litAt_iff_lit htc]) s.t

end Sys2Proof.Machine

open Sys2Proof Sys2Proof.Machine Sys2Proof.Claims

/-- Settles O31: the three operations make the same four checks in the same order, each with its own tile check and regions. -/
theorem tileChecksInOrder : Obligations.TileChecksInOrder := by
  unfold Obligations.TileChecksInOrder
  refine ⟨fun s i k hop => ?_, fun s => ?_⟩
  · rcases hop with ⟨rfl, rfl⟩ | ⟨rfl, rfl⟩
    · exact tileChecks_raise_in_order rfl s.badTile_iff (regions_tile8 s)
    · exact tileChecks_raise_in_order rfl s.badTile_iff (regions_tile16 s)
  · exact tileChecks_raise_in_order rfl s.badTile1bit_iff_tile1bitBad (regions_tile1bit s)

/-- Settles O35: each map's byte of a tile is the tile's extent, which is below T and so fits in the byte. -/
theorem trimMapsHoldTheLastLitPixel : Obligations.TrimMapsHoldTheLastLitPixel := by
  unfold Obligations.TrimMapsHoldTheLastLitPixel
  intro s hready
  refine ⟨tile1bitBody s, exec_tile1bit_of_ready hready, fun tr tc htr htc => ?_⟩
  have hside : 0 < s.t := Nat.pos_of_ne_zero fun h0 => by simp [h0] at htc
  have hk := State.tileNumber_lt_nt htr htc
  constructor
  · rw [tile1bitBody_mapx hready hk, State.lastPixelX, toNat_ofNat_lastWhere _ _ hside]
    exact State.isLast_lastPixelX htc tr
  · rw [tile1bitBody_mapy hk, State.lastPixelY, toNat_ofNat_lastWhere _ _ hside]
    exact State.isLast_lastPixelY htc tr

end

/-! ## The records of the RLE codec

`45_rle_codec.md` R220, R222, R223 and R226 for every width: the run length, the turn of the encoder that emits a literal record,
and the decoder's reading of a header. -/

section

namespace Sys2Proof.Machine

open Sys2Proof Sys2Proof.Claims

variable {w : Nat}

/-! ### The encoder -/

/-- The model's count of leading equal symbols is R222's largest run: the symbol after a shorter count, if any, is another one. -/
theorem isRunLength_runLength (x : BitVec w) (xs : List (BitVec w)) : IsRunLength (x :: xs) (runLength (x :: xs)) := by
  obtain ⟨hequal, hnext⟩ := leadingEqual_spec x (Config.rleRepMax w) (x :: xs)
  obtain ⟨hcap, hlength⟩ := leadingEqual_le x (Config.rleRepMax w) (x :: xs)
  refine ⟨⟨runLength_pos x xs, hcap, hlength, hequal⟩, fun r _ hr hrl hrun => ?_⟩
  by_contra! hlt
  exact hnext (hlt.trans_le hr) (hlt.trans_le hrl) (hrun _ hlt)

/-- A turn at a run of 3 or more emits one repeat record of the whole run (EMIT_REPEAT_RUN). -/
theorem rleEncode_of_run (x : BitVec w) (xs : List (BitVec w)) (h : 3 ≤ runLength (x :: xs)) :
    rleEncode (x :: xs) =
      repeatHeader w (runLength (x :: xs)) :: x :: rleEncode ((x :: xs).drop (runLength (x :: xs))) := by
  rw [rleEncode_cons, if_pos h]

/-- A turn at a shorter run emits one literal record, as long as the literal loop runs (EMIT_LITERAL_RUN). -/
theorem rleEncode_of_no_run (x : BitVec w) (xs : List (BitVec w)) (h : runLength (x :: xs) < 3) :
    rleEncode (x :: xs) =
      literalHeader w (literalLength (Config.rleLitMax w) (x :: xs)) ::
        ((x :: xs).take (literalLength (Config.rleLitMax w) (x :: xs)) ++
          rleEncode ((x :: xs).drop (literalLength (Config.rleLitMax w) (x :: xs)))) := by
  rw [rleEncode_cons, if_neg h.not_ge]

/-! ### The decoder -/

theorem countField_of_literal {h : BitVec w} (hlit : h.toNat < 2 ^ (w - 1)) : countField h = h.toNat :=
  Nat.mod_eq_of_lt hlit

theorem countField_of_repeat (hw : 0 < w) {h : BitVec w} (hrep : 2 ^ (w - 1) ≤ h.toNat) :
    countField h = h.toNat - 2 ^ (w - 1) := by
  have hlt := h.isLt
  rw [two_pow_split hw] at hlt
  rw [countField, Nat.mod_eq_sub_mod hrep, Nat.mod_eq_of_lt (by omega)]

/-- A header with the top bit 0 is followed by its own count of symbols. -/
theorem rleDecode_literal (hw : 0 < w) (cap : Nat) {h : BitVec w} (rest : List (BitVec w)) (hlit : h.toNat < 2 ^ (w - 1)) :
    rleDecode cap (h :: rest) =
      if rest.length < h.toNat + 1 then .error .rleFormat
      else if cap < h.toNat + 1 then .error .capacity
      else (rleDecode (cap - (h.toNat + 1)) (rest.drop (h.toNat + 1))).map (rest.take (h.toNat + 1) ++ ·) := by
  rw [rleDecode_cons, if_neg (mt (isRepeatHeader_iff hw h).mp hlit.not_ge), countField_of_literal hlit]

/-- A header with the top bit 1 at the end of the stream is a record cut short. -/
theorem rleDecode_repeat_cut (hw : 0 < w) (cap : Nat) {h : BitVec w} (hrep : 2 ^ (w - 1) ≤ h.toNat) :
    rleDecode cap [h] = .error .rleFormat := by
  rw [rleDecode_cons, if_pos ((isRepeatHeader_iff hw h).mpr hrep)]

/-- A header with the top bit 1 is followed by the one symbol that it repeats. -/
theorem rleDecode_repeat (hw : 0 < w) (cap : Nat) {h : BitVec w} (v : BitVec w) (more : List (BitVec w))
    (hrep : 2 ^ (w - 1) ≤ h.toNat) :
    rleDecode cap (h :: v :: more) =
      if cap < h.toNat - 2 ^ (w - 1) + 3 then .error .capacity
      else (rleDecode (cap - (h.toNat - 2 ^ (w - 1) + 3)) more).map
        (List.replicate (h.toNat - 2 ^ (w - 1) + 3) v ++ ·) := by
  rw [rleDecode_cons, if_pos ((isRepeatHeader_iff hw h).mpr hrep), countField_of_repeat hw hrep]

end Sys2Proof.Machine

open Sys2Proof Sys2Proof.Machine Sys2Proof.Claims

/-- Settles O38: the two turns of the encoder, where the literal record's length is the count of the literal loop. -/
theorem encoderIsGreedy : Obligations.EncoderIsGreedy := by
  unfold Obligations.EncoderIsGreedy
  intro w l _
  cases l with
  | nil => simp
  | cons x xs =>
    refine ⟨fun _ => isRunLength_runLength x xs, nofun, fun v rest hl hrun => ?_, fun _ hshort => ?_⟩
    · cases hl
      exact rleEncode_of_run x xs hrun
    · obtain ⟨hmax, hlength⟩ := literalLength_le (Config.rleLitMax w) (x :: xs)
      obtain ⟨hinside, hend⟩ := literalLength_spec (Config.rleLitMax w) (x :: xs)
      exact ⟨_, literalLength_pos x xs hshort, hmax, hlength, hinside, hend, rleEncode_of_no_run x xs hshort⟩

/-- Settles O39: the three turns of the decoder, told apart by the header's top bit and by what follows it. -/
theorem decoderReadsOneRecordAtATime : Obligations.DecoderReadsOneRecordAtATime := by
  unfold Obligations.DecoderReadsOneRecordAtATime
  intro w cap hwidth
  have hw : 0 < w := by omega
  refine ⟨rleDecode_nil cap, fun h rest => ⟨rleDecode_literal hw cap rest, fun hrep hrest => ?_, fun hrep v more hrest => ?_⟩⟩
  · rw [hrest]
    exact rleDecode_repeat_cut hw cap hrep
  · rw [hrest]
    exact rleDecode_repeat hw cap v more hrep

end

/-! ## Decoding and encoding

`30_encoding.md` R92, R95: the opcode map read in both directions, and a command word as its opcode under a zero RSVD field. -/

section

namespace Sys2Proof.Machine

open Sys2Proof Sys2Proof.Claims

/-- The map R92 from opcode to operation undoes the map from operation to opcode. -/
theorem decodeOpcode_opcode (i : Instr) : decodeOpcode i.opcode = some i := by
  cases i <;> rfl

/-- No two opcodes give one operation. -/
theorem opcode_of_decodeOpcode {op : BitVec 8} {i : Instr} (h : decodeOpcode op = some i) : op = i.opcode := by
  unfold decodeOpcode at h
  split at h
  case h_19 => cases h
  all_goals cases h; exact BitVec.eq_of_toNat_eq ‹_›

theorem encode_rsvd (i : Instr) : (encode i).extractLsb' 8 24 = 0#24 := by
  cases i <;> rfl

theorem encode_opcode (i : Instr) : (encode i).extractLsb' 0 8 = i.opcode := by
  cases i <;> rfl

/-- A word with RSVD = 0 is the one word of its opcode. -/
theorem eq_zero_append_opcode {c : Word} (h : c.extractLsb' 8 24 = 0#24) : c = 0#24 ++ c.extractLsb' 0 8 := by
  apply BitVec.eq_of_toNat_eq
  have hlow : (0#24 ++ c.extractLsb' 0 8).toNat = c.toNat % 256 := by
    rw [BitVec.toNat_append, opcode_toNat]
    simp
  rw [hlow]
  have := (rsvd_eq_zero_iff c).mp h
  omega

theorem decode_encode (i : Instr) : decode (encode i) = .ok i := by
  rw [decode, encode_rsvd, encode_opcode, decodeOpcode_opcode, if_neg (not_not.mpr rfl)]

theorem eq_encode_of_decode {c : Word} {i : Instr} (h : decode c = .ok i) : c = encode i := by
  unfold decode at h
  split at h
  · cases h
  · next hrsvd =>
    split at h
    · next hop =>
      cases h
      rw [encode, ← opcode_of_decodeOpcode hop]
      exact eq_zero_append_opcode (not_not.mp hrsvd)
    · cases h

/-- An operation has exactly one command word. -/
theorem decode_eq_ok_iff (c : Word) (i : Instr) : decode c = .ok i ↔ c = encode i :=
  ⟨eq_encode_of_decode, fun h => h ▸ decode_encode i⟩

end Sys2Proof.Machine

open Sys2Proof Sys2Proof.Machine Sys2Proof.Claims

/-- Settles O2: the two directions of the opcode map, under a RSVD field that both hold at 0. -/
theorem decodingMatchesTheWholeWord : Obligations.DecodingMatchesTheWholeWord := by
  unfold Obligations.DecodingMatchesTheWholeWord
  exact ⟨decode_encode, fun _ _ => eq_encode_of_decode⟩

/-- Settles O1: eight of the words are encodings; 0x107 has a reserved bit set. -/
theorem commandWordsDecodeAsTabulated : Obligations.CommandWordsDecodeAsTabulated := by
  unfold Obligations.CommandWordsDecodeAsTabulated
  exact ⟨decode_encode .nop, decode_encode .cvtRgb555, decode_encode .palStore, decode_encode .rasterEncode,
    decode_encode .tile1bit, decode_encode .rle16Dec, by decide, by decide, by decide⟩

end

/-! ## The frame of the operations

`40_command_control.md` R116-R122, `10_state.md` R36, R39: what an operation leaves alone, whatever its end: the registers, the
bytes outside its destination regions, the bound colours; and that it reads no flag. -/

section

namespace Sys2Proof.Machine

open Sys2Proof Sys2Proof.Claims

/-- The operations whose body can end in an error. -/
abbrev IsRle (i : Instr) : Prop := i = .rle8Enc ∨ i = .rle16Enc ∨ i = .rle8Dec ∨ i = .rle16Dec

/-! ### Registers -/

/-- From `s` to `t`, RESULT and CMD_OVR are kept, and so is OUT_LEN unless the operation is done. -/
structure KeepsRegisters (s t : State) : Prop where
  result : t.result = s.result
  cmdOvr : t.status.cmdOvr = s.status.cmdOvr
  outLen : t.status.done = false → t.outLen = s.outLen

theorem rleBody_keepsRegisters {i : Instr} (hi : IsRle i) (s : State) : KeepsRegisters s (bodyOf i s) := by
  rcases rleBody_cases hi s with ⟨e, h⟩ | ⟨out, -, h⟩ | ⟨out, -, h⟩ <;> rw [h]
  · exact ⟨rfl, rfl, fun _ => rfl⟩
  · exact ⟨rfl, rfl, nofun⟩
  · exact ⟨rfl, rfl, nofun⟩

theorem bodyOf_cmdOvr (i : Instr) (s : State) : (bodyOf i s).status.cmdOvr = s.status.cmdOvr := by
  cases i
  case rle8Enc | rle16Enc | rle8Dec | rle16Dec => exact (rleBody_keepsRegisters (by decide) s).cmdOvr
  all_goals rfl

/-- RESULT belongs to the single-pixel operations and PAL_ASSIGN (`10_state.md` R32). -/
theorem bodyOf_result {i : Instr}
    (hi : i ∉ [Instr.cvtRgb555, .cvtRgb565, .cvtBgr565, .cvtRgb444, .cvt1bit, .cvtIdx8, .palAssign]) (s : State) :
    (bodyOf i s).result = s.result := by
  cases i
  case rle8Enc | rle16Enc | rle8Dec | rle16Dec => exact (rleBody_keepsRegisters (by decide) s).result
  case nop | palReset | palStore | rasterEncode | tile8 | tile16 | tile1bit => rfl
  all_goals simp at hi

/-- OUT_LEN is written only where DONE is (`10_state.md` R33). -/
theorem bodyOf_outLen_of_not_done {i : Instr} {s : State} (h : (bodyOf i s).status.done = false) :
    (bodyOf i s).outLen = s.outLen := by
  cases i
  case rle8Enc | rle16Enc | rle8Dec | rle16Dec => exact (rleBody_keepsRegisters (by decide) s).outLen h
  all_goals exact nomatch h

/-- OUT_LEN is no register of an operation on one pixel, one colour or none. -/
theorem bodyOf_outLen_of_no_elements {i : Instr}
    (hi : i ∈ [Instr.nop, .cvtRgb555, .cvtRgb565, .cvtBgr565, .cvtRgb444, .cvt1bit, .cvtIdx8, .palReset, .palAssign])
    (s : State) : (bodyOf i s).outLen = s.outLen := by
  simp only [List.mem_cons, List.not_mem_nil, or_false] at hi
  rcases hi with rfl | rfl | rfl | rfl | rfl | rfl | rfl | rfl | rfl <;> rfl

/-! ### BMEM -/

/-- BMEM `m'` is BMEM `m` after writes that each start at the base of a region of `rs` and stay in it. -/
inductive WrittenIn (rs : List Region) (m : Memory) : Memory → Prop
  | refl : WrittenIn rs m m
  | store {m' : Memory} {r : Region} {bs : List Byte} (h : WrittenIn rs m m') (hr : r ∈ rs) (hlen : bs.length ≤ r.len) :
    WrittenIn rs m (m'.store r.base bs)

theorem WrittenIn.storePlane {rs : List Region} {m m' : Memory} (h : WrittenIn rs m m') {en : Bool} {base : Word} {len : Nat}
    {bs : List Byte} (hr : en = true → ⟨base.toNat, len⟩ ∈ rs) (hlen : bs.length ≤ len) :
    WrittenIn rs m (m'.storePlane en base bs) := by
  cases en with
  | false => exact h
  | true => exact h.store (hr rfl) hlen

theorem WrittenIn.wf {rs : List Region} {m m' : Memory} (h : WrittenIn rs m m') (hm : m.wf = true) : m'.wf = true := by
  induction h with
  | refl => exact hm
  | store _ _ _ ih => exact Memory.wf_store _ _ _ ih

theorem WrittenIn.inside {rs : List Region} {m m' : Memory} {bound : Nat} (h : WrittenIn rs m m')
    (hrs : ∀ r ∈ rs, r.len = 0 ∨ r.base + r.len ≤ bound) (hm : ∀ c ∈ m, c.1 < bound) : ∀ c ∈ m', c.1 < bound := by
  induction h with
  | refl => exact hm
  | store _ hr hlen ih =>
    refine Memory.store_inside _ _ _ _ ih ?_
    rcases hrs _ hr with h0 | hle
    · exact .inl (List.eq_nil_of_length_eq_zero (by omega))
    · exact .inr (by omega)

theorem WrittenIn.read?_out {rs : List Region} {m m' : Memory} {a : Nat} (h : WrittenIn rs m m')
    (ha : ∀ r ∈ rs, Outside r a) : m'.read? a = m.read? a := by
  induction h with
  | refl => rfl
  | store _ hr hlen ih =>
    have hout := ha _ hr
    rw [Memory.read?_store, if_neg (by simp only [Outside] at hout; omega), ih]

theorem WrittenIn.unchangedOutside {rs : List Region} {s t : State} (h : WrittenIn rs s.mem t.mem) :
    UnchangedOutside rs s t := fun a ha => by rw [State.byteAt, State.byteAt, h.read?_out ha]

theorem writtenIn_rleBody {i : Instr} (hi : IsRle i) (s : State) :
    WrittenIn [⟨s.dst, s.cap⟩] s.mem (bodyOf i s).mem := by
  have store {bs : List Byte} (hbs : bs.length ≤ s.cap) : WrittenIn [⟨s.dst, s.cap⟩] s.mem (s.mem.store s.dst bs) :=
    WrittenIn.refl.store (r := ⟨s.dst, s.cap⟩) List.mem_cons_self hbs
  rcases rleBody_cases hi s with ⟨e, h⟩ | ⟨out, hout, h⟩ | ⟨out, hout, h⟩ <;> rw [h]
  · exact store (by simp)
  · exact store hout
  · exact store (by rwa [halfBytes_length])

theorem writtenIn_rasterEncodeBody (s : State) :
    WrittenIn (destRegions .rasterEncode s) s.mem (rasterEncodeBody s).mem := by
  have hc16 : (match ColorFormat.ofBits s.cfg.encCfg.fmt16 with
      | some fmt => c16Plane s.n s.scanPixel s.pt s.cfg.encCfg.bswap16 fmt
      | none => []).length ≤ 2 * s.n := by
    split
    · rw [c16Plane_length]
    · exact Nat.zero_le _
  exact ((((WrittenIn.refl.storePlane (fun h => by simp [destRegions, regionIf, h]) s.scan_length.le).storePlane
    (fun h => by simp [destRegions, regionIf, h]) (bit1Plane_length _ _ _ _).le).storePlane
    (fun h => by simp [destRegions, regionIf, h]) hc16).storePlane
    (fun h => by simp [destRegions, regionIf, h]) (alphaPlane_length _ _).le).storePlane
    (fun h => by simp [destRegions, regionIf, h]) (pk444Plane_length _ _).le

/-- Every write of an operation's body lies in one of its destination regions. -/
theorem writtenIn_bodyOf (i : Instr) (s : State) : WrittenIn (destRegions i s) s.mem (bodyOf i s).mem := by
  cases i
  case rle8Enc | rle16Enc | rle8Dec | rle16Dec => exact writtenIn_rleBody (by decide) s
  case palStore => exact WrittenIn.refl.store (r := ⟨_, _⟩) List.mem_cons_self (Palette.file_length _).le
  case rasterEncode => exact writtenIn_rasterEncodeBody s
  case tile8 => exact WrittenIn.refl.store (r := ⟨_, _⟩) List.mem_cons_self s.tiledBytes_length.le
  case tile16 =>
    exact WrittenIn.refl.store (r := ⟨_, _⟩) List.mem_cons_self (by rw [halfBytes_length, State.tiledHalves_length])
  case tile1bit =>
    have hrows : s.tiled1bit.length ≤ s.h * s.w / 8 := s.tiled1bit_length ▸ Nat.mul_div_le_mul_div_assoc _ _ _
    exact ((WrittenIn.refl.store (r := ⟨_, _⟩) (by simp [destRegions]) hrows).store (r := ⟨_, s.nt⟩) (by simp [destRegions])
      (s.trimMap_length _).le).store (r := ⟨_, s.nt⟩) (by simp [destRegions]) (s.trimMap_length _).le
  all_goals exact WrittenIn.refl

theorem exec_writtenIn {i : Instr} {s t : State} (h : exec i s = .next t) : WrittenIn (destRegions i s) s.mem t.mem := by
  rcases exec_cases h with ⟨e, -, rfl⟩ | ⟨-, rfl⟩
  · exact WrittenIn.refl
  · exact writtenIn_bodyOf i s

/-! ### The flags -/

/-- Two ends of an operation alike but for the sticky flags, and for ERR and ERRCODE where they are not written. -/
abbrev SameEnd (v w : Status) : Prop :=
  v.busy = w.busy ∧ v.done = w.done ∧ (w.done = false → v.err = w.err ∧ v.errCode = w.errCode)

/-- An RLE body ends in the same way whatever STATUS holds. -/
theorem rleBody_cases_any_status {i : Instr} (hi : IsRle i) (s : State) :
    (∃ e, ∀ u, bodyOf i { s with status := u } = State.rleFail e { s with status := u }) ∨
      (∃ out, ∀ u, bodyOf i { s with status := u } = State.rleFinish8 out { s with status := u }) ∨
      ∃ out, ∀ u, bodyOf i { s with status := u } = State.rleFinish16 out { s with status := u } := by
  rcases hi with rfl | rfl | rfl | rfl
  · by_cases h : s.cap < (rleEncode s.rleSource8).length
    · exact .inl ⟨.capacity, fun _ => if_pos h⟩
    · exact .inr (.inl ⟨rleEncode s.rleSource8, fun _ => if_neg h⟩)
  · by_cases h : s.cap < 2 * (rleEncode s.rleSource16).length
    · exact .inl ⟨.capacity, fun _ => if_pos h⟩
    · exact .inr (.inr ⟨rleEncode s.rleSource16, fun _ => if_neg h⟩)
  · have hbody (u : Status) : bodyOf .rle8Dec { s with status := u } = match rleDecode s.cap s.rleSource8 with
        | .ok out => State.rleFinish8 out { s with status := u }
        | .error e => State.rleFail e { s with status := u } := rfl
    simp only [hbody]
    cases rleDecode s.cap s.rleSource8 with
    | ok out => exact .inr (.inl ⟨out, fun _ => rfl⟩)
    | error e => exact .inl ⟨e, fun _ => rfl⟩
  · have hbody (u : Status) : bodyOf .rle16Dec { s with status := u } = match rleDecode (s.cap / 2) s.rleSource16 with
        | .ok out => State.rleFinish16 out { s with status := u }
        | .error e => State.rleFail e { s with status := u } := rfl
    simp only [hbody]
    cases rleDecode (s.cap / 2) s.rleSource16 with
    | ok out => exact .inr (.inr ⟨out, fun _ => rfl⟩)
    | error e => exact .inl ⟨e, fun _ => rfl⟩

theorem rleBody_any_status {i : Instr} (hi : IsRle i) (s : State) (u : Status) :
    ∃ v, bodyOf i { s with status := u } = { bodyOf i s with status := v } ∧ SameEnd v (bodyOf i s).status := by
  rcases rleBody_cases_any_status hi s with ⟨e, h⟩ | ⟨out, h⟩ | ⟨out, h⟩ <;> rw [h u, h s.status]
  · exact ⟨_, rfl, rfl, rfl, fun _ => ⟨rfl, rfl⟩⟩
  · exact ⟨_, rfl, rfl, rfl, nofun⟩
  · exact ⟨_, rfl, rfl, rfl, nofun⟩

theorem bodyOf_any_status (i : Instr) (s : State) (u : Status) :
    ∃ v, bodyOf i { s with status := u } = { bodyOf i s with status := v } ∧ SameEnd v (bodyOf i s).status := by
  cases i
  case rle8Enc | rle16Enc | rle8Dec | rle16Dec => exact rleBody_any_status (by decide) s u
  all_goals exact ⟨_, rfl, rfl, rfl, nofun⟩

/-! ### The palette -/

theorem Pixel.idx8_keeps (x : Pixel) (pt : Bool) (p : Palette) :
    p.next.toNat ≤ (x.idx8 pt p).palette.next.toNat ∧
      ∀ k, k < p.next.toNat → (x.idx8 pt p).palette.get k = p.get k := by
  unfold Pixel.idx8
  split
  · exact ⟨le_refl _, fun _ _ => rfl⟩
  · exact p.assign_keeps _

/-- Only a pal_reset unbinds an index (`10_state.md` R36). -/
theorem bodyOf_keeps_bound {i : Instr} (hreset : i ≠ .palReset) (hraster : i ≠ .rasterEncode) (s : State) :
    s.palette.next.toNat ≤ (bodyOf i s).palette.next.toNat ∧
      ∀ k, k < s.palette.next.toNat → (bodyOf i s).palette.get k = s.palette.get k := by
  by_cases hidx : i = .cvtIdx8
  · subst hidx; exact Pixel.idx8_keeps _ _ _
  · by_cases hassign : i = .palAssign
    · subst hassign; exact Palette.assign_keeps _ _
    · rw [bodyOf_palette i s (by simp [*])]
      exact ⟨le_refl _, fun _ _ => rfl⟩

end Sys2Proof.Machine

open Sys2Proof Sys2Proof.Machine Sys2Proof.Claims

/-- Settles O9: an error writes STATUS alone, and no body writes more than its own registers. -/
theorem operationsWriteOnlyTheirRegisters : Obligations.OperationsWriteOnlyTheirRegisters := by
  unfold Obligations.OperationsWriteOnlyTheirRegisters
  intro i s t h
  rcases exec_cases h with ⟨e, -, rfl⟩ | ⟨-, rfl⟩
  · simp
  · obtain ⟨hcmd, hcfg, hsize, hmark, hbus, hprog, hsched⟩ := bodyOf_frame i s
    refine ⟨⟨hcmd, hcfg, hsize, hmark, bodyOf_cmdOvr i s, hbus, hprog, hsched⟩, fun hi => bodyOf_result hi s, ?_⟩
    rintro (hi | hdone)
    · exact bodyOf_outLen_of_no_elements hi s
    · exact bodyOf_outLen_of_not_done hdone

/-- Settles O10: the statement's regions are `destRegions`, and every write lies in one of them. -/
theorem operationsWriteOnlyTheirDestinations : Obligations.OperationsWriteOnlyTheirDestinations := by
  unfold Obligations.OperationsWriteOnlyTheirDestinations
  intro i s t h
  have hframe := (exec_writtenIn h).unchangedOutside
  cases i <;> exact hframe

/-- Settles O11: neither the checks nor the bodies read STATUS, but for keeping what they do not write. -/
theorem noOperationReadsAFlag : Obligations.NoOperationReadsAFlag := by
  unfold Obligations.NoOperationReadsAFlag
  intro i s t u h
  rcases exec_cases h with ⟨e, he, rfl⟩ | ⟨hnone, rfl⟩
  · rw [← checksOf_status i s u] at he
    exact ⟨_, exec_eq_raise he, rfl, rfl, fun _ => ⟨rfl, rfl⟩⟩
  · rw [← checksOf_status i s u] at hnone
    obtain ⟨v, hv, hend⟩ := bodyOf_any_status i s u
    exact ⟨v, hv ▸ exec_eq_body hnone, hend⟩

/-- Settles O20: only an assignment, which binds PAL_NEXT or nothing, and a pal_reset change the palette. -/
theorem boundColoursKeepTheirIndex : Obligations.BoundColoursKeepTheirIndex := by
  unfold Obligations.BoundColoursKeepTheirIndex
  intro i s t h
  rcases exec_cases h with ⟨e, -, rfl⟩ | ⟨-, rfl⟩
  · exact ⟨fun _ _ _ => ⟨le_refl _, fun _ _ => rfl⟩, fun _ => rfl⟩
  · exact ⟨fun hreset hraster _ => bodyOf_keeps_bound hreset hraster s, bodyOf_palette i s⟩

end

/-! ## The invariant

`10_state.md` R34-R36, R41, `20_memory.md` R60, `70_reset_and_hazards.md` R340: everything an action from outside can do, said
once; each part of the invariant under an operation and under an action; and what no step changes. -/

section

namespace Sys2Proof.Machine

open Sys2Proof Sys2Proof.Claims

/-! ### What an action from outside can do -/

theorem hostWriteReg_cases (off : Fin Config.windowBytes) (width : AccessWidth) (v : Word) (s : State) :
    hostWriteReg off width v s = s ∨ hostWriteReg off width v s = s.refuse ∨
      (∃ r : RegName, s.status.busy = false ∧ hostWriteReg off width v s = r.write v s) ∨
      hostWriteReg off width v s = s.dropCommand := by
  unfold hostWriteReg
  split
  · exact .inr (.inl rfl)
  · split
    · exact .inl rfl
    · next r _ =>
      cases hb : s.status.busy with
      | false => exact .inr (.inr (.inl ⟨r, rfl, rfl⟩))
      | true =>
        by_cases hr : r = .cmd
        · exact .inr (.inr (.inr (if_pos hr)))
        · exact .inr (.inl (if_neg hr))

theorem hostReadReg_cases (off : Fin Config.windowBytes) (width : AccessWidth) (s : State) :
    hostReadReg off width s = s.refuse ∨
      hostReadReg off width s =
        { s with busRead := (hostReadReg off width s).busRead, draws := (hostReadReg off width s).draws } := by
  unfold hostReadReg
  split
  · exact .inl rfl
  · split
    · exact .inr rfl
    · split <;> exact .inr rfl

/-- Everything an action from outside the block can do. -/
theorem hostAct_cases {act : HostAction} {s t : State} (h : hostAct act s = .next t) :
    t = { s with busRead := t.busRead, draws := t.draws, program := t.program } ∨ t = s.refuse ∨
      (∃ (r : RegName) (v : Word), s.status.busy = false ∧ t = r.write v s) ∨ t = s.dropCommand ∨
      (∃ (a : Nat) (b : Byte), a < s.memSize ∧ t = s.storeBytes a [b]) ∨ t = hostReset s := by
  cases act with
  | writeReg off width v =>
    cases h
    rcases hostWriteReg_cases off width v s with h | h | ⟨r, hb, h⟩ | h <;> rw [h]
    · exact .inl rfl
    · exact .inr (.inl rfl)
    · exact .inr (.inr (.inl ⟨r, v, hb, rfl⟩))
    · exact .inr (.inr (.inr (.inl rfl)))
  | readReg off width =>
    cases h
    rcases hostReadReg_cases off width s with h | h <;> rw [h]
    · exact .inr (.inl rfl)
    · exact .inl rfl
  | writeMem a b =>
    simp only [hostAct, hostWriteMem] at h
    split at h
    · cases h
    · split at h <;> cases h
      · exact .inr (.inl rfl)
      · exact .inr (.inr (.inr (.inr (.inl ⟨a, b, by omega, rfl⟩))))
  | readMem a =>
    simp only [hostAct, hostReadMem] at h
    split at h
    · cases h
    · split at h <;> cases h
      · exact .inr (.inl rfl)
      · exact .inl rfl
  | wait =>
    cases h
    refine .inl ?_
    unfold hostWait
    split <;> rfl
  | reset =>
    cases h
    exact .inr (.inr (.inr (.inr (.inr rfl))))

/-! ### MEM_SIZE and the refusal mark -/

theorem hostReset_frame (s : State) :
    (hostReset s).memSize = s.memSize ∧ (hostReset s).refusalMark = s.refusalMark ∧
      (hostReset s).program = s.program ∧ (hostReset s).schedule = s.schedule := by
  obtain ⟨hframe, -⟩ := foldl_havoc (runningDestRegions s) s
  unfold hostReset
  rw [hframe]
  exact ⟨rfl, rfl, rfl, rfl⟩

theorem hostAct_size_and_mark {act : HostAction} {s t : State} (h : hostAct act s = .next t) :
    t.memSize = s.memSize ∧ (s.refusalMark = true → t.refusalMark = true) := by
  rcases hostAct_cases h with h | rfl | ⟨r, v, -, rfl⟩ | rfl | ⟨a, b, -, rfl⟩ | rfl
  · rw [h]; exact ⟨rfl, id⟩
  · exact ⟨rfl, fun _ => rfl⟩
  · rw [RegName.write_frame]; exact ⟨rfl, id⟩
  · exact ⟨rfl, id⟩
  · exact ⟨rfl, id⟩
  · obtain ⟨hsize, hmark, -, -⟩ := hostReset_frame s
    exact ⟨hsize, hmark.trans⟩

/-- What an operation leaves alone whatever its end. -/
theorem exec_frame {i : Instr} {s t : State} (h : exec i s = .next t) :
    t.cmd = s.cmd ∧ t.cfg = s.cfg ∧ t.memSize = s.memSize ∧ t.refusalMark = s.refusalMark ∧ t.busRead = s.busRead ∧
      t.program = s.program ∧ t.schedule = s.schedule := by
  rcases exec_cases h with ⟨e, -, rfl⟩ | ⟨-, rfl⟩
  · exact ⟨rfl, rfl, rfl, rfl, rfl, rfl, rfl⟩
  · exact bodyOf_frame i s

theorem step_size_and_mark {s t : State} (h : step s = .next t) :
    t.memSize = s.memSize ∧ (s.refusalMark = true → t.refusalMark = true) := by
  rcases step_cases h with ⟨-, h⟩ | ⟨-, h⟩
  · rcases blockStep_cases h with ⟨-, rfl⟩ | ⟨-, i, -, h⟩ | ⟨-, -, rfl⟩
    · exact ⟨rfl, id⟩
    · obtain ⟨-, -, hsize, hmark, -⟩ := exec_frame h
      exact ⟨hsize, hmark.trans⟩
    · exact ⟨rfl, id⟩
  · rcases hostStep_cases h with ⟨-, rfl⟩ | ⟨act, rest, -, h⟩
    · exact ⟨rfl, id⟩
    · have hact := hostAct_size_and_mark h
      exact hact

/-! ### STATUS -/

theorem ErrorCode.code_range (e : ErrorCode) : 1 ≤ e.code.toNat ∧ e.code.toNat ≤ 8 := by
  cases e <;> decide

theorem Status.failed_inv (t : Status) (e : ErrorCode) : (t.failed e).Inv where
  busyClear := nofun
  notBoth := by simp
  noCode := nofun
  someCode _ := e.code_range

theorem Status.accepted_inv (t : Status) : t.accepted.Inv where
  busyClear _ := ⟨rfl, rfl⟩
  notBoth := by simp
  noCode _ := rfl
  someCode := nofun

/-- The end of a running operation: ERR is clear while BUSY = 1, so it stays clear beside DONE. -/
theorem Status.inv_of_completed {t u : Status} (h : t.Inv) (hb : t.busy = true) (hbusy : u.busy = false)
    (herr : u.err = t.err) (hcode : u.errCode = t.errCode) : u.Inv := by
  have hclear : u.err = false := herr.trans (h.busyClear hb).2
  refine ⟨fun hu => ?_, by simp [hclear], fun hu => hcode.trans (h.noCode (herr ▸ hu)), fun hu => ?_⟩
  · rw [hbusy] at hu; cases hu
  · rw [hclear] at hu; cases hu

theorem Status.writeOneToClear_inv {t : Status} (h : t.Inv) (v : Word) : (t.writeOneToClear v).Inv := by
  have hnot := h.notBoth
  refine ⟨fun hb => ?_, ?_, fun he => ?_, fun he => ?_⟩
  · obtain ⟨hd, he⟩ := h.busyClear hb
    simp [hd, he]
  · simp only [Status.writeOneToClear_done, Status.writeOneToClear_err, Bool.and_eq_true]
    exact fun ⟨⟨hd, _⟩, he, _⟩ => hnot ⟨hd, he⟩
  · cases h2 : v.getLsbD 2 with
    | true => simp only [Status.writeOneToClear_errCode, h2, if_true]
    | false =>
      simp only [Status.writeOneToClear_err, h2, Bool.not_false, Bool.and_true] at he
      simpa only [Status.writeOneToClear_errCode, h2, Bool.false_eq_true, if_false] using h.noCode he
  · simp only [Status.writeOneToClear_err, Bool.and_eq_true, Bool.not_eq_true'] at he
    obtain ⟨herr, h2⟩ := he
    simpa only [Status.writeOneToClear_errCode, h2, Bool.false_eq_true, if_false] using h.someCode herr

theorem Status.noteDropped_inv {t : Status} (h : t.Inv) : t.noteDropped.Inv :=
  ⟨h.busyClear, h.notBoth, h.noCode, h.someCode⟩

theorem rleBody_status_cases {i : Instr} (hi : IsRle i) (s : State) :
    (bodyOf i s).status = s.status.completed ∨ ∃ e, (bodyOf i s).status = s.status.failed e := by
  rcases rleBody_cases hi s with ⟨e, h⟩ | ⟨out, -, h⟩ | ⟨out, -, h⟩ <;> rw [h]
  · exact .inr ⟨e, rfl⟩
  · exact .inl rfl
  · exact .inl rfl

/-- A body ends in DONE, with ERR and ERRCODE as they were, or in an error. -/
theorem bodyOf_status_cases (i : Instr) (s : State) :
    ((bodyOf i s).status.busy = false ∧ (bodyOf i s).status.err = s.status.err ∧
        (bodyOf i s).status.errCode = s.status.errCode) ∨
      ∃ e, (bodyOf i s).status = s.status.failed e := by
  cases i
  case rle8Enc | rle16Enc | rle8Dec | rle16Dec =>
    exact (rleBody_status_cases (by decide) s).imp_left fun h => by rw [h]; exact ⟨rfl, rfl, rfl⟩
  all_goals exact .inl ⟨rfl, rfl, rfl⟩

theorem bodyOf_status_inv {s : State} (h : s.status.Inv) (hb : s.status.busy = true) (i : Instr) :
    (bodyOf i s).status.Inv := by
  rcases bodyOf_status_cases i s with ⟨hbusy, herr, hcode⟩ | ⟨e, he⟩
  · exact Status.inv_of_completed h hb hbusy herr hcode
  · rw [he]
    exact s.status.failed_inv e

/-- A register write leaves STATUS alone, accepts a command or clears what is written 1. -/
theorem RegName.write_status_inv (r : RegName) (v : Word) {s : State} (h : s.status.Inv) : (r.write v s).status.Inv := by
  cases r
  case cmd => exact s.status.accepted_inv
  case status => exact Status.writeOneToClear_inv h v
  all_goals exact h

/-! ### The palette -/

theorem bodyOf_palette_inv {s : State} (h : s.palette.Inv) (i : Instr) : (bodyOf i s).palette.Inv := by
  cases i
  case cvtIdx8 => exact Pixel.idx8_inv _ _ _ h
  case palAssign => exact Palette.assign_inv _ _ h
  case palReset => exact Palette.reset_inv
  case rasterEncode => exact idx8Scan_inv _ _ _ Palette.reset_inv
  all_goals rwa [bodyOf_palette _ s (by simp)]

/-! ### The whole invariant -/

/-- With its checks passed, an operation's destination regions lie in BMEM (`20_memory.md` R68). -/
theorem destRegions_admitted {i : Instr} {s : State} (h : firstFailing (checksOf i s) = none) :
    ∀ r ∈ destRegions i s, r.len = 0 ∨ r.base + r.len ≤ s.memSize := by
  by_cases hi : i ∈ [Instr.nop, .cvtRgb555, .cvtRgb565, .cvtBgr565, .cvtRgb444, .cvt1bit, .cvtIdx8, .palReset, .palAssign]
  · simp only [List.mem_cons, List.not_mem_nil, or_false] at hi
    rcases hi with rfl | rfl | rfl | rfl | rfl | rfl | rfl | rfl | rfl <;> exact nofun
  · exact fun r hr => regions_admitted h hi r (List.mem_append_right _ hr)

/-- The invariant speaks of BMEM, MEM_SIZE, the palette and STATUS alone. -/
theorem Inv.congr {s t : State} (h : Inv s) (hmem : t.mem = s.mem) (hsize : t.memSize = s.memSize)
    (hpal : t.palette = s.palette) (hstatus : t.status.Inv) : Inv t where
  memWf := hmem ▸ h.memWf
  memInside := hmem ▸ hsize ▸ h.memInside
  sizeLow := hsize ▸ h.sizeLow
  sizeHigh := hsize ▸ h.sizeHigh
  palette := hpal ▸ h.palette
  status := hstatus

theorem exec_inv {i : Instr} {s t : State} (h : exec i s = .next t) (hs : Inv s) (hb : s.status.busy = true) : Inv t := by
  rcases exec_cases h with ⟨e, -, rfl⟩ | ⟨hnone, rfl⟩
  · exact hs.congr rfl rfl rfl (s.status.failed_inv e)
  · obtain ⟨-, -, hsize, -⟩ := bodyOf_frame i s
    have hwritten := writtenIn_bodyOf i s
    exact
      { memWf := hwritten.wf hs.memWf
        memInside := hsize ▸ hwritten.inside (destRegions_admitted hnone) hs.memInside
        sizeLow := hsize ▸ hs.sizeLow
        sizeHigh := hsize ▸ hs.sizeHigh
        palette := bodyOf_palette_inv hs.palette i
        status := bodyOf_status_inv hs.status hb i }

theorem blockStep_inv {s t : State} (h : blockStep s = .next t) (hs : Inv s) : Inv t := by
  rcases blockStep_cases h with ⟨-, rfl⟩ | ⟨hb, i, -, h⟩ | ⟨-, -, rfl⟩
  · exact hs
  · exact exec_inv h hs hb
  · exact hs.congr rfl rfl rfl (s.status.failed_inv _)

/-- Bytes stored inside BMEM. -/
theorem State.storeBytes_inv {s : State} (hs : Inv s) {base : Nat} {bs : List Byte}
    (h : bs = [] ∨ base + bs.length ≤ s.memSize) : Inv (s.storeBytes base bs) where
  memWf := Memory.wf_store _ _ _ hs.memWf
  memInside := Memory.store_inside _ _ _ _ hs.memInside h
  sizeLow := hs.sizeLow
  sizeHigh := hs.sizeHigh
  palette := hs.palette
  status := hs.status

/-- A region drawn free takes values only where BMEM has bytes (log 13). -/
theorem State.havoc_inv {s : State} (hs : Inv s) (r : Region) : Inv (s.havoc r) := by
  have hstored := State.storeBytes_inv hs (base := r.base)
    (bs := (List.range (min r.len (s.memSize - r.base))).map fun i => Config.freeByte (s.draws + i)) (by
      rw [← List.length_eq_zero_iff, List.length_map, List.length_range]
      omega)
  exact hstored.congr rfl rfl rfl hs.status

theorem foldl_havoc_inv {s : State} (hs : Inv s) (l : List Region) : Inv (l.foldl (fun u r => u.havoc r) s) := by
  induction l generalizing s with
  | nil => exact hs
  | cons r l ih => exact ih (State.havoc_inv hs r)

theorem hostReset_inv {s : State} (hs : Inv s) : Inv (hostReset s) := by
  have hdrawn := foldl_havoc_inv hs (runningDestRegions s)
  exact
    { memWf := hdrawn.memWf, memInside := hdrawn.memInside, sizeLow := hdrawn.sizeLow, sizeHigh := hdrawn.sizeHigh
      palette := Palette.reset_inv, status := Status.reset_inv }

theorem hostAct_inv {act : HostAction} {s t : State} (h : hostAct act s = .next t) (hs : Inv s) : Inv t := by
  rcases hostAct_cases h with h | rfl | ⟨r, v, -, rfl⟩ | rfl | ⟨a, b, ha, rfl⟩ | rfl
  · rw [h]
    exact hs.congr rfl rfl rfl hs.status
  · exact hs.congr rfl rfl rfl hs.status
  · rw [RegName.write_frame]
    exact hs.congr rfl rfl rfl (r.write_status_inv v hs.status)
  · exact hs.congr rfl rfl rfl (Status.noteDropped_inv hs.status)
  · exact State.storeBytes_inv hs (.inr ha)
  · exact hostReset_inv hs

theorem hostStep_inv {s t : State} (h : hostStep s = .next t) (hs : Inv s) : Inv t := by
  rcases hostStep_cases h with ⟨-, rfl⟩ | ⟨act, rest, -, h⟩
  · exact hs
  · exact hostAct_inv h (hs.congr rfl rfl rfl hs.status)

/-! ### After reset -/

theorem State.resetOf_inv {n : Nat} (hlow : 1 ≤ n) (hhigh : n ≤ 2 ^ 32) : Inv (State.resetOf n) where
  memWf := rfl
  memInside := nofun
  sizeLow := hlow
  sizeHigh := hhigh
  palette := Palette.reset_inv
  status := Status.reset_inv

/-- The reset values of R340, in any state that has the reset registers. -/
theorem RegName.read_of_reset {s : State} (hcmd : s.cmd = 0#32) (hstatus : s.status = Status.reset)
    (hcfg : s.cfg = ConfigRegs.reset) (hresult : s.result = 0#32) (hlen : s.outLen = 0#32)
    (hpal : s.palette = Palette.reset) (r : RegName) : r.read s = if r = .palNext then 2#32 else 0#32 := by
  cases r
  case palEntry k => simp only [RegName.read, hpal, ← Palette.get_eq_entry, Palette.reset_get, reduceCtorEq, if_false]; rfl
  all_goals simp only [RegName.read, hcmd, hstatus, hcfg, hresult, hlen, hpal]; rfl

theorem RegName.read_resetOf (n : Nat) (r : RegName) :
    r.read (State.resetOf n) = if r = .palNext then 2#32 else 0#32 :=
  RegName.read_of_reset rfl rfl rfl rfl rfl rfl r

end Sys2Proof.Machine

open Sys2Proof Sys2Proof.Machine Sys2Proof.Claims

/-- Settles O59: an operation runs only while BUSY = 1, where ERR is clear, and writes inside its admitted regions; an action
from outside writes one byte of BMEM, or draws bytes that BMEM has. -/
theorem everyStepKeepsTheInvariant : Obligations.EveryStepKeepsTheInvariant := by
  unfold Obligations.EveryStepKeepsTheInvariant
  intro s t hs h
  have hon : Inv s.scheduleOn := hs.congr rfl rfl rfl hs.status
  rcases step_cases h with ⟨-, h⟩ | ⟨-, h⟩
  · exact blockStep_inv h hon
  · exact hostStep_inv h hon

/-- Settles O58: State.reset is the reset state of 0x10000 bytes. -/
theorem resetStateIsGood : Obligations.ResetStateIsGood := by
  unfold Obligations.ResetStateIsGood
  have hread (n : Nat) (r : RegName) (hr : r ≠ .palNext) : r.read (State.resetOf n) = 0#32 := by
    rw [RegName.read_resetOf, if_neg hr]
  exact ⟨fun n hlow hhigh => ⟨State.resetOf_inv hlow hhigh, rfl, hread n, rfl, rfl, rfl⟩,
    State.resetOf_inv (by decide) (by decide), hread _, rfl, rfl, rfl⟩

/-- Settles O60: MEM_SIZE is no target of any agent's step. -/
theorem noStepChangesMemSize : Obligations.NoStepChangesMemSize := by
  unfold Obligations.NoStepChangesMemSize
  exact fun _ _ h => (step_size_and_mark h).1

/-- Settles O55: the mark is only ever set. -/
theorem refusalMarkIsNeverCleared : Obligations.RefusalMarkIsNeverCleared := by
  unfold Obligations.RefusalMarkIsNeverCleared
  exact fun _ _ h => (step_size_and_mark h).2

end

/-! ## The life of a command

`40_command_control.md` R110-R113, R120, `70_reset_and_hazards.md` R342: the block's turn with a command and without one, and
the host's write of CMD, accepted while idle and dropped while busy. -/

section

namespace Sys2Proof.Machine

open Sys2Proof Sys2Proof.Claims

/-- A CMD write while BUSY = 1 is dropped, whatever its word (R112). -/
theorem hostWriteReg_cmd_busy {s : State} (hb : s.status.busy = true) (c : Word) :
    hostWriteReg 0x000 .bits32 c s = s.dropCommand := by
  have hok : accessOk 0x000 .bits32 = true := by decide
  have hcmd : RegName.atOffset 0x000 = some .cmd := by decide
  simp [hostWriteReg, hok, hcmd, hb]

theorem step_cmdWrite_busy {s : State} {c : Word} {rest : List HostAction}
    (h : HostDoes s (.writeReg 0x000 .bits32 c) rest) (hb : s.status.busy = true) :
    step s = .next (goneOn s rest).dropCommand := by
  obtain ⟨hm, hp⟩ := h
  rw [step_hostAct hm hp]
  exact congrArg Host.Outcome.next (hostWriteReg_cmd_busy (s := goneOn s rest) hb c)

/-- A host without an action left has no step (R342, log 2). -/
theorem step_host_finished {s : State} (hm : s.mover = .host) (hp : s.program = []) : step s = .next s.scheduleOn := by
  rw [step_of_host hm, hostStep]
  simp [hp]

/-- The very next step after a command word is placed executes it (log 3). -/
theorem step_withFetchWord (s : State) (i : Instr) :
    step (s.withFetchWord 32 (encode i).toNat) = exec i (s.accept (encode i)) := by
  have hword : BitVec.ofNat 32 ((encode i).toNat % 2 ^ 32) = encode i := by
    rw [Nat.mod_eq_of_lt (encode i).isLt, BitVec.ofNat_toNat, BitVec.setWidth_eq]
  have hcmd : decode (s.withFetchWord 32 (encode i).toNat).cmd = .ok i := (decode_eq_ok_iff _ _).mpr hword
  rw [step_block_decoded rfl rfl hcmd, State.withFetchWord, State.placeCommand, hword]
  rfl

end Sys2Proof.Machine

open Sys2Proof Sys2Proof.Machine Sys2Proof.Claims

/-- Settles O4: a busy block that moves executes what CMD decodes to, and a placed word decodes to its operation. -/
theorem stepExecutesTheDecodedCommand : Obligations.StepExecutesTheDecodedCommand := by
  unfold Obligations.StepExecutesTheDecodedCommand
  exact ⟨fun _ _ ⟨hmover, hbusy⟩ hd => step_block_decoded hmover hbusy hd, step_withFetchWord⟩

/-- Settles O5: `accept` while idle, `dropCommand` while busy. -/
theorem commandWritesAreAcceptedOrDropped : Obligations.CommandWritesAreAcceptedOrDropped := by
  unfold Obligations.CommandWritesAreAcceptedOrDropped
  exact fun _ _ _ h => ⟨step_cmdWrite_idle h, step_cmdWrite_busy h⟩

/-- Settles O7: neither agent has a step, whichever of them the schedule names. -/
theorem idleBlockNeverActs : Obligations.IdleBlockNeverActs := by
  unfold Obligations.IdleBlockNeverActs
  intro s hidle hturn
  cases hm : s.mover with
  | block => exact step_block_idle hm hidle
  | host => exact step_host_finished hm (hturn.resolve_left (by simp [hm]))

/-- Settles O8: the encoding of NOP is 0. -/
theorem nopOnlyCompletes : Obligations.NopOnlyCompletes := by
  unfold Obligations.NopOnlyCompletes
  exact ⟨fun c => decode_eq_ok_iff c .nop, fun _ => rfl, fun _ hb => hostWriteReg_cmd_busy hb _⟩

end

/-! ## The register window

`10_state.md` R22-R31, `70_reset_and_hazards.md` R343-R347: what an access at a register's offset, at an unmapped one and of a
forbidden kind does; what a write stores, and what it leaves alone. -/

section

namespace Sys2Proof.Machine

open Sys2Proof Sys2Proof.Claims

/-! ### The register map -/

theorem RegName.atOffset_offset (r : RegName) : RegName.atOffset r.offset = some r := by
  cases r
  case palEntry k => exact RegName.atOffset_palEntry k
  all_goals decide

/-! ### Accesses as steps of the machine -/

section

variable {s : State} {off : Fin Config.windowBytes} {width : AccessWidth} {v : Word} {rest : List HostAction}

theorem step_writeReg (h : HostDoes s (.writeReg off width v) rest) :
    step s = .next (hostWriteReg off width v (goneOn s rest)) :=
  step_hostAct h.1 h.2

theorem step_readReg (h : HostDoes s (.readReg off width) rest) :
    step s = .next (hostReadReg off width (goneOn s rest)) :=
  step_hostAct h.1 h.2

end

section

variable (s : State) (r : RegName) (v : Word) {off : Fin Config.windowBytes} {width : AccessWidth}

theorem hostWriteReg_offset :
    hostWriteReg r.offset .bits32 v s =
      if s.status.busy then (if r = .cmd then s.dropCommand else s.refuse) else r.write v s := by
  simp [hostWriteReg, accessOk_offset, RegName.atOffset_offset]

theorem hostReadReg_offset :
    hostReadReg r.offset .bits32 s =
      if s.status.busy && r.freeWhileBusy then s.returnsFree else s.returns (r.read s) := by
  simp [hostReadReg, accessOk_offset, RegName.atOffset_offset]

theorem hostWriteReg_gap (ha : off.val % 4 = 0) (hoff : 0x058 ≤ off.val ∧ off.val < 0x400) :
    hostWriteReg off .bits32 v s = s := by
  simp [hostWriteReg, accessOk, ha, RegName.atOffset_gap off hoff]

theorem hostReadReg_gap (ha : off.val % 4 = 0) (hoff : 0x058 ≤ off.val ∧ off.val < 0x400) :
    hostReadReg off .bits32 s = s.returns 0#32 := by
  simp [hostReadReg, accessOk, ha, RegName.atOffset_gap off hoff]

/-- Only aligned 32-bit accesses have a meaning (`10_state.md` R23). -/
theorem accessOk_eq_false (h : width ≠ .bits32 ∨ off.val % 4 ≠ 0) : accessOk off width = false := by
  rcases h with h | h <;> simp [accessOk, h]

theorem hostWriteReg_forbidden (h : width ≠ .bits32 ∨ off.val % 4 ≠ 0) : hostWriteReg off width v s = s.refuse := by
  simp [hostWriteReg, accessOk_eq_false h]

theorem hostReadReg_forbidden (h : width ≠ .bits32 ∨ off.val % 4 ≠ 0) : hostReadReg off width s = s.refuse := by
  simp [hostReadReg, accessOk_eq_false h]

end

/-! ### What a write stores -/

/-- A field of the low `n` bits of a register reads back under the mask of those bits. -/
theorem setWidth_extractLsb'_eq_and (v : Word) (n : Nat) (hn : n ≤ 32) :
    (v.extractLsb' 0 n).setWidth 32 = v &&& BitVec.ofNat 32 (2 ^ n - 1) := by
  apply BitVec.eq_of_toNat_eq
  have hpow : 2 ^ n ≤ 2 ^ 32 := Nat.pow_le_pow_right (by decide) hn
  have hfield : v.toNat % 2 ^ n < 2 ^ 32 := (Nat.mod_lt _ (Nat.two_pow_pos n)).trans_le hpow
  have hmask : 2 ^ n - 1 < 2 ^ 32 := by have := Nat.two_pow_pos n; omega
  rw [BitVec.toNat_setWidth, BitVec.extractLsb'_toNat, Nat.shiftRight_zero, Nat.mod_eq_of_lt hfield, BitVec.toNat_and,
    BitVec.toNat_ofNat, Nat.mod_eq_of_lt hmask, Nat.and_two_pow_sub_one_eq_mod]

/-- ENC_CFG keeps its defined bits 12:8 and 3:0 (`10_state.md` R27). -/
theorem EncCfg.toWord_ofWord (v : Word) : (EncCfg.ofWord v).toWord = v &&& 0x00001F0F#32 := by
  apply BitVec.eq_of_getLsbD_eq
  intro i hi
  simp only [EncCfg.toWord, EncCfg.ofWord, BitVec.getLsbD_or, getLsbD_flagBit _ _ _ hi, BitVec.getLsbD_setWidth,
    BitVec.getLsbD_extractLsb', BitVec.getLsbD_and]
  interval_cases i <;> simp

theorem RegName.read_write {r : RegName} {mask : Word} (h : storedMask r = some mask) (v : Word) (s : State) :
    r.read (r.write v s) = v &&& mask := by
  cases r
  case cmd | status | result | outLen | palNext | palOvfCnt | palEntry => cases h
  case encCfg => cases h; exact EncCfg.toWord_ofWord v
  case width | height => cases h; exact setWidth_extractLsb'_eq_and v 16 (by decide)
  case tile => cases h; exact setWidth_extractLsb'_eq_and v 8 (by decide)
  all_goals cases h; exact (BitVec.and_allOnes (x := v)).symm

theorem RegName.write_of_stored {r : RegName} {mask : Word} (h : storedMask r = some mask) (v : Word) (s : State) :
    r.write v s = { s with cfg := (r.write v s).cfg } := by
  cases r
  case cmd | status => cases h
  all_goals rfl

/-- The configured registers are fields of their own: a write to one is not seen in another. -/
theorem RegName.read_write_of_ne {r r' : RegName} {mask : Word} (h : storedMask r = some mask) (hne : r' ≠ r) (v : Word)
    (s : State) : r'.read (r.write v s) = r'.read s := by
  cases r
  case cmd | status => cases h
  all_goals cases r' <;> first | rfl | exact absurd rfl hne

theorem RegName.write_of_readOnly {r : RegName} (h : ReadOnly r) (v : Word) (s : State) : r.write v s = s := by
  rcases h with rfl | rfl | rfl | rfl | ⟨k, rfl⟩ <;> rfl

/-- The registers whose reads are free while BUSY = 1 are the RO registers (R346). -/
theorem RegName.freeWhileBusy_iff (r : RegName) : r.freeWhileBusy = true ↔ ReadOnly r := by
  cases r <;> simp [RegName.freeWhileBusy, ReadOnly]

/-! ### STATUS bit by bit -/

theorem Status.toWord_errCode_bit (t : Status) {k : Nat} (h8 : 8 ≤ k) (h12 : k < 12) :
    t.toWord.getLsbD k = t.errCode.getLsbD (k - 8) := by
  rw [Status.getLsbD_toWord _ _ (by omega)]
  interval_cases k <;> simp

/-- The reserved bits read 0. -/
theorem Status.toWord_reserved_bit (t : Status) {k : Nat} (h : (5 ≤ k ∧ k < 8) ∨ 12 ≤ k) :
    t.toWord.getLsbD k = false := by
  by_cases hk : k < 32
  · have hcode : (decide (8 ≤ k) && t.errCode.getLsbD (k - 8)) = false := by
      rcases h with ⟨_, h8⟩ | h12
      · simp [h8]
      · simp [BitVec.getLsbD_of_ge t.errCode (k - 8) (by omega)]
    have h0 : k ≠ 0 := by omega
    have h1 : k ≠ 1 := by omega
    have h2 : k ≠ 2 := by omega
    have h3 : k ≠ 3 := by omega
    have h4 : k ≠ 4 := by omega
    simp [Status.getLsbD_toWord _ _ hk, hcode, h0, h1, h2, h3, h4]
  · exact BitVec.getLsbD_of_ge _ _ (by omega)

/-- A flag clears where a 1 is written (R26). -/
theorem Status.writeOneToClear_flag_bit (t : Status) (v : Word) {k : Nat} (h : k = 1 ∨ k = 2 ∨ k = 3 ∨ k = 4) :
    (t.writeOneToClear v).toWord.getLsbD k = (t.toWord.getLsbD k && !v.getLsbD k) := by
  rw [Status.getLsbD_toWord _ _ (by omega), Status.getLsbD_toWord _ _ (by omega)]
  rcases h with rfl | rfl | rfl | rfl <;> simp

theorem Status.writeOneToClear_errCode_bit (t : Status) (v : Word) {k : Nat} (h8 : 8 ≤ k) (h12 : k < 12) :
    (t.writeOneToClear v).toWord.getLsbD k = (t.toWord.getLsbD k && !v.getLsbD 2) := by
  rw [Status.toWord_errCode_bit _ h8 h12, Status.toWord_errCode_bit _ h8 h12, Status.writeOneToClear_errCode]
  cases v.getLsbD 2 <;> simp

theorem Status.toWord_busy_bit (t : Status) : t.toWord.getLsbD 0 = t.busy := by
  rw [Status.getLsbD_toWord _ _ (by decide)]
  simp

end Sys2Proof.Machine

open Sys2Proof Sys2Proof.Machine Sys2Proof.Claims

/-- Settles O49: a stored register is a field of its own, an RO register has no write, and the gap has no register. -/
theorem registerWritesFollowTheRegisterMap : Obligations.RegisterWritesFollowTheRegisterMap := by
  unfold Obligations.RegisterWritesFollowTheRegisterMap
  refine ⟨fun s r v mask rest hmask hact hidle => ?_, fun s r v rest hro hact hidle => ?_,
    fun s off v rest ha hoff hact _ => ?_, fun s off rest ha hoff hact => ?_⟩
  · have hwrite : hostWriteReg r.offset .bits32 v (goneOn s rest) = r.write v (goneOn s rest) := by
      rw [hostWriteReg_offset, if_neg (by simp [hidle])]
    refine ⟨_, (step_writeReg hact).trans (congrArg _ hwrite), RegName.write_of_stored hmask v _,
      RegName.read_write hmask v _, fun r' hne => ?_⟩
    rw [RegName.read_write_of_ne hmask hne]
    cases r' <;> rfl
  · rw [step_writeReg hact, hostWriteReg_offset, if_neg (by simp [hidle]), RegName.write_of_readOnly hro]
  · rw [step_writeReg hact, hostWriteReg_gap _ _ ha hoff]
  · rw [step_readReg hact, hostReadReg_gap _ ha hoff]
    rfl

/-- Settles O50: `writeOneToClear`, read bit by bit. -/
theorem statusBitsClearWhenWrittenOne : Obligations.StatusBitsClearWhenWrittenOne := by
  unfold Obligations.StatusBitsClearWhenWrittenOne
  intro s v rest hact hidle
  have hwrite : hostWriteReg RegName.status.offset .bits32 v (goneOn s rest) = (goneOn s rest).writeStatus v := by
    rw [hostWriteReg_offset, if_neg (by simp [hidle])]
    rfl
  refine ⟨_, (step_writeReg hact).trans (congrArg _ hwrite), rfl, fun k hk => s.status.writeOneToClear_flag_bit v hk, ?_,
    fun k h8 h12 => s.status.writeOneToClear_errCode_bit v h8 h12, fun k hk => Status.toWord_reserved_bit _ hk⟩
  exact (Status.toWord_busy_bit _).trans (Status.toWord_busy_bit s.status).symm

/-- Settles O51: both kinds of access end in `refuse`. -/
theorem forbiddenRegisterAccessesSetTheMark : Obligations.ForbiddenRegisterAccessesSetTheMark := by
  unfold Obligations.ForbiddenRegisterAccessesSetTheMark
  refine ⟨fun s off width v rest hbad hact => ?_, fun s r v rest hr hact hbusy => ?_⟩
  · rcases hact with hact | hact
    · exact ⟨_, (step_writeReg hact).trans (congrArg _ (hostWriteReg_forbidden _ _ hbad)), rfl⟩
    · exact ⟨_, (step_readReg hact).trans (congrArg _ (hostReadReg_forbidden _ hbad)), rfl⟩
  · have hrefuse : hostWriteReg r.offset .bits32 v (goneOn s rest) = (goneOn s rest).refuse := by
      rw [hostWriteReg_offset, if_pos hbusy, if_neg hr]
    exact ⟨_, (step_writeReg hact).trans (congrArg _ hrefuse), rfl⟩

/-- Settles O53: the reads that are free while BUSY = 1 are those of the RO registers. -/
theorem readsWhileBusy : Obligations.ReadsWhileBusy := by
  unfold Obligations.ReadsWhileBusy
  intro s r rest hact
  refine ⟨fun h => ?_, fun hro hbusy => ⟨Config.freeWord s.draws, ?_⟩⟩
  · have hfixed : ¬(s.status.busy && r.freeWhileBusy) = true := by
      rw [Bool.and_eq_true, RegName.freeWhileBusy_iff]
      rintro ⟨hbusy, hro⟩
      rcases h with h | h
      · exact h hro
      · exact absurd hbusy (by simp [h])
    have hread : r.read (goneOn s rest) = r.read s := by cases r <;> rfl
    rw [step_readReg hact, hostReadReg_offset, if_neg hfixed, hread]
    rfl
  · have hfree : (s.status.busy && r.freeWhileBusy) = true := by simp [hbusy, (RegName.freeWhileBusy_iff r).mpr hro]
    rw [step_readReg hact, hostReadReg_offset, if_pos hfree]
    rfl

/-- Settles O57: each line is its transactions by definition, and every register is found at its own offset. -/
theorem hostLinesAssemble : Obligations.HostLinesAssemble := by
  unfold Obligations.HostLinesAssemble
  exact ⟨fun _ _ => rfl, rfl, rfl, fun _ _ => rfl, by decide, RegName.atOffset_offset⟩

end

/-! ## BMEM, the reset input and `wait`

`70_reset_and_hazards.md` R340-R349, `30_encoding.md` R98: the accesses from outside to BMEM while an operation runs and while
none does, what the reset input leaves, and the end of a polling loop. -/

section

namespace Sys2Proof.Machine

open Sys2Proof Sys2Proof.Claims

variable {s : State} {rest : List HostAction}

/-! ### BMEM accesses -/

/-- An access is refused exactly where it touches a region of the running operation (R344). -/
theorem touchesRunning_iff (s : State) (a : Nat) :
    touchesRunning a s = true ↔ s.status.busy = true ∧ InRunningRegion s a := by
  cases hb : s.status.busy with
  | false => simp [touchesRunning_idle s a hb]
  | true => simp [touchesRunning_busy_iff s a hb]

theorem touchesRunning_goneOn (s : State) (rest : List HostAction) (a : Nat) :
    touchesRunning a (goneOn s rest) = touchesRunning a s := rfl

theorem step_writeMem {a : Nat} {b : Byte} (h : HostDoes s (.writeMem a b) rest) (ha : a < s.memSize) :
    step s = .next (if touchesRunning a s then (goneOn s rest).refuse else (goneOn s rest).storeBytes a [b]) := by
  obtain ⟨hm, hp⟩ := h
  have hsize : ¬(goneOn s rest).memSize ≤ a := ha.not_ge
  rw [step_hostAct hm hp, hostAct, hostWriteMem, if_neg hsize, touchesRunning_goneOn]
  split <;> rfl

theorem step_readMem {a : Nat} (h : HostDoes s (.readMem a) rest) (ha : a < s.memSize) :
    step s = .next (if touchesRunning a s then (goneOn s rest).refuse
      else (goneOn s rest).returns ((s.byteAt a).setWidth 32)) := by
  obtain ⟨hm, hp⟩ := h
  have hsize : ¬(goneOn s rest).memSize ≤ a := ha.not_ge
  rw [step_hostAct hm hp, hostAct, hostReadMem, if_neg hsize, touchesRunning_goneOn]
  split <;> rfl

/-! ### The reset input -/

theorem step_reset (h : HostDoes s .reset rest) : step s = .next (hostReset (goneOn s rest)) := by
  obtain ⟨hm, hp⟩ := h
  exact step_hostAct hm hp

theorem RegName.read_hostReset (s : State) (r : RegName) : r.read (hostReset s) = if r = .palNext then 2#32 else 0#32 :=
  RegName.read_of_reset rfl rfl rfl rfl rfl rfl r

/-- The reset input leaves BMEM alone outside the destinations of an operation in flight (R341, R349). -/
theorem byteAt_hostReset {a : Nat} (h : s.status.busy = false ∨ ¬InRunningDest s a) :
    (hostReset s).byteAt a = s.byteAt a := by
  obtain ⟨-, hout⟩ := foldl_havoc (runningDestRegions s) s
  refine hout a fun r hr => ?_
  unfold runningDestRegions at hr
  split at hr
  · next hbusy =>
    split at hr
    · next i hi =>
      have hdest := h.resolve_left (by simp [hbusy])
      by_contra hin
      exact hdest ⟨i, hi, r, hr, by omega⟩
    · cases hr
  · cases hr

/-! ### The polling loop -/

/-- The last poll: BUSY = 0 is read, and the host goes on. -/
theorem step_wait_idle (h : HostDoes s .wait rest) (hb : s.status.busy = false) :
    step s = .next ((goneOn s rest).returns s.status.toWord) := by
  obtain ⟨hm, hp⟩ := h
  rw [step_hostAct hm hp, hostAct, hostWait]
  exact congrArg Host.Outcome.next (if_neg (by simp [hb]))

/-- Any other turn leaves the host at its `wait`; a turn of the block ends what runs. -/
theorem step_wait_goes_on (hp : s.program = .wait :: rest) (h : s.mover = .block ∨ s.status.busy = true) :
    ∃ t, step s = .next t ∧ t.program = .wait :: rest ∧ t.schedule = s.schedule.tail ∧
      (s.mover = .block → t.status.busy = false) := by
  cases hm : s.mover with
  | host =>
    have hbusy := h.resolve_left (by simp [hm])
    rw [step_hostAct hm hp, hostAct, hostWait]
    exact ⟨_, congrArg Host.Outcome.next (if_pos hbusy), rfl, rfl, nofun⟩
  | block =>
    cases hb : s.status.busy with
    | false => exact ⟨_, step_block_idle hm hb, hp, rfl, fun _ => hb⟩
    | true =>
      cases hd : decode s.cmd with
      | ok i =>
        obtain ⟨t, ht, hbusy, -⟩ := exec_ends i s.scheduleOn
        obtain ⟨-, -, -, -, -, hprog, hsched⟩ := exec_frame ht
        exact ⟨t, (step_block_decoded hm hb hd).trans ht, hprog.trans hp, hsched, fun _ => hbusy⟩
      | error why => exact ⟨_, step_block_illegal hm hb hd, hp, rfl, fun _ => rfl⟩

theorem run_succ_of_step {M : Host.Core} {n : Nat} {s t : M.State} (h : M.step s = .next t) :
    M.run (n + 1) s = M.run n t := by
  rw [Host.Core.run, h]

/-- The loop of a host that stands at a `wait` has ended after `n` steps. -/
abbrev WaitEnds (n : Nat) (s : State) (rest : List HostAction) : Prop :=
  ∃ t, Host.Core.run Sys2Proof.core n s = .next t ∧ t.program = rest ∧ t.status.busy = false ∧
    t.busRead.getLsbD 0 = false

theorem waitEnds_one (h : HostDoes s .wait rest) (hb : s.status.busy = false) : WaitEnds 1 s rest :=
  ⟨_, run_succ_of_step (M := Sys2Proof.core) (step_wait_idle h hb), rfl, hb, (Status.toWord_busy_bit _).trans hb⟩

theorem WaitEnds.succ {n : Nat} {t : State} (hs : step s = .next t) (h : WaitEnds n t rest) : WaitEnds (n + 1) s rest := by
  obtain ⟨u, hrun, hu⟩ := h
  exact ⟨u, (run_succ_of_step (M := Sys2Proof.core) hs).trans hrun, hu⟩

/-- Once the schedule is used up, a busy block ends its operation and the next poll is the last. -/
theorem waitEnds_of_schedule_nil (hp : s.program = .wait :: rest) (hs : s.schedule = []) :
    ∃ n, n ≤ 2 ∧ WaitEnds n s rest := by
  cases hb : s.status.busy with
  | false => exact ⟨1, by decide, waitEnds_one ⟨by simp [State.mover, hs, hb], hp⟩ hb⟩
  | true =>
    have hm : s.mover = .block := by simp [State.mover, hs, hb]
    obtain ⟨t, ht, hprog, hsched, hbusy⟩ := step_wait_goes_on hp (.inl hm)
    have hidle := hbusy hm
    have hmt : t.mover = .host := by simp [State.mover, hsched, hs, hidle]
    exact ⟨2, le_refl _, (waitEnds_one ⟨hmt, hprog⟩ hidle).succ ht⟩

theorem waitEnds (hp : s.program = .wait :: rest) : ∃ n, n ≤ s.schedule.length + 2 ∧ WaitEnds n s rest := by
  induction hs : s.schedule generalizing s with
  | nil => exact waitEnds_of_schedule_nil hp hs
  | cons a sched ih =>
    by_cases h : s.mover = .block ∨ s.status.busy = true
    · obtain ⟨t, ht, hprog, hsched, -⟩ := step_wait_goes_on hp h
      obtain ⟨n, hn, hends⟩ := ih hprog (by rw [hsched, hs]; rfl)
      exact ⟨n + 1, by simp only [List.length_cons]; omega, hends.succ ht⟩
    · obtain ⟨hm, hb⟩ := not_or.mp h
      have hhost : s.mover = .host := by
        cases hmover : s.mover with
        | host => rfl
        | block => exact absurd hmover hm
      exact ⟨1, by omega, waitEnds_one ⟨hhost, hp⟩ (Bool.eq_false_iff.mpr hb)⟩

end Sys2Proof.Machine

open Sys2Proof Sys2Proof.Machine Sys2Proof.Claims

/-- Settles O52: `touchesRunning` is the statement's condition; a refused access sets the mark, an allowed one is done. -/
theorem runningRegionsAreClosedToTheHost : Obligations.RunningRegionsAreClosedToTheHost := by
  unfold Obligations.RunningRegionsAreClosedToTheHost
  intro s a b rest ha
  have hopen (h : s.status.busy = false ∨ ¬InRunningRegion s a) : ¬touchesRunning a s = true := by
    rw [touchesRunning_iff, not_and_or, Bool.not_eq_true]
    exact h
  refine ⟨fun hbusy hin hact => ?_, fun hfree hact => ?_, fun hfree hact => ?_⟩
  · have hclosed := (touchesRunning_iff s a).mpr ⟨hbusy, hin⟩
    rcases hact with hact | hact
    · exact ⟨_, step_writeMem hact ha, by rw [if_pos hclosed]; rfl⟩
    · exact ⟨_, step_readMem hact ha, by rw [if_pos hclosed]; rfl⟩
  · refine ⟨(goneOn s rest).storeBytes a [b], ?_, rfl, ?_, fun a' hne => ?_⟩
    · rw [step_writeMem hact ha, if_neg (hopen hfree)]
    · exact State.byteAt_storeBytes_in (goneOn s rest) a [b] 0 Nat.one_pos
    · exact State.byteAt_storeBytes_out (goneOn s rest) a [b] a' (by simp only [List.length_singleton]; omega)
  · rw [step_readMem hact ha, if_neg (hopen hfree)]
    rfl

/-- Settles O54: the reset registers, over a BMEM drawn free in the running destinations alone. -/
theorem resetInputRestoresRegisters : Obligations.ResetInputRestoresRegisters := by
  unfold Obligations.ResetInputRestoresRegisters
  intro s rest hact
  have hread := RegName.read_hostReset (goneOn s rest)
  obtain ⟨hsize, -⟩ := hostReset_frame (goneOn s rest)
  refine ⟨_, step_reset hact, rfl, hread .status, fun r hr => ?_, hread .palNext, hsize, fun a h => byteAt_hostReset h⟩
  rw [hread, if_neg hr]

/-- Settles O56, by induction on the schedule: each turn uses it up, and at its end the block goes first. -/
theorem waitLoopsEnd : Obligations.WaitLoopsEnd := by
  unfold Obligations.WaitLoopsEnd
  intro s rest hp
  obtain ⟨n, hn, t, hends⟩ := waitEnds hp
  exact ⟨n, t, hn, hends⟩

end

/-! ## The 16-bit words and CVT_IDX8

`41_pixel_codec.md` R134-R136, R141, R142, R144: the 5/6/5 words, the reference decoders on concatenated channels, and the one
assignment of CVT_IDX8. -/

section

namespace Sys2Proof.Machine

open Sys2Proof Sys2Proof.Claims

/-! ### The words -/

/-- The 5/6/5 fields of R134, shifted into place, are their concatenation. -/
theorem Pixel.rgb565_eq_word565 (p : Pixel) : p.rgb565 = word565 p := by
  apply BitVec.eq_of_getLsbD_eq
  intro i hi
  simp only [Pixel.rgb565, BitVec.getLsbD_or, BitVec.getLsbD_shiftLeft, BitVec.getLsbD_setWidth,
    BitVec.getLsbD_ushiftRight, BitVec.getLsbD_append, BitVec.getLsbD_extractLsb']
  interval_cases i <;> simp

/-- The blue-green-red word is the red-green-blue word of the pixel with red and blue exchanged. -/
theorem Pixel.bgr565_eq_wordB565 (p : Pixel) : p.bgr565 = wordB565 p :=
  Pixel.rgb565_eq_word565 ⟨p.b, p.g, p.r, p.a⟩

theorem exec_cvtRgb565 (s : State) : exec .cvtRgb565 s = .next (withResult s (s.pixelOperand.rgb565.setWidth 32)) :=
  exec_eq_withResult rfl rfl

theorem exec_cvtBgr565 (s : State) : exec .cvtBgr565 s = .next (withResult s (s.pixelOperand.bgr565.setWidth 32)) :=
  exec_eq_withResult rfl rfl

/-! ### The reference decoders -/

/-- A value zero-extended into RESULT reads back whole. -/
theorem setWidth_setWidth_back {n : Nat} (hn : n ≤ 32) (v : BitVec n) : (v.setWidth 32).setWidth n = v := by
  rw [BitVec.setWidth_setWidth_of_le v hn, BitVec.setWidth_eq]

theorem extractLsb'_append_low {m n : Nat} (x : BitVec m) (y : BitVec n) : (x ++ y).extractLsb' 0 n = y := by
  apply BitVec.eq_of_getLsbD_eq
  intro i hi
  simp [BitVec.getLsbD_append, hi]

theorem extractLsb'_append_high {m n k : Nat} (x : BitVec m) (y : BitVec n) (start : Nat) :
    (x ++ y).extractLsb' (n + start) k = x.extractLsb' start k := by
  apply BitVec.eq_of_getLsbD_eq
  intro i hi
  simp [BitVec.getLsbD_append, hi, Nat.add_assoc]

theorem dec555_append (t : BitVec 1) (r g b : BitVec 5) : dec555 (t ++ r ++ g ++ b) = (r, g, b) :=
  Prod.ext
    ((extractLsb'_append_high (t ++ r ++ g) b 5).trans
      ((extractLsb'_append_high (t ++ r) g 0).trans (extractLsb'_append_low t r)))
    (Prod.ext ((extractLsb'_append_high (t ++ r ++ g) b 0).trans (extractLsb'_append_low (t ++ r) g))
      (extractLsb'_append_low (t ++ r ++ g) b))

theorem extractLsb'_full {n : Nat} (x : BitVec n) : x.extractLsb' 0 n = x := by
  apply BitVec.eq_of_getLsbD_eq
  intro i hi
  simp [hi]

theorem dec565_append (r : BitVec 5) (g : BitVec 6) (b : BitVec 5) : dec565 (r ++ g ++ b) = (r, g, b) :=
  Prod.ext
    ((extractLsb'_append_high (r ++ g) b 6).trans ((extractLsb'_append_high r g 0).trans (extractLsb'_full r)))
    (Prod.ext ((extractLsb'_append_high (r ++ g) b 0).trans (extractLsb'_append_low r g))
      (extractLsb'_append_low (r ++ g) b))

/-- The blue-green-red decoder reads the fields of `dec565` in the other order. -/
theorem decB565_append (b : BitVec 5) (g : BitVec 6) (r : BitVec 5) : decB565 (b ++ g ++ r) = (r, g, b) := by
  have h := dec565_append b g r
  simp only [dec565, Prod.mk.injEq] at h
  obtain ⟨hb, hg, hr⟩ := h
  simp only [decB565, hb, hg, hr]

/-- Bit 15 of the RGB555 word is "not transparent" (R132). -/
theorem word555_bit15 (p : Pixel) (pt : Bool) :
    ((word555 p pt).setWidth 32).getLsbD 15 = true ↔ ¬IsTransparent p.a pt := by
  by_cases h : IsTransparent p.a pt <;>
    simp only [word555, BitVec.getLsbD_setWidth, BitVec.getLsbD_append, h, if_true, if_false] <;> simp

/-! ### CVT_IDX8 -/

theorem exec_cvtIdx8 (s : State) :
    exec .cvtIdx8 s =
      .next (s.applyAssigned ((argPixel s).idx8 s.cfg.encCfg.partialTransp s.palette)).complete := rfl

theorem Pixel.idx8_of_transparent {x : Pixel} {pt : Bool} (h : IsTransparent x.a pt) (p : Palette) :
    x.idx8 pt p = ⟨0#8, p, false⟩ := by
  rw [Pixel.idx8, if_pos ((transparent_iff _ _).mpr h)]

theorem Pixel.idx8_of_opaque {x : Pixel} {pt : Bool} (h : ¬IsTransparent x.a pt) (p : Palette) :
    x.idx8 pt p = p.assign (Claims.color15 x) := by
  rw [Pixel.idx8, if_neg (mt (transparent_iff _ _).mp h), Pixel.color15_eq_concat]

/-- A colour zero-extended into ARG0 is PAL_ASSIGN's operand again (`10_state.md` R31). -/
theorem State.colorOperand_of_arg0 (s : State) (c : Color15) :
    State.colorOperand { s with cfg := { s.cfg with arg0 := c.setWidth 32 } } = c := by
  apply BitVec.eq_of_toNat_eq
  rw [State.colorOperand, BitVec.extractLsb'_toNat, BitVec.toNat_setWidth, Nat.shiftRight_zero]
  omega

end Sys2Proof.Machine

open Sys2Proof Sys2Proof.Machine Sys2Proof.Claims

/-- Settles O13: the operations write `rgb565` and `bgr565` of their operand, which do not read alpha. -/
theorem cvt565GivesTheFiveSixFiveWords : Obligations.Cvt565GivesTheFiveSixFiveWords := by
  unfold Obligations.Cvt565GivesTheFiveSixFiveWords
  refine ⟨by decide, by decide, fun s => ⟨?_, ?_⟩⟩
  · rw [exec_cvtRgb565, Pixel.rgb565_eq_word565, State.pixelOperand_eq_argPixel]
  · rw [exec_cvtBgr565, Pixel.bgr565_eq_wordB565, State.pixelOperand_eq_argPixel]

/-- Settles O15: each decoder takes its word's concatenation apart. -/
theorem sixteenBitWordsDecodeBack : Obligations.SixteenBitWordsDecodeBack := by
  unfold Obligations.SixteenBitWordsDecodeBack
  intro s
  refine ⟨_, _, _, exec_cvtRgb555 s, exec_cvtRgb565 s, exec_cvtBgr565 s, ?_⟩
  simp only [Pixel.rgb555_eq_word555, Pixel.rgb565_eq_word565, Pixel.bgr565_eq_wordB565, State.pixelOperand_eq_argPixel,
    setWidth_setWidth_back (show 16 ≤ 32 by decide)]
  exact ⟨dec555_append _ _ _ _, word555_bit15 _ _, dec565_append _ _ _, decB565_append _ _ _⟩

/-- Settles O16: `idx8` is no assignment for a transparent pixel, and else that of its color15. -/
theorem cvtIdx8AssignsOpaquePixels : Obligations.CvtIdx8AssignsOpaquePixels := by
  unfold Obligations.CvtIdx8AssignsOpaquePixels
  refine ⟨by decide, fun s => ⟨fun h => ?_, fun h => ⟨_, exec_palAssign _, ?_⟩⟩⟩
  · rw [exec_cvtIdx8, Pixel.idx8_of_transparent h, State.applyAssigned_complete_of_no_overflow]
    rfl
  · rw [exec_cvtIdx8, Pixel.idx8_of_opaque h, State.colorOperand_of_arg0]
    rfl

end

/-! ## The palette after a reset

`42_palette_builder.md` R161, R164-R168: a bound colour is found, and from the reset palette on the palette holds the distinct
colours in first-seen order, up to the 254th; `20_memory.md` R76: the palette file. -/

section

namespace Sys2Proof.Machine

open Sys2Proof Sys2Proof.Claims

/-! ### Assigning a bound colour -/

theorem Palette.assign_black (p : Palette) : p.assign 0#15 = ⟨1#8, p, false⟩ := if_pos rfl

theorem Palette.assign_eq_found {p : Palette} {c : Color15} {k : Nat} (hc : c ≠ 0#15) (hl : p.lookup c = some k) :
    p.assign c = ⟨BitVec.ofNat 8 k, p, false⟩ := by
  rw [Palette.assign, if_neg hc, hl]

/-- A bound index fits in a byte: past 255 there is no entry. -/
theorem Palette.lookup_lt {p : Palette} {c : Color15} {k : Nat} (hc : c ≠ 0#15) (hl : p.lookup c = some k) : k < 256 := by
  obtain ⟨-, -, hk, -⟩ := (p.lookup_eq_some_iff c k).mp hl
  by_contra hge
  exact setWidth16_ne_zero c hc (hk.symm.trans (p.get_past k (by omega)))

theorem exec_palAssign_black {s : State} (hc : s.colorOperand = 0#15) :
    exec .palAssign s = .next (withResult s 1#32) := by
  rw [exec_palAssign, hc, Palette.assign_black, State.applyAssigned_complete_of_no_overflow]
  rfl

theorem exec_palAssign_found {s : State} {k : Nat} (hc : s.colorOperand ≠ 0#15)
    (hl : s.palette.lookup s.colorOperand = some k) : exec .palAssign s = .next (withResult s (BitVec.ofNat 32 k)) := by
  have hindex : (BitVec.ofNat 8 k).setWidth 32 = BitVec.ofNat 32 k :=
    BitVec.setWidth_ofNat_of_le_of_lt (by decide) (Palette.lookup_lt hc hl)
  rw [exec_palAssign, Palette.assign_eq_found hc hl, State.applyAssigned_complete_of_no_overflow, hindex]

/-! ### First-seen order -/

/-- The colours seen so far, after one more. -/
def observe (seen : List Color15) (c : Color15) : List Color15 := if c = 0#15 ∨ c ∈ seen then seen else seen ++ [c]

theorem firstSeen_eq_foldl (cs : List Color15) : firstSeen cs = cs.foldl observe [] := rfl

/-- The colour has its place in the order: black needs none. -/
abbrev Placed (seen : List Color15) (c : Color15) : Prop := c = 0#15 ∨ c ∈ seen

theorem observe_of_placed {seen : List Color15} {c : Color15} (h : Placed seen c) : observe seen c = seen := if_pos h

theorem observe_of_not_placed {seen : List Color15} {c : Color15} (h : ¬Placed seen c) : observe seen c = seen ++ [c] :=
  if_neg h

theorem prefix_observe (seen : List Color15) (c : Color15) : seen <+: observe seen c := by
  by_cases h : Placed seen c
  · rw [observe_of_placed h]
  · rw [observe_of_not_placed h]
    exact List.prefix_append _ _

theorem placed_observe (seen : List Color15) (c : Color15) : Placed (observe seen c) c := by
  by_cases h : Placed seen c
  · rwa [observe_of_placed h]
  · rw [observe_of_not_placed h]
    exact .inr (by simp)

theorem prefix_foldl_observe (seen cs : List Color15) : seen <+: cs.foldl observe seen := by
  induction cs generalizing seen with
  | nil => exact List.prefix_rfl
  | cons c cs ih => exact (prefix_observe seen c).trans (ih _)

/-- Colours seen later do not move one that has its place. -/
theorem expectedIndex_of_prefix {seen all : List Color15} {c : Color15} (h : seen <+: all) (hc : Placed seen c) :
    expectedIndex all c = expectedIndex seen c := by
  rcases hc with rfl | hc
  · rfl
  · rw [expectedIndex, expectedIndex, h.idxOf_eq_of_mem hc]

theorem excess_iff_of_prefix {seen all : List Color15} {c : Color15} (h : seen <+: all) (hc : Placed seen c) :
    Excess all c ↔ Excess seen c := by
  rcases hc with rfl | hc
  · simp [Excess]
  · rw [Excess, Excess, h.idxOf_eq_of_mem hc]

theorem expectedIndex_of_excess {seen : List Color15} {c : Color15} (h : Excess seen c) : expectedIndex seen c = 255 := by
  obtain ⟨hc, hidx⟩ := h
  rw [expectedIndex, if_neg hc, if_neg hidx.not_gt]

theorem expectedIndex_of_not_excess {seen : List Color15} {c : Color15} (hc : c ≠ 0#15) (h : ¬Excess seen c) :
    expectedIndex seen c = seen.idxOf c + 2 := by
  rw [expectedIndex, if_neg hc, if_pos (by by_contra hge; exact h ⟨hc, by omega⟩)]

theorem expectedIndex_lt (seen : List Color15) (c : Color15) : expectedIndex seen c < 256 := by
  unfold expectedIndex
  split
  · decide
  · split <;> omega

/-! ### A palette that holds a first-seen order -/

/-- The palette holds the colours of `seen` from index 2 on, as far as there are indices. -/
structure Palette.Holds (p : Palette) (seen : List Color15) : Prop where
  next : p.next.toNat = 2 + min 254 seen.length
  entry : ∀ (j : Nat) (hj : j < seen.length), j < 254 → p.get (j + 2) = seen[j].setWidth 16

theorem Palette.reset_holds : Palette.reset.Holds [] := ⟨rfl, nofun⟩

variable {p : Palette} {seen : List Color15} {c : Color15}

theorem getElem_ne_of_lt_idxOf {i : Nat} (h : i < seen.idxOf c) (hi : i < seen.length) : seen[i] ≠ c :=
  beq_eq_false_iff_ne.mp (List.not_of_lt_findIdx h)

/-- A colour among the first 254 is found at its place. -/
theorem Palette.Holds.lookup_eq_some (h : p.Holds seen) (hc : c ∈ seen) (hidx : seen.idxOf c < 254) :
    p.lookup c = some (seen.idxOf c + 2) := by
  have hlt := List.idxOf_lt_length_iff.mpr hc
  refine (p.lookup_eq_some_iff c _).mpr ⟨by omega, by rw [h.next]; omega, ?_, fun j h2 hj heq => ?_⟩
  · rw [h.entry _ hlt hidx, List.getElem_idxOf]
  · obtain ⟨i, rfl⟩ : ∃ i, j = i + 2 := ⟨j - 2, by omega⟩
    rw [h.entry i (by omega) (by omega)] at heq
    exact getElem_ne_of_lt_idxOf (show i < seen.idxOf c by omega) _ (setWidth16_inj heq)

/-- Any other colour is not found. -/
theorem Palette.Holds.lookup_eq_none (h : p.Holds seen) (hidx : min 254 seen.length ≤ seen.idxOf c) :
    p.lookup c = none := by
  refine (p.lookup_eq_none_iff c).mpr fun j h2 hj heq => ?_
  rw [h.next] at hj
  obtain ⟨i, rfl⟩ : ∃ i, j = i + 2 := ⟨j - 2, by omega⟩
  rw [h.entry i (by omega) (by omega)] at heq
  exact getElem_ne_of_lt_idxOf (show i < seen.idxOf c by omega) _ (setWidth16_inj heq)

/-- Binding a new colour while there is an index adds it to the order. -/
theorem Palette.Holds.bind (h : p.Holds seen) (hlen : seen.length < 254) : (p.bind c).Holds (seen ++ [c]) := by
  have hnext : p.next.toNat = 2 + seen.length := by rw [h.next]; omega
  have hget := p.bind_get c (by omega)
  refine ⟨?_, fun j hj _ => ?_⟩
  · rw [p.bind_next_toNat c (by omega), List.length_append, List.length_singleton]
    omega
  · rw [List.length_append, List.length_singleton] at hj
    rw [hget, List.getElem_append]
    by_cases hlast : j < seen.length
    · rw [if_neg (by omega), dif_pos hlast, h.entry j hlast (by omega)]
    · rw [if_pos (by omega), dif_neg hlast, List.getElem_singleton]

/-- With every index bound, an order that goes on is held as far as it can be. -/
theorem Palette.Holds.extend (h : p.Holds seen) (hlen : 254 ≤ seen.length) {all : List Color15} (hall : seen <+: all) :
    p.Holds all := by
  have hle := hall.length_le
  refine ⟨by rw [h.next]; omega, fun j _ hj254 => ?_⟩
  rw [h.entry j (by omega) hj254, hall.getElem]

/-- What an assignment gives, in terms of the order of the colours seen. -/
structure AssignsInOrder (r : Assigned) (seen : List Color15) (c : Color15) : Prop where
  holds : r.palette.Holds seen
  index : r.index = BitVec.ofNat 8 (expectedIndex seen c)
  overflow : r.overflow = true ↔ Excess seen c

/-- A colour seen before is found at its place, or overflows again. -/
theorem Palette.Holds.assign_seen (h : p.Holds seen) (hc : c ≠ 0#15) (hmem : c ∈ seen) :
    AssignsInOrder (p.assign c) seen c := by
  have hlt := List.idxOf_lt_length_iff.mpr hmem
  by_cases hex : Excess seen c
  · have hidx := hex.2
    rw [Palette.assign_eq_countOverflow hc (h.lookup_eq_none (by omega)) (by rw [h.next]; omega)]
    exact ⟨⟨h.next, h.entry⟩, by rw [expectedIndex_of_excess hex], fun _ => hex, fun _ => rfl⟩
  · have hidx : seen.idxOf c < 254 := by by_contra hge; exact hex ⟨hc, by omega⟩
    rw [Palette.assign_eq_found hc (h.lookup_eq_some hmem hidx)]
    exact ⟨h, by rw [expectedIndex_of_not_excess hc hex], by simp [hex]⟩

/-- A new colour is bound to the next index, or overflows when there is none. -/
theorem Palette.Holds.assign_new (h : p.Holds seen) (hc : c ≠ 0#15) (hmem : c ∉ seen) :
    AssignsInOrder (p.assign c) (seen ++ [c]) c := by
  have hidx : seen.idxOf c = seen.length := List.idxOf_eq_length_iff.mpr hmem
  have hlast : (seen ++ [c]).idxOf c = seen.length := by
    rw [List.idxOf_append_of_notMem hmem, List.idxOf_cons_self, Nat.add_zero]
  have hl : p.lookup c = none := h.lookup_eq_none (by omega)
  by_cases hfull : 254 ≤ seen.length
  · have hex : Excess (seen ++ [c]) c := ⟨hc, hlast.symm ▸ hfull⟩
    have hholds := h.extend hfull (List.prefix_append seen [c])
    rw [Palette.assign_eq_countOverflow hc hl (by rw [h.next]; omega)]
    exact ⟨⟨hholds.next, hholds.entry⟩, by rw [expectedIndex_of_excess hex], fun _ => hex, fun _ => rfl⟩
  · have hex : ¬Excess (seen ++ [c]) c := fun hex => hfull (hlast ▸ hex.2)
    have hnext : p.next.toNat = seen.length + 2 := by rw [h.next]; omega
    rw [Palette.assign_eq_bind hc hl (by omega)]
    exact ⟨h.bind (by omega), by rw [expectedIndex_of_not_excess hc hex, hlast, hnext], by simp [hex]⟩

/-- One assignment follows the first-seen order (R166, R167). -/
theorem Palette.Holds.assign (h : p.Holds seen) (c : Color15) : AssignsInOrder (p.assign c) (observe seen c) c := by
  by_cases hc : c = 0#15
  · subst hc
    rw [Palette.assign_black, observe_of_placed (.inl rfl)]
    exact ⟨h, rfl, by simp [Excess]⟩
  by_cases hmem : c ∈ seen
  · rw [observe_of_placed (.inr hmem)]
    exact h.assign_seen hc hmem
  · rw [observe_of_not_placed (not_or.mpr ⟨hc, hmem⟩)]
    exact h.assign_new hc hmem

/-- PAL_OVF_CNT counts exactly the overflows (R162). -/
theorem Palette.assign_ovfCnt (p : Palette) (c : Color15) :
    (p.assign c).palette.ovfCnt = p.ovfCnt + if (p.assign c).overflow then 1#32 else 0#32 := by
  rcases p.assign_cases c with ⟨_, e⟩ | ⟨_, k, _, e⟩ | ⟨_, _, _, e⟩ | ⟨_, _, _, e⟩ <;> rw [e] <;> simp

/-! ### A run of PAL_ASSIGN -/

/-- One command of a run of PAL_ASSIGN. -/
theorem runOn_palAssign_cons (c : Color15) (vs : List Word) (s : State) :
    ∃ t : State, runOn .palAssign (c.setWidth 32 :: vs) s =
        ((s.palette.assign c).index.setWidth 32 :: (runOn .palAssign vs t).1, (runOn .palAssign vs t).2) ∧
      t.palette = (s.palette.assign c).palette ∧ t.status.palOvf = (s.status.palOvf || (s.palette.assign c).overflow) := by
  refine ⟨State.complete (State.applyAssigned (s.palette.assign c)
    { s with cfg := { s.cfg with arg0 := c.setWidth 32 } }), ?_, rfl, rfl⟩
  rw [runOn, exec_palAssign, State.colorOperand_of_arg0]
  rfl

/-- What a run of PAL_ASSIGN over `cs` gives, where `all` is the first-seen order at its end. -/
structure RunsInOrder (cs all : List Color15) (s : State) (run : List Word × State) : Prop where
  results : run.1 = cs.map fun c => BitVec.ofNat 32 (expectedIndex all c)
  holds : run.2.palette.Holds all
  ovfCnt : run.2.palette.ovfCnt = s.palette.ovfCnt + BitVec.ofNat 32 (cs.countP fun c => decide (Excess all c))
  palOvf : run.2.status.palOvf = true ↔ s.status.palOvf = true ∨ ∃ c ∈ cs, Excess all c

theorem runOn_palAssign_runsInOrder (cs : List Color15) {s : State} (h : s.palette.Holds seen) :
    RunsInOrder cs (cs.foldl observe seen) s (runOn .palAssign (cs.map fun c => c.setWidth 32) s) := by
  induction cs generalizing s seen with
  | nil => exact ⟨rfl, h, by simp [runOn], by simp [runOn]⟩
  | cons c cs ih =>
    obtain ⟨t, hrun, hpal, hovf⟩ := runOn_palAssign_cons c (cs.map fun c => c.setWidth 32) s
    obtain ⟨hholds, hindex, hover⟩ := h.assign c
    obtain ⟨hresults, hlast, hcnt, hflag⟩ := ih (s := t) (hpal ▸ hholds)
    have hprefix := prefix_foldl_observe (observe seen c) cs
    have hplaced := placed_observe seen c
    rw [← excess_iff_of_prefix hprefix hplaced] at hover
    rw [← expectedIndex_of_prefix hprefix hplaced] at hindex
    simp only [List.map_cons, List.foldl_cons, hrun]
    refine ⟨?_, hlast, ?_, ?_⟩
    · rw [hresults, List.map_cons, hindex,
        BitVec.setWidth_ofNat_of_le_of_lt (by decide) (expectedIndex_lt _ _)]
    · rw [hcnt, hpal, Palette.assign_ovfCnt, List.countP_cons]
      simp only [hover, decide_eq_true_eq]
      split <;> simp [BitVec.ofNat_add, BitVec.add_assoc, BitVec.add_comm]
    · rw [hflag, hovf, Bool.or_eq_true, hover, List.exists_mem_cons_iff, or_assoc]

/-! ### The palette file -/

theorem Palette.file_eq_flatMap (p : Palette) : p.file = ((List.range 256).map p.get).flatMap littleEndian := by
  rw [Palette.file, List.flatMap_map]

/-- The bytes of a little-endian element. -/
theorem State.byteAt_of_halfAt {s : State} {a : Nat} {v : Half} (h : s.halfAt a = v) :
    s.byteAt a = v.extractLsb' 0 8 ∧ s.byteAt (a + 1) = v.extractLsb' 8 8 := by
  rw [← h, State.halfAt]
  exact ⟨(extractLsb'_append_low _ _).symm,
    ((extractLsb'_append_high (s.byteAt (a + 1)) (s.byteAt a) 0).trans (extractLsb'_full _)).symm⟩

/-- The memory checks, in the statements' form (`40_command_control.md` R114, R115). -/
theorem firstFailing_memoryChecks (rs : List Region) (s : State) :
    firstFailing (memoryChecks rs s) =
      if RangeOk rs s then (if OverlapOk rs then none else some .overlap) else some .range := by
  rw [← if_congr (rangeOk_iff rs s.memSize) (if_congr (overlapOk_iff rs) rfl rfl) rfl]
  cases hr : rangeOk rs s.memSize <;> cases ho : overlapOk rs <;> simp [memoryChecks, hr, ho]

theorem firstFailing_palStore (s : State) :
    firstFailing (checksOf .palStore s) =
      if s.cfg.dstBase.toNat + 512 ≤ s.memSize then none else some .range := by
  have hchecks : checksOf .palStore s = memoryChecks [⟨s.cfg.dstBase.toNat, 512⟩] s := rfl
  have hrange : RangeOk [⟨s.cfg.dstBase.toNat, 512⟩] s ↔ s.cfg.dstBase.toNat + 512 ≤ s.memSize := by simp [RangeOk]
  rw [hchecks, firstFailing_memoryChecks, if_pos (List.pairwise_singleton _ _)]
  exact if_congr hrange rfl rfl

end Sys2Proof.Machine

open Sys2Proof Sys2Proof.Machine Sys2Proof.Claims

/-- Settles O18: the lookup finds the first index, which is that of the statement. -/
theorem palAssignFindsBoundColours : Obligations.PalAssignFindsBoundColours := by
  unfold Obligations.PalAssignFindsBoundColours
  refine ⟨by decide, fun s => ⟨exec_palAssign_black, fun k hc h2 hk hget hfirst => ?_⟩⟩
  exact exec_palAssign_found hc ((Palette.lookup_eq_some_iff _ _ _).mpr ⟨h2, hk, hget, hfirst⟩)

/-- Settles O21: the reset palette holds the empty order, and each command carries the order on. -/
theorem indicesFollowFirstSeenOrder : Obligations.IndicesFollowFirstSeenOrder := by
  unfold Obligations.IndicesFollowFirstSeenOrder
  intro cs s hreset
  rw [firstSeen_eq_foldl]
  exact (runOn_palAssign_runsInOrder cs (seen := []) (hreset ▸ Palette.reset_holds)).results

/-- Settles O22: the same run, seen in its last palette and its flag. -/
theorem overflowsAreCountedOncePerPresentation : Obligations.OverflowsAreCountedOncePerPresentation := by
  unfold Obligations.OverflowsAreCountedOncePerPresentation
  intro cs s hreset
  obtain ⟨-, hholds, hcnt, hflag⟩ := runOn_palAssign_runsInOrder cs (seen := []) (hreset ▸ Palette.reset_holds)
  rw [← firstSeen_eq_foldl] at hholds hcnt hflag
  refine ⟨?_, hflag, hholds.next, hholds.entry⟩
  rw [hcnt, hreset]
  exact BitVec.zero_add _

/-- Settles O23: one region, whose only check is RANGE, and the file as 256 little-endian entries. -/
theorem palStoreWritesThePaletteFile : Obligations.PalStoreWritesThePaletteFile := by
  unfold Obligations.PalStoreWritesThePaletteFile
  refine ⟨by decide, fun s hin => ?_, fun s hout => ?_⟩
  · have hexec : exec .palStore s = .next (palStoreBody s) :=
      exec_eq_body (by rw [firstFailing_palStore, if_pos hin])
    refine ⟨palStoreBody s, hexec, ⟨rfl, (exec_writtenIn hexec).unchangedOutside⟩, fun k => ?_⟩
    have hstored := State.halfAt_storeBytes_littleEndian s s.cfg.dstBase.toNat ((List.range 256).map s.palette.get) k.val
      (by rw [List.length_map, List.length_range]; exact k.isLt)
    rw [← Palette.file_eq_flatMap, List.getElem_map, List.getElem_range, Palette.get_eq_entry] at hstored
    exact State.byteAt_of_halfAt (s := palStoreBody s) hstored
  · have hfirst : firstFailing (checksOf .palStore s) = some .range := by
      rw [firstFailing_palStore, if_neg (by omega)]
    exact raises_of_firstFailing hfirst

end

/-! ## RASTER_ENCODE

`43_raster_encoder.md` R180-R187: the order of its checks, the frame of its writes, the two planes in scan order with one
element per pixel, and the IDX8 plane as a run of CVT_IDX8 from a reset palette. -/

section

namespace Sys2Proof.Machine

open Sys2Proof Sys2Proof.Claims

/-! ### The checks -/

/-- The first failing check of RASTER_ENCODE, in the statements' form (R182). -/
theorem firstFailing_rasterEncode (s : State) :
    firstFailing (checksOf .rasterEncode s) =
      if FmtBad s then some .badFmt
      else if GeometryBad s then some .badGeometry
      else if RangeOk (rasterRegions s) s then (if OverlapOk (rasterRegions s) then none else some .overlap)
      else some .range := by
  have hchecks : checksOf .rasterEncode s =
      (s.badFmt, .badFmt) :: (s.badGeometry, .badGeometry) :: memoryChecks (rasterRegions s) s := rfl
  rw [hchecks, firstFailing_cons, firstFailing_cons, firstFailing_memoryChecks]
  exact if_congr s.badFmt_iff rfl (if_congr s.badGeometry_iff rfl rfl)

/-! ### The frame -/

/-- A byte of a region lies outside every region that does not overlap it. -/
theorem outside_of_not_overlap {p q : Region} (h : ¬Overlap p q) {a : Nat} (hlow : p.base ≤ a) (hhigh : a < p.base + p.len) :
    Outside q a := by
  simp only [Overlap, Outside] at *
  omega

theorem source_outside_planes {s : State} (h : OverlapOk (rasterRegions s)) {a : Nat} (hlow : s.cfg.srcBase.toNat ≤ a)
    (hhigh : a < s.cfg.srcBase.toNat + 4 * (s.w * s.h)) : ∀ r ∈ rasterPlanes s, Outside r a := fun _ hr =>
  outside_of_not_overlap (List.rel_of_pairwise_cons h hr) hlow hhigh

/-! ### The ALPHA and C16 planes -/

theorem alphaPlane_getElem? {n k : Nat} (hk : k < n) (px : Nat → Pixel) : (alphaPlane n px)[k]? = some (px k).a := by
  simp [alphaPlane, hk]

theorem rasterEncodeBody_alpha {s : State} (h : RasterReady s) (hen : s.cfg.encCfg.enAlpha = true) {k : Nat} (hk : k < s.n) :
    (rasterEncodeBody s).byteAt (s.cfg.alphaBase.toNat + k) = (s.scanPixel k).a :=
  rasterEncodeBody_byteAt h (by simp [planesOf, hen]) (alphaPlane_getElem? hk _)

theorem c16Plane_getElem? {n k b : Nat} (hk : k < n) (hb : b < 2) (px : Nat → Pixel) (pt bswap : Bool) (fmt : ColorFormat) :
    (c16Plane n px pt bswap fmt)[2 * k + b]? =
      (if bswap then bigEndian ((px k).c16 pt fmt) else littleEndian ((px k).c16 pt fmt))[b]? := by
  rw [c16Plane, getElem?_flatMap_chunks _ 2 (fun _ => by cases bswap <;> rfl) _ k b hb, List.getElem?_range hk,
    Option.bind_some]

/-- The word of a pixel in the format that FMT16 selects, where it is not the reserved value (`41_pixel_codec.md` R143). -/
theorem exists_format {f : BitVec 2} (hf : f ≠ 3#2) :
    ∃ fmt, ColorFormat.ofBits f = some fmt ∧ ∀ (p : Pixel) (pt : Bool),
      p.c16 pt fmt = if f = 0#2 then word555 p pt else if f = 1#2 then word565 p else wordB565 p := by
  have hcases : f = 0#2 ∨ f = 1#2 ∨ f = 2#2 := by revert f; decide
  rcases hcases with rfl | rfl | rfl
  · exact ⟨.rgb555, rfl, Pixel.rgb555_eq_word555⟩
  · exact ⟨.rgb565, rfl, fun p _ => p.rgb565_eq_word565⟩
  · exact ⟨.bgr565, rfl, fun p _ => p.bgr565_eq_wordB565⟩

/-- The two bytes of the C16 plane's word k, in the order that BSWAP16 selects (`20_memory.md` R63). -/
theorem rasterEncodeBody_c16 {s : State} (h : RasterReady s) (hen : s.cfg.encCfg.enC16 = true) {fmt : ColorFormat}
    (hfmt : ColorFormat.ofBits s.cfg.encCfg.fmt16 = some fmt) {k : Nat} (hk : k < s.n) :
    let v := (s.scanPixel k).c16 s.pt fmt
    let a := s.cfg.c16Base.toNat + 2 * k
    if s.cfg.encCfg.bswap16 then
      (rasterEncodeBody s).byteAt a = v.extractLsb' 8 8 ∧ (rasterEncodeBody s).byteAt (a + 1) = v.extractLsb' 0 8
    else (rasterEncodeBody s).byteAt a = v.extractLsb' 0 8 ∧ (rasterEncodeBody s).byteAt (a + 1) = v.extractLsb' 8 8 := by
  have hplane : (true, s.cfg.c16Base, c16Plane s.n s.scanPixel s.pt s.cfg.encCfg.bswap16 fmt) ∈ planesOf s := by
    simp [planesOf, hen, hfmt]
  have hbyte (b : Nat) (hb : b < 2) := c16Plane_getElem? hk hb s.scanPixel s.pt s.cfg.encCfg.bswap16 fmt
  cases hswap : s.cfg.encCfg.bswap16 <;> rw [hswap] at hplane hbyte
  · exact ⟨rasterEncodeBody_byteAt h hplane (hbyte 0 (by decide)), rasterEncodeBody_byteAt h hplane (hbyte 1 (by decide))⟩
  · exact ⟨rasterEncodeBody_byteAt h hplane (hbyte 0 (by decide)), rasterEncodeBody_byteAt h hplane (hbyte 1 (by decide))⟩

/-! ### The IDX8 plane -/

theorem rasterEncodeBody_idx8 {s : State} (h : RasterReady s) (hen : s.cfg.encCfg.enIdx8 = true) {k : Nat} {i : Byte}
    (hi : s.scan.1[k]? = some i) : (rasterEncodeBody s).byteAt (s.cfg.idx8Base.toNat + k) = i :=
  rasterEncodeBody_byteAt h (by simp [planesOf, hen]) hi

/-- A pixel put together as a 32-bit operand is the pixel operand again (`10_state.md` R31). -/
theorem ofWord_pixelWord (x : Pixel) : Pixel.ofWord (pixelWord x) = x := by
  obtain ⟨r, g, b, a⟩ := x
  have hr : (a ++ b ++ g ++ r).extractLsb' 0 8 = r := extractLsb'_append_low _ r
  have hg : (a ++ b ++ g ++ r).extractLsb' 8 8 = g :=
    (extractLsb'_append_high (a ++ b ++ g) r 0).trans (extractLsb'_append_low _ g)
  have hb : (a ++ b ++ g ++ r).extractLsb' 16 8 = b :=
    (extractLsb'_append_high (a ++ b ++ g) r 8).trans
      ((extractLsb'_append_high (a ++ b) g 0).trans (extractLsb'_append_low a b))
  have ha : (a ++ b ++ g ++ r).extractLsb' 24 8 = a :=
    (extractLsb'_append_high (a ++ b ++ g) r 16).trans
      ((extractLsb'_append_high (a ++ b) g 8).trans ((extractLsb'_append_high a b 0).trans (extractLsb'_full a)))
  exact congr (congr (congr (congrArg Pixel.mk hr) hg) hb) ha

/-- A run of CVT_IDX8 is the scan of its pixels from the palette it starts with (`43_raster_encoder.md` R183). -/
theorem runOn_cvtIdx8 (xs : List Pixel) (s : State) :
    let run := runOn .cvtIdx8 (xs.map pixelWord) s
    let scan := idx8Scan s.pt xs s.palette
    run.1 = scan.1.map (fun i => i.setWidth 32) ∧ run.2.palette = scan.2.1 ∧
      run.2.status.palOvf = (s.status.palOvf || scan.2.2) := by
  induction xs generalizing s with
  | nil => exact ⟨rfl, rfl, (Bool.or_false _).symm⟩
  | cons x xs ih =>
    have harg : argPixel { s with cfg := { s.cfg with arg0 := pixelWord x } } = x := ofWord_pixelWord x
    obtain ⟨hresults, hpal, hovf⟩ := ih (State.complete (State.applyAssigned (x.idx8 s.pt s.palette)
      { s with cfg := { s.cfg with arg0 := pixelWord x } }))
    simp only [List.map_cons, runOn, exec_cvtIdx8, harg, idx8Scan_cons]
    exact ⟨congrArg _ hresults, hpal, hovf.trans (Bool.or_assoc _ _ _)⟩

/-- The index of a pixel agrees with a palette, where `ovf` says that there was an overflow (R187). -/
structure IndexAgrees (pt : Bool) (x : Pixel) (i : Byte) (p : Palette) (ovf : Bool) : Prop where
  transparent : i = 0#8 ↔ IsTransparent x.a pt
  bound : i ≠ 0#8 → (i = 255#8 ∧ ovf = true) ∨ (i.toNat < p.next.toNat ∧ p.get i.toNat = (Claims.color15 x).setWidth 16)

/-- Assignments after it do not change what an index stands for (`10_state.md` R36). -/
theorem IndexAgrees.mono {pt : Bool} {x : Pixel} {i : Byte} {p p' : Palette} {ovf ovf' : Bool}
    (h : IndexAgrees pt x i p ovf) (hnext : p.next.toNat ≤ p'.next.toNat)
    (hget : ∀ k, k < p.next.toNat → p'.get k = p.get k) (hovf : ovf = true → ovf' = true) :
    IndexAgrees pt x i p' ovf' where
  transparent := h.transparent
  bound hi := (h.bound hi).imp (And.imp_right hovf) fun ⟨hlt, heq⟩ => ⟨by omega, (hget _ hlt).trans heq⟩

/-- The index of an opaque pixel: black, found, newly bound, or 255 in an overflow. -/
theorem Palette.assign_index_agrees {p : Palette} (h : p.Inv) (c : Color15) :
    (p.assign c).index ≠ 0#8 ∧ (((p.assign c).index = 255#8 ∧ (p.assign c).overflow = true) ∨
      ((p.assign c).index.toNat < (p.assign c).palette.next.toNat ∧
        (p.assign c).palette.get (p.assign c).index.toNat = c.setWidth 16)) := by
  have hlow := h.nextLow
  have byte {k : Nat} (h2 : 2 ≤ k) (hk : k < 256) : (BitVec.ofNat 8 k).toNat = k ∧ BitVec.ofNat 8 k ≠ 0#8 := by
    have htoNat : (BitVec.ofNat 8 k).toNat = k := by rw [BitVec.toNat_ofNat]; omega
    exact ⟨htoNat, fun h0 => by rw [h0] at htoNat; simp at htoNat; omega⟩
  rcases p.assign_cases c with ⟨hc, e⟩ | ⟨hc, k, hl, e⟩ | ⟨hc, hl, hn, e⟩ | ⟨hc, hl, hn, e⟩ <;> rw [e]
  · exact ⟨show 1#8 ≠ 0#8 by decide, .inr ⟨hlow, by rw [hc]; exact h.entry1⟩⟩
  · obtain ⟨h2, hk, hget, -⟩ := (p.lookup_eq_some_iff c k).mp hl
    obtain ⟨htoNat, hne⟩ := byte h2 (Palette.lookup_lt hc hl)
    exact ⟨hne, .inr (by simp only [htoNat]; exact ⟨hk, hget⟩)⟩
  · obtain ⟨htoNat, hne⟩ := byte hlow (show p.next.toNat < 256 by omega)
    refine ⟨hne, .inr ?_⟩
    simp only [htoNat, p.bind_next_toNat c hn, p.bind_get c hn, if_true, and_true]
    omega
  · exact ⟨show 255#8 ≠ 0#8 by decide, .inl ⟨rfl, rfl⟩⟩

theorem Pixel.idx8_agrees (x : Pixel) (pt : Bool) {p : Palette} (h : p.Inv) :
    IndexAgrees pt x (x.idx8 pt p).index (x.idx8 pt p).palette (x.idx8 pt p).overflow := by
  by_cases ht : IsTransparent x.a pt
  · rw [Pixel.idx8_of_transparent ht]
    exact ⟨iff_of_true rfl ht, fun h0 => absurd rfl h0⟩
  · rw [Pixel.idx8_of_opaque ht]
    obtain ⟨hne, hbound⟩ := Palette.assign_index_agrees h (Claims.color15 x)
    exact ⟨iff_of_false hne ht, fun _ => hbound⟩

theorem idx8Scan_keeps (pt : Bool) (xs : List Pixel) (p : Palette) :
    p.next.toNat ≤ (idx8Scan pt xs p).2.1.next.toNat ∧
      ∀ k, k < p.next.toNat → (idx8Scan pt xs p).2.1.get k = p.get k := by
  induction xs generalizing p with
  | nil => exact ⟨le_refl _, fun _ _ => rfl⟩
  | cons x xs ih =>
    obtain ⟨hnext, hget⟩ := x.idx8_keeps pt p
    obtain ⟨hnext', hget'⟩ := ih (x.idx8 pt p).palette
    exact ⟨hnext.trans hnext', fun k hk => (hget' k (hk.trans_le hnext)).trans (hget k hk)⟩

/-- Along a scan every index agrees with the palette at its end. -/
theorem idx8Scan_agrees (pt : Bool) (xs : List Pixel) {p : Palette} (h : p.Inv) {k : Nat} {x : Pixel}
    (hx : xs[k]? = some x) : ∃ i, (idx8Scan pt xs p).1[k]? = some i ∧
      IndexAgrees pt x i (idx8Scan pt xs p).2.1 (idx8Scan pt xs p).2.2 := by
  induction xs generalizing p k with
  | nil => cases hx
  | cons y xs ih =>
    rw [idx8Scan_cons]
    cases k with
    | zero =>
      cases hx
      obtain ⟨hnext, hget⟩ := idx8Scan_keeps pt xs (x.idx8 pt p).palette
      exact ⟨_, rfl, (x.idx8_agrees pt h).mono hnext hget fun ho => Bool.or_eq_true_iff.mpr (.inl ho)⟩
    | succ k =>
      obtain ⟨i, hi, hagrees⟩ := ih (y.idx8_inv pt p h) hx
      exact ⟨i, hi, hagrees.mono (le_refl _) (fun _ _ => rfl) fun ho => Bool.or_eq_true_iff.mpr (.inr ho)⟩

end Sys2Proof.Machine

open Sys2Proof Sys2Proof.Machine Sys2Proof.Claims

/-- Settles O24: the four checks, one after the other; each raises its own error and does nothing else. -/
theorem rasterEncodeChecksInOrder : Obligations.RasterEncodeChecksInOrder := by
  unfold Obligations.RasterEncodeChecksInOrder
  refine ⟨by decide, fun s => ?_⟩
  have hfirst := firstFailing_rasterEncode s
  refine ⟨fun hf => ?_, fun hf hg => ?_, fun hf hg hr => ?_, fun hf hg hr ho => ?_⟩
  · rw [if_pos hf] at hfirst
    exact raises_of_firstFailing hfirst
  · rw [if_neg hf, if_pos hg] at hfirst
    exact raises_of_firstFailing hfirst
  · rw [if_neg hf, if_neg hg, if_neg hr] at hfirst
    exact raises_of_firstFailing hfirst
  · rw [if_neg hf, if_neg hg, if_pos hr, if_neg ho] at hfirst
    exact raises_of_firstFailing hfirst

/-- Settles O25: the planes are the only destinations, and the source raster overlaps none of them. -/
theorem rasterEncodeWritesOnlyItsPlanes : Obligations.RasterEncodeWritesOnlyItsPlanes := by
  unfold Obligations.RasterEncodeWritesOnlyItsPlanes
  intro s hready
  have hexec := exec_rasterEncode_of_ready hready
  have hframe : UnchangedOutside (rasterPlanes s) s (rasterEncodeBody s) := (exec_writtenIn hexec).unchangedOutside
  obtain ⟨-, -, -, hoverlap⟩ := hready
  exact ⟨_, hexec, rfl, hframe, fun a hlow hhigh => hframe a (source_outside_planes hoverlap hlow hhigh)⟩

/-- Settles O26: the planes' elements at the scan index, whose pixel is (x, y). -/
theorem scanOrderPlanesHoldAlphaAndColour : Obligations.ScanOrderPlanesHoldAlphaAndColour := by
  unfold Obligations.ScanOrderPlanesHoldAlphaAndColour
  intro s hready
  refine ⟨_, exec_rasterEncode_of_ready hready, fun x y hx hy => ?_⟩
  obtain ⟨hk, hpixel⟩ := scan_index s x y hx hy
  refine ⟨fun hen => ?_, fun hen => ?_⟩
  · rw [rasterEncodeBody_alpha hready hen hk, hpixel, State.pixelAt_eq_sourcePixel]
  · obtain ⟨fmt, hfmt, hword⟩ := exists_format fun h3 => hready.1 ⟨hen, h3⟩
    have hbytes := rasterEncodeBody_c16 hready hen hfmt hk
    rw [hpixel, State.pixelAt_eq_sourcePixel, hword] at hbytes
    exact hbytes

/-- Settles O29: RASTER_ENCODE's own scan starts from the reset palette, as a run of CVT_IDX8 after PAL_RESET does. -/
theorem indexPlaneIsTheScanOfCvtIdx8 : Obligations.IndexPlaneIsTheScanOfCvtIdx8 := by
  unfold Obligations.IndexPlaneIsTheScanOfCvtIdx8
  intro s hready
  obtain ⟨hresults, hpal, hovf⟩ := runOn_cvtIdx8 ((List.range s.n).map s.scanPixel) s.palReset.complete
  rw [List.map_map] at hresults hpal hovf
  refine ⟨_, _, exec_rasterEncode_of_ready hready, exec_palReset s, hpal.symm, hovf.symm, fun hen k hk hlen => ?_, ?_⟩
  · have hi : k < s.scan.1.length := by rwa [State.scan_length]
    rw [rasterEncodeBody_idx8 hready hen (List.getElem?_eq_getElem hi)]
    have hresult := List.getElem_of_eq hresults hlen
    rw [List.getElem_map] at hresult
    exact ((congrArg (BitVec.setWidth 8) hresult).trans (setWidth_setWidth_back (by decide) _)).symm
  · exact (congrArg List.length hresults).trans (by simp [State.n])

/-- Settles O30: each index agrees with the palette at the end of the scan, which is RASTER_ENCODE's. -/
theorem indexPlaneAgreesWithThePalette : Obligations.IndexPlaneAgreesWithThePalette := by
  unfold Obligations.IndexPlaneAgreesWithThePalette
  intro s hready hen
  refine ⟨_, exec_rasterEncode_of_ready hready, fun x y hx hy => ?_⟩
  obtain ⟨hk, hpixel⟩ := scan_index s x y hx hy
  have hx? : ((List.range s.n).map s.scanPixel)[scanIndex s x y]? = some (sourcePixel s x y) := by
    rw [List.getElem?_map, List.getElem?_range hk, Option.map_some, hpixel, State.pixelAt_eq_sourcePixel]
  obtain ⟨i, hi, hagrees⟩ := idx8Scan_agrees s.pt _ Palette.reset_inv hx?
  have hbyte := rasterEncodeBody_idx8 hready hen hi
  have hovf : (rasterEncodeBody s).status.palOvf = s.scan.2.2 := Bool.false_or _
  simp only [hbyte, hovf]
  refine ⟨hagrees.transparent, fun h0 => ?_⟩
  rcases hagrees.bound h0 with ⟨h255, hover⟩ | ⟨hlt, hget⟩
  · refine ⟨.inr h255, fun h => ?_⟩
    rcases h with h | h
    · exact absurd h255 h
    · exact absurd h (by rw [State.scan, hover]; decide)
  · exact ⟨.inl hlt, fun _ => hget⟩

end

/-! ## The position map of the tile operations

`44_tile_rearranger.md` R201, R207, R208: output and source positions are two ways to number the same (tile row, tile column,
row, column), so the position map is a bijection; and what the three operations leave in BMEM. -/

section

namespace Sys2Proof.Machine

open Sys2Proof Sys2Proof.Claims

/-! ### The two numberings -/

section

variable {rows across rowLen th tw : Nat}

/-- The source position of the loop variables of R201 lies inside the buffer. -/
theorem sourcePosition_lt (hrow : across * tw = rowLen) {tr tc i j : Nat} (htr : tr < rows) (htc : tc < across) (hi : i < th)
    (hj : j < tw) : (tr * th + i) * rowLen + (tc * tw + j) < rows * th * rowLen := by
  have hline : tr * th + i + 1 ≤ rows * th :=
    calc tr * th + i + 1 ≤ (tr + 1) * th := by rw [Nat.add_mul]; omega
      _ ≤ rows * th := Nat.mul_le_mul_right _ htr
  have hcol : tc * tw + j + 1 ≤ rowLen :=
    calc tc * tw + j + 1 ≤ (tc + 1) * tw := by rw [Nat.add_mul]; omega
      _ ≤ across * tw := Nat.mul_le_mul_right _ htc
      _ = rowLen := hrow
  calc (tr * th + i) * rowLen + (tc * tw + j) < (tr * th + i + 1) * rowLen := by rw [Nat.add_mul _ 1]; omega
    _ ≤ rows * th * rowLen := Nat.mul_le_mul_right _ hline

/-- The inverse formula of R208 at the source position of the loop variables is their output position. -/
theorem tileDest_formula (hrow : across * tw = rowLen) {tr tc i j : Nat} (htc : tc < across) (hi : i < th) (hj : j < tw) :
    tileDest rowLen th tw ((tr * th + i) * rowLen + (tc * tw + j)) = ((tr * across + tc) * th + i) * tw + j := by
  have htw : 0 < tw := by omega
  have hcol : tc * tw + j < rowLen :=
    calc tc * tw + j < (tc + 1) * tw := by rw [Nat.add_mul]; omega
      _ ≤ across * tw := Nat.mul_le_mul_right _ htc
      _ = rowLen := hrow
  have hdiv : ((tr * th + i) * rowLen + (tc * tw + j)) / rowLen = tr * th + i := by
    rw [Nat.mul_comm, Nat.mul_add_div (by omega), Nat.div_eq_of_lt hcol, Nat.add_zero]
  have hmod : ((tr * th + i) * rowLen + (tc * tw + j)) % rowLen = tc * tw + j := by
    rw [Nat.mul_comm, Nat.mul_add_mod, Nat.mod_eq_of_lt hcol]
  have hacross : rowLen / tw = across := by rw [← hrow, Nat.mul_div_cancel _ htw]
  have htr : (tr * th + i) / th = tr := by
    rw [Nat.mul_comm, Nat.mul_add_div (by omega), Nat.div_eq_of_lt hi, Nat.add_zero]
  have hi' : (tr * th + i) % th = i := by rw [Nat.mul_comm, Nat.mul_add_mod, Nat.mod_eq_of_lt hi]
  have htc' : (tc * tw + j) / tw = tc := by
    rw [Nat.mul_comm, Nat.mul_add_div htw, Nat.div_eq_of_lt hj, Nat.add_zero]
  have hj' : (tc * tw + j) % tw = j := by rw [Nat.mul_comm, Nat.mul_add_mod, Nat.mod_eq_of_lt hj]
  simp only [tileDest, hdiv, hmod, hacross, htr, hi', htc', hj']

/-- A number below a product of two factors, by its quotient and its remainder. -/
theorem exists_eq_mul_add_of_lt_mul {m n x : Nat} (h : x < m * n) : ∃ q r, q < m ∧ r < n ∧ x = q * n + r := by
  have hn : 0 < n := Nat.pos_of_ne_zero fun h0 => by simp [h0] at h
  exact ⟨x / n, x % n, Nat.div_lt_of_lt_mul (Nat.mul_comm m n ▸ h), Nat.mod_lt _ hn, (Nat.div_add_mod' x n).symm⟩

theorem exists_tilePosition {o : Nat} (h : o < rows * across * th * tw) :
    ∃ tr tc i j, tr < rows ∧ tc < across ∧ i < th ∧ j < tw ∧ o = ((tr * across + tc) * th + i) * tw + j := by
  obtain ⟨line, j, hline, hj, rfl⟩ := exists_eq_mul_add_of_lt_mul h
  obtain ⟨tile, i, htile, hi, rfl⟩ := exists_eq_mul_add_of_lt_mul hline
  obtain ⟨tr, tc, htr, htc, rfl⟩ := exists_eq_mul_add_of_lt_mul htile
  exact ⟨tr, tc, i, j, htr, htc, hi, hj, rfl⟩

theorem exists_sourcePosition (hrow : across * tw = rowLen) {p : Nat} (h : p < rows * th * rowLen) :
    ∃ tr tc i j, tr < rows ∧ tc < across ∧ i < th ∧ j < tw ∧ p = (tr * th + i) * rowLen + (tc * tw + j) := by
  obtain ⟨line, col, hline, hcol, rfl⟩ := exists_eq_mul_add_of_lt_mul h
  obtain ⟨tr, i, htr, hi, rfl⟩ := exists_eq_mul_add_of_lt_mul hline
  obtain ⟨tc, j, htc, hj, rfl⟩ := exists_eq_mul_add_of_lt_mul (hrow ▸ hcol)
  exact ⟨tr, tc, i, j, htr, htc, hi, hj, rfl⟩

variable (htw : 0 < tw) (hrow : across * tw = rowLen)

include htw hrow

theorem tileSource_position {tr tc i j : Nat} (htc : tc < across) (hi : i < th) (hj : j < tw) :
    tileSource rowLen th tw (((tr * across + tc) * th + i) * tw + j) = (tr * th + i) * rowLen + (tc * tw + j) := by
  have hacross : rowLen / tw = across := by rw [← hrow, Nat.mul_div_cancel _ htw]
  have hformula := tileSource_formula rowLen th tw tr tc i j (hacross ▸ htc) hi hj
  rwa [hacross] at hformula

/-- R208 undoes R201 on output positions. -/
theorem tileDest_tileSource {o : Nat} (h : o < rows * across * th * tw) :
    tileSource rowLen th tw o < rows * th * rowLen ∧ tileDest rowLen th tw (tileSource rowLen th tw o) = o := by
  obtain ⟨tr, tc, i, j, htr, htc, hi, hj, rfl⟩ := exists_tilePosition h
  rw [tileSource_position htw hrow htc hi hj]
  exact ⟨sourcePosition_lt hrow htr htc hi hj, tileDest_formula hrow htc hi hj⟩

/-- R201 undoes R208 on source positions. -/
theorem tileSource_tileDest {p : Nat} (h : p < rows * th * rowLen) :
    tileDest rowLen th tw p < rows * across * th * tw ∧ tileSource rowLen th tw (tileDest rowLen th tw p) = p := by
  obtain ⟨tr, tc, i, j, htr, htc, hi, hj, rfl⟩ := exists_sourcePosition hrow h
  rw [tileDest_formula hrow htc hi hj]
  exact ⟨tilePosition_lt _ _ _ _ _ _ _ _ htr htc hi hj, tileSource_position htw hrow htc hi hj⟩

theorem tileSource_bijOn {n : Nat} (hn : rows * th * rowLen = n) :
    Set.BijOn (tileSource rowLen th tw) (Set.Iio n) (Set.Iio n) := by
  have hn' : rows * across * th * tw = n := by rw [← hn, ← hrow]; ring
  have hforth {o : Nat} (h : o < n) := tileDest_tileSource htw hrow (h.trans_eq hn'.symm)
  have hback {p : Nat} (h : p < n) := tileSource_tileDest htw hrow (h.trans_eq hn.symm)
  exact Set.InvOn.bijOn ⟨fun _ h => (hforth h).2, fun _ h => (hback h).2⟩ (fun _ h => (hforth h).1.trans_eq hn)
    fun _ h => (hback h).1.trans_eq hn'

end

/-! ### The numbers of a legal tile command -/

theorem tile_dims_of_not_bad {s : State} (hg : ¬GeometryBad s) (ht : ¬TileBad s) :
    0 < s.t ∧ s.w / s.t * s.t = s.w ∧ s.h / s.t * s.t * s.w = s.w * s.h := by
  obtain ⟨-, -, hpos, hw, hh⟩ := tile_dims (s := s) (Bool.eq_false_iff.mpr (mt s.badGeometry_iff.mp hg))
    (Bool.eq_false_iff.mpr (mt s.badTile_iff.mp ht))
  exact ⟨hpos, hw, by rw [hh, Nat.mul_comm]⟩

/-- The output positions of TILE_8 and TILE_16 are as many as the pixels. -/
theorem tile_positions {s : State} (hg : ¬GeometryBad s) (ht : ¬TileBad s) :
    s.h / s.t * (s.w / s.t) * s.t * s.t = s.n := by
  obtain ⟨-, hw, hn⟩ := tile_dims_of_not_bad hg ht
  calc s.h / s.t * (s.w / s.t) * s.t * s.t = s.h / s.t * s.t * (s.w / s.t * s.t) := by ring
    _ = s.n := by rw [hw, hn, State.n]

theorem tile1bit_dims_of_not_bad {s : State} (hg : ¬GeometryBad s) (ht : ¬Tile1bitBad s) :
    0 < s.t / 8 ∧ s.w / s.t * (s.t / 8) = s.w / 8 ∧ s.h / s.t * s.t * (s.w / 8) = s.h * (s.w / 8) ∧
      s.h * s.w / 8 = s.h * (s.w / 8) := by
  have hg' : s.badGeometry = false := Bool.eq_false_iff.mpr (mt s.badGeometry_iff.mp hg)
  have ht' : s.badTile1bit = false := Bool.eq_false_iff.mpr (mt s.badTile1bit_iff_tile1bitBad.mp ht)
  obtain ⟨htile, h8, -, hlen, -, hcols⟩ := tile1bit_dims hg' ht'
  obtain ⟨-, -, hpos, -, hh⟩ := tile_dims hg' htile
  exact ⟨by omega, hcols, by rw [hh], hlen⟩

/-! ### TILE_8 and TILE_16 -/

theorem exec_tile8_of_ready {s : State} (h : TileReady 1 s) : exec .tile8 s = .next (tile8Body s) := by
  obtain ⟨hgeo, htile, hrange, hoverlap⟩ := h
  exact exec_tile_of_ready rfl s.badTile_iff (regions_tile8 s) hgeo htile hrange hoverlap

theorem exec_tile16_of_ready {s : State} (h : TileReady 2 s) : exec .tile16 s = .next (tile16Body s) := by
  obtain ⟨hgeo, htile, hrange, hoverlap⟩ := h
  exact exec_tile_of_ready rfl s.badTile_iff (regions_tile16 s) hgeo htile hrange hoverlap

theorem tile8Body_byteAt {s : State} {o : Nat} (ho : o < s.n) :
    (tile8Body s).byteAt (s.cfg.dstBase.toNat + o) = s.byteAt (s.cfg.srcBase.toNat + tileSource s.w s.t s.t o) := by
  have hstored := State.byteAt_storeBytes_in s s.cfg.dstBase.toNat s.tiledBytes o (by rwa [State.tiledBytes_length])
  exact hstored.trans (by simp [State.tiledBytes])

theorem tile16Body_halfAt {s : State} {o : Nat} (ho : o < s.n) :
    (tile16Body s).halfAt (s.cfg.dstBase.toNat + 2 * o) =
      s.halfAt (s.cfg.srcBase.toNat + 2 * tileSource s.w s.t s.t o) := by
  have hstored := State.halfAt_storeBytes_littleEndian s s.cfg.dstBase.toNat s.tiledHalves o
    (by rwa [State.tiledHalves_length])
  exact hstored.trans (by simp [State.tiledHalves])

/-- The output position of the loop variables, inside the destination, and where it is read from (R201). -/
theorem tile_position {s : State} (hg : ¬GeometryBad s) (ht : ¬TileBad s) {tr tc i j : Nat} (htr : tr < s.h / s.t)
    (htc : tc < s.w / s.t) (hi : i < s.t) (hj : j < s.t) :
    ((tr * (s.w / s.t) + tc) * s.t + i) * s.t + j < s.n ∧
      tileSource s.w s.t s.t (((tr * (s.w / s.t) + tc) * s.t + i) * s.t + j) =
        (tr * s.t + i) * s.w + (tc * s.t + j) := by
  have hlt := tilePosition_lt _ _ _ _ tr tc i j htr htc hi hj
  exact ⟨tile_positions hg ht ▸ hlt, tileSource_formula s.w s.t s.t tr tc i j htc hi hj⟩

/-! ### TILE_1BIT -/

/-- The tiled rows stay as written, as neither map overlaps them. -/
theorem tile1bitBody_byteAt_dst {s : State} (h : Tile1bitReady s) {o : Nat} (ho : o < s.h * (s.w / 8)) :
    (tile1bitBody s).byteAt (s.cfg.dstBase.toNat + o) =
      s.byteAt (s.cfg.srcBase.toNat + tileSource (s.w / 8) s.t (s.t / 8) o) := by
  obtain ⟨hgeo, htile, -, hoverlap⟩ := h
  obtain ⟨-, -, -, hlen⟩ := tile1bit_dims_of_not_bad hgeo htile
  have hdst (r : Region) (hr : r ∈ [⟨s.cfg.mapxBase.toNat, s.nt⟩, ⟨s.cfg.mapyBase.toNat, s.nt⟩]) :
      Outside r (s.cfg.dstBase.toNat + o) :=
    outside_of_not_overlap (List.rel_of_pairwise_cons (hoverlap.drop (i := 1)) hr) (Nat.le_add_right _ _)
      (by simp only [hlen]; omega)
  have hx := hdst ⟨_, s.nt⟩ List.mem_cons_self
  have hy := hdst ⟨s.cfg.mapyBase.toNat, s.nt⟩ (by simp)
  have hin : o < s.tiled1bit.length := by rwa [State.tiled1bit_length]
  rw [tile1bitBody_byteAt, State.byteAt_storeBytes_out _ _ _ _ (by rwa [State.trimMap_length]),
    State.byteAt_storeBytes_out _ _ _ _ (by rwa [State.trimMap_length]), State.byteAt_storeBytes_in _ _ _ _ hin]
  simp [State.tiled1bit]

theorem tile1bit_position {s : State} (hg : ¬GeometryBad s) (ht : ¬Tile1bitBad s) {tr tc i j : Nat} (htr : tr < s.h / s.t)
    (htc : tc < s.w / s.t) (hi : i < s.t) (hj : j < s.t / 8) :
    ((tr * (s.w / s.t) + tc) * s.t + i) * (s.t / 8) + j < s.h * (s.w / 8) ∧
      tileSource (s.w / 8) s.t (s.t / 8) (((tr * (s.w / s.t) + tc) * s.t + i) * (s.t / 8) + j) =
        (tr * s.t + i) * (s.w / 8) + (tc * (s.t / 8) + j) := by
  obtain ⟨hpos, hw, hn, -⟩ := tile1bit_dims_of_not_bad hg ht
  have hlt := tilePosition_lt _ _ _ _ tr tc i j htr htc hi hj
  have hsize : s.h / s.t * (s.w / s.t) * s.t * (s.t / 8) = s.h * (s.w / 8) := by
    calc s.h / s.t * (s.w / s.t) * s.t * (s.t / 8) = s.h / s.t * s.t * (s.w / s.t * (s.t / 8)) := by ring
      _ = s.h * (s.w / 8) := by rw [hw, hn]
  exact ⟨hsize ▸ hlt, tileSource_position hpos hw htc hi hj⟩

end Sys2Proof.Machine

open Sys2Proof Sys2Proof.Machine Sys2Proof.Claims

/-- Settles O32: one byte per output position, read by the position map. -/
theorem tileEightFollowsTheAddressFormula : Obligations.TileEightFollowsTheAddressFormula := by
  unfold Obligations.TileEightFollowsTheAddressFormula
  refine ⟨by decide, fun s hready => ?_⟩
  have hexec := exec_tile8_of_ready hready
  refine ⟨_, hexec, ⟨rfl, (exec_writtenIn hexec).unchangedOutside⟩, fun tr tc i j htr htc hi hj => ?_⟩
  obtain ⟨hgeo, htile, -, -⟩ := hready
  obtain ⟨hlt, hsource⟩ := tile_position hgeo htile htr htc hi hj
  rw [tile8Body_byteAt hlt, hsource]

/-- Settles O33: one little-endian word per output position, read by the same map. -/
theorem tileSixteenMovesWholeWords : Obligations.TileSixteenMovesWholeWords := by
  unfold Obligations.TileSixteenMovesWholeWords
  refine ⟨by decide, fun s hready => ?_⟩
  have hexec := exec_tile16_of_ready hready
  refine ⟨_, hexec, ⟨rfl, (exec_writtenIn hexec).unchangedOutside⟩, fun tr tc i j htr htc hi hj => ?_⟩
  obtain ⟨hgeo, htile, -, -⟩ := hready
  obtain ⟨hlt, hsource⟩ := tile_position hgeo htile htr htc hi hj
  obtain ⟨hlow, hhigh⟩ := State.byteAt_of_halfAt (tile16Body_halfAt hlt)
  rw [hsource] at hlow hhigh
  obtain ⟨hlow', hhigh'⟩ := State.byteAt_of_halfAt (s := s) (a := _) rfl
  exact ⟨hlow.trans hlow'.symm, hhigh.trans hhigh'.symm⟩

/-- Settles O34: rows of W/8 bytes under the same map, which the two maps do not overlap. -/
theorem tileOneBitCopiesPackedRows : Obligations.TileOneBitCopiesPackedRows := by
  unfold Obligations.TileOneBitCopiesPackedRows
  refine ⟨by decide, fun s hready => ?_⟩
  have hexec := exec_tile1bit_of_ready hready
  have hframe := (exec_writtenIn hexec).unchangedOutside
  have ⟨hgeo, htile, _, _⟩ := hready
  obtain ⟨-, -, -, hlen⟩ := tile1bit_dims_of_not_bad hgeo htile
  simp only [destRegions, hlen] at hframe
  refine ⟨_, hexec, ⟨rfl, hframe⟩, fun tr tc i j htr htc hi hj => ?_⟩
  obtain ⟨hlt, hsource⟩ := tile1bit_position hgeo htile htr htc hi hj
  rw [tile1bitBody_byteAt_dst hready hlt, hsource, Nat.add_assoc, Nat.add_assoc]

/-- Settles O36: the inverse formula of R208 is a two-sided inverse. -/
theorem tilingIsABijection : Obligations.TilingIsABijection := by
  unfold Obligations.TilingIsABijection
  refine ⟨fun s hg ht => ?_, fun s hg ht => ?_⟩
  · obtain ⟨hpos, hw, hn⟩ := tile_dims_of_not_bad hg ht
    exact tileSource_bijOn hpos hw hn
  · obtain ⟨hpos, hw, hn, -⟩ := tile1bit_dims_of_not_bad hg ht
    exact tileSource_bijOn hpos hw hn

/-- Settles O37: the statement's position is `tileDest`, whose source is the position itself. -/
theorem untilingRecoversTheSource : Obligations.UntilingRecoversTheSource := by
  unfold Obligations.UntilingRecoversTheSource
  intro s hready
  refine ⟨_, exec_tile8_of_ready hready, fun p hp => ?_⟩
  obtain ⟨hgeo, htile, -, -⟩ := hready
  obtain ⟨hpos, hw, hn⟩ := tile_dims_of_not_bad hgeo htile
  obtain ⟨hlt, hsource⟩ := tileSource_tileDest hpos hw (hp.trans_eq hn.symm)
  have hbyte := tile8Body_byteAt (s := s) (hlt.trans_eq (tile_positions hgeo htile))
  rw [hsource] at hbyte
  exact hbyte

end

/-! ## The RLE streams

`45_rle_codec.md` R229-R232 for every width: an induction over the records of the encoder, from which the round trip and the
expansion bound follow. -/

section

namespace Sys2Proof.Machine

open Sys2Proof Sys2Proof.Claims

variable {w : Nat}

/-! ### Induction over the encoder's records -/

/-- What holds of the empty sequence, and of a sequence when it holds of what its first record leaves, holds of all. -/
theorem rleEncode_induction {P : List (BitVec w) → Prop} (nil : P [])
    (run : ∀ x xs, 3 ≤ runLength (x :: xs) → P ((x :: xs).drop (runLength (x :: xs))) → P (x :: xs))
    (literal : ∀ x xs, runLength (x :: xs) < 3 → P ((x :: xs).drop (literalLength (Config.rleLitMax w) (x :: xs))) →
      P (x :: xs)) (l : List (BitVec w)) : P l := by
  induction hn : l.length using Nat.strong_induction_on generalizing l with
  | _ n ih =>
    cases l with
    | nil => exact nil
    | cons x xs =>
      have shorter {k : Nat} (hk : 1 ≤ k) : P ((x :: xs).drop k) :=
        ih _ (by rw [← hn, List.length_drop, List.length_cons]; omega) _ rfl
      by_cases h : 3 ≤ runLength (x :: xs)
      · exact run x xs h (shorter (runLength_pos x xs))
      · exact literal x xs (by omega) (shorter (literalLength_pos x xs (by omega)))

/-! ### The round trip -/

/-- The symbols of a run are all its first one. -/
theorem take_runLength (x : BitVec w) (xs : List (BitVec w)) :
    (x :: xs).take (runLength (x :: xs)) = List.replicate (runLength (x :: xs)) x := by
  obtain ⟨⟨-, -, hlength, hequal⟩, -⟩ := isRunLength_runLength x xs
  refine List.eq_replicate_iff.mpr ⟨by rw [List.length_take]; omega, fun y hy => ?_⟩
  obtain ⟨q, hq, rfl⟩ := List.getElem_of_mem hy
  rw [List.length_take] at hq
  have hsame := hequal q (by omega)
  rw [List.getElem?_eq_getElem (by omega), List.getElem?_cons_zero] at hsame
  rw [List.getElem_take]
  exact Option.some.inj hsame

/-- What the decoder owes for a sequence: all of it, or CAPACITY. -/
abbrev DecodesTo (cap : Nat) (stream l : List (BitVec w)) : Prop :=
  rleDecode cap stream = if l.length ≤ cap then .ok l else .error .capacity

/-- A record of `front` before a stream of `back` decodes as the two together. -/
theorem DecodesTo.record {cap n : Nat} {stream front back : List (BitVec w)} (hn : front.length = n)
    (h : DecodesTo (cap - n) stream back) :
    (if cap < n then .error .capacity else (rleDecode (cap - n) stream).map (front ++ ·)) =
      if (front ++ back).length ≤ cap then .ok (front ++ back) else (.error .capacity : Except ErrorCode _) := by
  rw [h, List.length_append, hn]
  by_cases hfront : cap < n
  · rw [if_pos hfront, if_neg (by omega)]
  · rw [if_neg hfront]
    by_cases hback : back.length ≤ cap - n
    · rw [if_pos hback, if_pos (by omega)]
      rfl
    · rw [if_neg hback, if_neg (by omega)]
      rfl

theorem rleDecode_rleEncode (hw : 1 < w) (l : List (BitVec w)) : ∀ cap, DecodesTo cap (rleEncode l) l := by
  induction l using rleEncode_induction with
  | nil => exact fun cap => (if_pos (Nat.zero_le cap)).symm
  | run x xs hrun ih =>
    intro cap
    obtain ⟨-, hmax, -, -⟩ := (isRunLength_runLength x xs).1
    have hheader := repeatHeader_toNat hw (runLength (x :: xs)) hmax
    have hcount : 2 ^ (w - 1) + (runLength (x :: xs) - 3) - 2 ^ (w - 1) + 3 = runLength (x :: xs) := by omega
    rw [DecodesTo, rleEncode_of_run x xs hrun, rleDecode_repeat (by omega) cap x _ (by omega), hheader, hcount,
      DecodesTo.record List.length_replicate (ih _), ← take_runLength, List.take_append_drop]
  | literal x xs hshort ih =>
    intro cap
    obtain ⟨hmax, hlength⟩ := literalLength_le (Config.rleLitMax w) (x :: xs)
    have hpos := literalLength_pos x xs hshort
    have hmax : literalLength (Config.rleLitMax w) (x :: xs) ≤ 2 ^ (w - 1) := hmax
    have hheader := literalHeader_toNat (by omega) _ hmax
    have hcount : literalLength (Config.rleLitMax w) (x :: xs) - 1 + 1 = literalLength (Config.rleLitMax w) (x :: xs) := by
      omega
    have htake : ((x :: xs).take (literalLength (Config.rleLitMax w) (x :: xs))).length =
        literalLength (Config.rleLitMax w) (x :: xs) := by rw [List.length_take]; omega
    rw [DecodesTo, rleEncode_of_no_run x xs hshort, rleDecode_literal (by omega) cap _ (by omega), hheader, hcount,
      if_neg (by rw [List.length_append]; omega), List.take_left' htake, List.drop_left' htake,
      DecodesTo.record htake (ih _), List.take_append_drop]

/-! ### The expansion bound -/

/-- The bound of R230 on the encoding of a sequence; where it starts with a run, the run pays for the record before it. -/
structure WithinBound (l : List (BitVec w)) : Prop where
  any : (rleEncode l).length ≤ l.length + l.length / 2 ^ (w - 1) + 1
  run : l = [] ∨ 3 ≤ runLength l → (rleEncode l).length ≤ l.length + l.length / 2 ^ (w - 1)

theorem withinBound (l : List (BitVec w)) : WithinBound l := by
  induction l using rleEncode_induction with
  | nil => exact ⟨Nat.zero_le _, fun _ => Nat.zero_le _⟩
  | run x xs hrun ih =>
    have hrest := ih.any
    have hle := runLength_le_length (x :: xs)
    have hdiv : ((x :: xs).length - runLength (x :: xs)) / 2 ^ (w - 1) ≤ (x :: xs).length / 2 ^ (w - 1) :=
      Nat.div_le_div_right (Nat.sub_le _ _)
    rw [List.length_drop] at hrest
    have hbound : (rleEncode (x :: xs)).length ≤ (x :: xs).length + (x :: xs).length / 2 ^ (w - 1) := by
      rw [rleEncode_of_run x xs hrun, List.length_cons, List.length_cons]
      omega
    exact ⟨by omega, fun _ => hbound⟩
  | literal x xs hshort ih =>
    obtain ⟨-, hle⟩ := literalLength_le (Config.rleLitMax w) (x :: xs)
    obtain ⟨-, hend⟩ := literalLength_spec (Config.rleLitMax w) (x :: xs)
    refine ⟨?_, fun h => absurd h (by simp; omega)⟩
    rw [rleEncode_of_no_run x xs hshort, List.length_cons, List.length_append, List.length_take]
    obtain ⟨hany, hrun⟩ := ih
    rw [List.length_drop] at hany hrun
    generalize literalLength (Config.rleLitMax w) (x :: xs) = n at *
    rcases hend with hfull | hlast | hnext
    · have hdiv : ((x :: xs).length - n + 2 ^ (w - 1)) / 2 ^ (w - 1) = ((x :: xs).length - n) / 2 ^ (w - 1) + 1 :=
        Nat.add_div_right _ (Nat.two_pow_pos _)
      have hfull : n = 2 ^ (w - 1) := hfull
      rw [← hfull, Nat.sub_add_cancel hle] at hdiv
      rw [← hfull] at hany ⊢
      omega
    · have hnil := hrun (.inl (by rw [hlast, List.drop_length]))
      rw [show (x :: xs).length - n = 0 by omega, Nat.zero_div] at hnil
      generalize (x :: xs).length / 2 ^ (w - 1) = d
      omega
    · have hpaid := hrun (.inr hnext)
      have hdiv : ((x :: xs).length - n) / 2 ^ (w - 1) ≤ (x :: xs).length / 2 ^ (w - 1) :=
        Nat.div_le_div_right (Nat.sub_le _ _)
      omega

/-! ### One run -/

theorem runLength_replicate {n : Nat} (v : BitVec w) (hpos : 1 ≤ n) (hmax : n ≤ 2 ^ (w - 1) + 2) :
    runLength (List.replicate n v) = n := by
  have hle := runLength_le_length (List.replicate n v)
  obtain ⟨m, rfl⟩ := Nat.exists_eq_add_of_le' hpos
  obtain ⟨-, hlargest⟩ := isRunLength_runLength v (List.replicate m v)
  rw [← List.replicate_succ] at hlargest
  rw [List.length_replicate] at hle hlargest
  refine le_antisymm hle (hlargest _ hpos hmax le_rfl fun q hq => ?_)
  simp [hq]

end Sys2Proof.Machine

open Sys2Proof Sys2Proof.Machine Sys2Proof.Claims

/-- Settles O40: each record decodes to the symbols it was made from, and their number is all that the capacity can refuse. -/
theorem decodingInvertsEncoding : Obligations.DecodingInvertsEncoding := by
  unfold Obligations.DecodingInvertsEncoding
  exact fun w cap l hwidth => rleDecode_rleEncode (by omega) l cap

/-- Settles O41: a literal record costs one symbol, which LIT_MAX symbols of its own, or the run behind it, pay for. -/
theorem encodingExpandsByAtMostTheBound : Obligations.EncodingExpandsByAtMostTheBound := by
  unfold Obligations.EncodingExpandsByAtMostTheBound
  exact fun w l _ => ⟨fun hnil => by rw [hnil]; rfl, fun _ => (withinBound l).any⟩

/-- Settles O42: the run is the whole input, and its header's FLAG and count field do not meet. -/
theorem uniformInputGivesOneRecord : Obligations.UniformInputGivesOneRecord := by
  unfold Obligations.UniformInputGivesOneRecord
  intro w n v hwidth hlow hmax
  have hrun := runLength_replicate v (by omega) hmax
  have hheader : repeatHeader w n = BitVec.ofNat w (2 ^ (w - 1) + (n - 3)) := by
    have hsplit := two_pow_split (w := w) (by omega)
    have hthree : 3 ≤ 2 ^ (w - 1) := by rcases hwidth with rfl | rfl <;> decide
    apply BitVec.eq_of_toNat_eq
    rw [repeatHeader_toNat (by omega) n hmax, BitVec.toNat_ofNat, Nat.mod_eq_of_lt (by omega)]
  obtain ⟨m, rfl⟩ := Nat.exists_eq_add_of_le' (show 1 ≤ n by omega)
  rw [List.replicate_succ] at hrun ⊢
  rw [rleEncode_of_run _ _ (by omega), hrun, hheader, List.drop_of_length_le (by simp), rleEncode_nil]

end

/-! ## The RLE operations

`45_rle_codec.md` R224-R229, `40_command_control.md` R114, R118: the two memory checks, the two ends of a body, and the machine's
round trip of 8-bit symbols. -/

section

namespace Sys2Proof.Machine

open Sys2Proof Sys2Proof.Claims

/-! ### The checks -/

/-- An RLE operation and the bytes of one of its source elements. -/
abbrev RleOf (i : Instr) (k : Nat) : Prop :=
  (i = .rle8Enc ∧ k = 1) ∨ (i = .rle8Dec ∧ k = 1) ∨ (i = .rle16Enc ∧ k = 2) ∨ (i = .rle16Dec ∧ k = 2)

theorem checksOf_rle {i : Instr} {k : Nat} (h : RleOf i k) (s : State) : checksOf i s = memoryChecks (rleRegions k s) s := by
  rcases h with ⟨rfl, rfl⟩ | ⟨rfl, rfl⟩ | ⟨rfl, rfl⟩ | ⟨rfl, rfl⟩
  · simp only [rleRegions, Nat.one_mul]; rfl
  · simp only [rleRegions, Nat.one_mul]; rfl
  · rfl
  · rfl

theorem firstFailing_rle {i : Instr} {k : Nat} (h : RleOf i k) (s : State) :
    firstFailing (checksOf i s) =
      if RangeOk (rleRegions k s) s then (if OverlapOk (rleRegions k s) then none else some .overlap) else some .range := by
  rw [checksOf_rle h, firstFailing_memoryChecks]

theorem exec_rle_of_ready {i : Instr} {k : Nat} (h : RleOf i k) {s : State} (hready : RleReady k s) :
    exec i s = .next (bodyOf i s) :=
  exec_eq_body (by rw [firstFailing_rle h, if_pos hready.1, if_pos hready.2])

/-! ### The ends of the bodies -/

variable (s : State)

theorem State.rleFail_spec (e : ErrorCode) : RleFailed s (s.rleFail e) e.code :=
  ⟨rfl, fun a ha => State.byteAt_havoc_out s ⟨s.dst, s.cap⟩ a (ha _ List.mem_cons_self)⟩

theorem State.rleFinish8_spec (out : List Byte) :
    Finished s (s.rleFinish8 out) out.length [⟨s.cfg.dstBase.toNat, out.length⟩] ∧
      ∀ (q : Nat) (h : q < out.length), (s.rleFinish8 out).byteAt (s.cfg.dstBase.toNat + q) = out[q] :=
  ⟨⟨rfl, fun a ha => State.byteAt_storeBytes_out s s.dst out a (ha _ List.mem_cons_self)⟩,
    fun q h => State.byteAt_storeBytes_in s s.dst out q h⟩

theorem State.rleFinish16_spec (out : List Half) :
    Finished s (s.rleFinish16 out) out.length [⟨s.cfg.dstBase.toNat, 2 * out.length⟩] ∧
      ∀ (q : Nat) (h : q < out.length),
        (s.rleFinish16 out).byteAt (s.cfg.dstBase.toNat + 2 * q) = out[q].extractLsb' 0 8 ∧
          (s.rleFinish16 out).byteAt (s.cfg.dstBase.toNat + 2 * q + 1) = out[q].extractLsb' 8 8 :=
  ⟨⟨rfl, fun a ha => State.byteAt_storeBytes_out s s.dst (out.flatMap littleEndian) a
      (by rw [halfBytes_length]; exact ha _ List.mem_cons_self)⟩,
    fun q h => State.byteAt_of_halfAt (s := s.rleFinish16 out) (State.halfAt_storeBytes_littleEndian s s.dst out q h)⟩

section

variable {s}

theorem exec_rle8Enc_fits (hready : RleReady 1 s) (h : (rleEncode s.rleSource8).length ≤ s.cap) :
    exec .rle8Enc s = .next (s.rleFinish8 (rleEncode s.rleSource8)) :=
  (exec_rle_of_ready (by decide) hready).trans (congrArg _ (if_neg h.not_gt))

theorem exec_rle8Enc_full (hready : RleReady 1 s) (h : s.cap < (rleEncode s.rleSource8).length) :
    exec .rle8Enc s = .next (s.rleFail .capacity) :=
  (exec_rle_of_ready (by decide) hready).trans (congrArg _ (if_pos h))

theorem exec_rle16Enc_fits (hready : RleReady 2 s) (h : 2 * (rleEncode s.rleSource16).length ≤ s.cap) :
    exec .rle16Enc s = .next (s.rleFinish16 (rleEncode s.rleSource16)) :=
  (exec_rle_of_ready (by decide) hready).trans (congrArg _ (if_neg h.not_gt))

theorem exec_rle16Enc_full (hready : RleReady 2 s) (h : s.cap < 2 * (rleEncode s.rleSource16).length) :
    exec .rle16Enc s = .next (s.rleFail .capacity) :=
  (exec_rle_of_ready (by decide) hready).trans (congrArg _ (if_pos h))

theorem exec_rle8Dec_ok (hready : RleReady 1 s) {out : List Byte} (h : rleDecode s.cap s.rleSource8 = .ok out) :
    exec .rle8Dec s = .next (s.rleFinish8 out) := by
  rw [exec_rle_of_ready (by decide) hready, bodyOf, rle8DecBody, h]

theorem exec_rle8Dec_error (hready : RleReady 1 s) {e : ErrorCode} (h : rleDecode s.cap s.rleSource8 = .error e) :
    exec .rle8Dec s = .next (s.rleFail e) := by
  rw [exec_rle_of_ready (by decide) hready, bodyOf, rle8DecBody, h]

theorem exec_rle16Dec_ok (hready : RleReady 2 s) {out : List Half} (h : rleDecode (s.cap / 2) s.rleSource16 = .ok out) :
    exec .rle16Dec s = .next (s.rleFinish16 out) := by
  rw [exec_rle_of_ready (by decide) hready, bodyOf, rle16DecBody, h]

theorem exec_rle16Dec_error (hready : RleReady 2 s) {e : ErrorCode}
    (h : rleDecode (s.cap / 2) s.rleSource16 = .error e) : exec .rle16Dec s = .next (s.rleFail e) := by
  rw [exec_rle_of_ready (by decide) hready, bodyOf, rle16DecBody, h]

end

/-! ### The round trip on the machine -/

@[simp] theorem State.rleSource8_length : s.rleSource8.length = s.cfg.srcLen.toNat := by
  simp [State.rleSource8, State.bytesAt]

theorem State.rleSource8_getElem (q : Nat) (h : q < s.rleSource8.length) :
    s.rleSource8[q] = s.byteAt (s.cfg.srcBase.toNat + q) := by
  simp [State.rleSource8, State.bytesAt]

/-- A state whose source bytes are those of a list has the list as its source. -/
theorem State.rleSource8_eq {t : State} {l : List Byte} (hlen : t.cfg.srcLen.toNat = l.length)
    (h : ∀ (q : Nat) (hq : q < l.length), t.byteAt (t.cfg.srcBase.toNat + q) = l[q]) : t.rleSource8 = l := by
  refine List.ext_getElem (by rw [State.rleSource8_length, hlen]) fun q _ hq => ?_
  rw [State.rleSource8_getElem, h q hq]

/-- RLE8_ENC that ends in DONE had room for its stream. -/
theorem exec_rle8Enc_done {s t : State} (hready : RleReady 1 s) (h : exec .rle8Enc s = .next t)
    (hdone : t.status.done = true) :
    (rleEncode s.rleSource8).length ≤ s.cap ∧ t = s.rleFinish8 (rleEncode s.rleSource8) := by
  rcases Nat.lt_or_ge s.cap (rleEncode s.rleSource8).length with hfull | hfits
  · cases h.symm.trans (exec_rle8Enc_full hready hfull)
    cases hdone
  · cases h.symm.trans (exec_rle8Enc_fits hready hfits)
    exact ⟨hfits, rfl⟩

end Sys2Proof.Machine

open Sys2Proof Sys2Proof.Machine Sys2Proof.Claims

/-- Settles O47: RANGE, then OVERLAP, on the two regions of the operation. -/
theorem rleChecksInOrder : Obligations.RleChecksInOrder := by
  unfold Obligations.RleChecksInOrder
  intro s i k hop
  have hfirst := firstFailing_rle hop s
  refine ⟨fun hr => ?_, fun hr ho => ?_⟩
  · rw [if_neg hr] at hfirst
    exact raises_of_firstFailing hfirst
  · rw [if_pos hr, if_neg ho] at hfirst
    exact raises_of_firstFailing hfirst

/-- Settles O43: the body compares the stream's length with DST_CAP. -/
theorem rleEightEncodeWritesTheStream : Obligations.RleEightEncodeWritesTheStream := by
  unfold Obligations.RleEightEncodeWritesTheStream
  exact ⟨by decide, fun s hready => ⟨fun h => ⟨_, exec_rle8Enc_fits hready h, s.rleFinish8_spec _⟩,
    fun h => ⟨_, exec_rle8Enc_full hready h, s.rleFail_spec _⟩⟩⟩

/-- Settles O44: the same with two bytes for a word. -/
theorem rleSixteenEncodeWritesTheStream : Obligations.RleSixteenEncodeWritesTheStream := by
  unfold Obligations.RleSixteenEncodeWritesTheStream
  exact ⟨by decide, fun s hready => ⟨fun h => ⟨_, exec_rle16Enc_fits hready h, s.rleFinish16_spec _⟩,
    fun h => ⟨_, exec_rle16Enc_full hready h, s.rleFail_spec _⟩⟩⟩

/-- Settles O45: the decoder's verdict decides the end. -/
theorem rleEightDecodeWritesTheSymbols : Obligations.RleEightDecodeWritesTheSymbols := by
  unfold Obligations.RleEightDecodeWritesTheSymbols
  exact ⟨by decide, fun s hready => ⟨fun out h => ⟨_, exec_rle8Dec_ok hready h, s.rleFinish8_spec out⟩,
    fun h => ⟨_, exec_rle8Dec_error hready h, s.rleFail_spec _⟩,
    fun h => ⟨_, exec_rle8Dec_error hready h, s.rleFail_spec _⟩⟩⟩

/-- Settles O46: the same with a capacity in words. -/
theorem rleSixteenDecodeWritesTheSymbols : Obligations.RleSixteenDecodeWritesTheSymbols := by
  unfold Obligations.RleSixteenDecodeWritesTheSymbols
  exact ⟨by decide, fun s hready => ⟨fun out h => ⟨_, exec_rle16Dec_ok hready h, s.rleFinish16_spec out⟩,
    fun h => ⟨_, exec_rle16Dec_error hready h, s.rleFail_spec _⟩,
    fun h => ⟨_, exec_rle16Dec_error hready h, s.rleFail_spec _⟩⟩⟩

/-- Settles O48: the decoder's source is the stream that RLE8_ENC stored, and its capacity holds the original symbols. -/
theorem compressedBuffersDecompress : Obligations.CompressedBuffersDecompress := by
  unfold Obligations.CompressedBuffersDecompress
  intro s t c hready hexec hdone hbase hlen hcap hready'
  obtain ⟨hfits, rfl⟩ := exec_rle8Enc_done hready hexec hdone
  obtain ⟨-, hstored⟩ := s.rleFinish8_spec (rleEncode s.rleSource8)
  have hshort : (rleEncode s.rleSource8).length < 2 ^ 32 := hfits.trans_lt s.cfg.dstCap.isLt
  have hsource : State.rleSource8 { s.rleFinish8 (rleEncode s.rleSource8) with cfg := c } = rleEncode s.rleSource8 := by
    refine State.rleSource8_eq ?_ fun q hq => ?_
    · exact (congrArg BitVec.toNat hlen).trans ((BitVec.toNat_ofNat _ _).trans (Nat.mod_eq_of_lt hshort))
    · exact (congrArg (fun b : Word => State.byteAt _ (b.toNat + q)) hbase).trans (hstored q hq)
  have hdecode : rleDecode c.dstCap.toNat (rleEncode s.rleSource8) = .ok s.rleSource8 := by
    rw [rleDecode_rleEncode (by decide), if_pos (by rwa [State.rleSource8_length])]
  have hback := exec_rle8Dec_ok hready' (hsource.symm ▸ hdecode)
  obtain ⟨-, hbytes⟩ := State.rleFinish8_spec _ s.rleSource8
  refine ⟨_, hback, rfl, ?_, fun q hq => ?_⟩
  · exact (congrArg (BitVec.ofNat 32) s.rleSource8_length).trans ((BitVec.ofNat_toNat _ _).trans (BitVec.setWidth_eq _))
  · exact (hbytes q (by rwa [State.rleSource8_length])).trans (s.rleSource8_getElem q _)

end
